-- ==== Sys2Proof/Word.lean ====
section
/-! DEFINITION. The widths the spec computes with (spec/00_scope.md R11, R12): bytes, 32-, 64- and 128-bit
words, the wide register of four lanes and the 4×4 grid of wide registers. -/

namespace Sys2Proof

abbrev Byte := BitVec 8
abbrev Word32 := BitVec 32
abbrev Word64 := BitVec 64
/-- One state word (`WORD_BITS` = 128, R9). -/
abbrev Word128 := BitVec 128

/-- A lane number, `LANES` = 4 (R9). -/
abbrev Lane := Fin 4

/-- A wide register: one 128-bit word per lane; `w[l]` is the rules' `W.l` (R11, R13). -/
abbrev Wide := Vector Word128 4

/-- A grid of wide registers; `g[r][c]` is row `r`, column `c` (10_state.md R21). -/
abbrev Grid := Vector (Vector Wide 4) 4

end Sys2Proof
end

