-- ==== Sys2Proof/Config.lean ====
section
/-! DEFINITION. What is fixed for one CORE and no command changes (spec/00_scope.md R9, spec/10_state.md R54):
the two configurations of a context, the open parameters of the spec, and the two free constants. -/

namespace Sys2Proof

/-- The two legal output widths of a context (R10). -/
inductive Hs where
  | h256
  | h512
  deriving DecidableEq, Repr

/-- `LEN_HI_MODE` (R9, 42_finalizer.md R172): what the high half of the length word holds. -/
inductive LenHiMode where
  | replicate
  | zero
  deriving DecidableEq, Repr

/-- `SCAN_BATCH` (R9, 44_comparator_scanloop.md R228): nonces tried per iteration, 1 or 4. -/
inductive ScanBatch where
  | one
  | four
  deriving DecidableEq, Repr

/-- `N_STAGES` (R9). -/
abbrev nStages : Nat := 19

/-- The stage table `STAGES` (10_state.md R39): 19 descriptors of 64 bits. -/
abbrev StageTable := Vector Word64 nStages

/-- One call of an external primitive together with the answer the platform gives it: the plain-data part of
`PRIM` (43_chain_orchestrator.md R193; log 7). `digest` may have any length, so a misbehaving primitive
(R204) can be written down. -/
structure PrimAnswer where
  prim : BitVec 5
  outBits : Nat
  data : List Byte
  digest : List Byte
  deriving DecidableEq, Repr

/-- The configuration of one CORE (R9). Held in the state so that a run can be written out; no command and no
host access changes it (10_state.md R39, R54; log 6, 7, 10). -/
structure Conf where
  lenHi : LenHiMode
  batch : ScanBatch
  stages : StageTable
  primAnswers : List PrimAnswer
  deriving DecidableEq, Repr

/-- FREE VALUE. `PRIM[p](outBits, data)` of every call no `PrimAnswer` lists: an uninterpreted function of the
three, answering `outBits / 8` bytes (R14, R193, the typing R204 allows; log 7). -/
opaque Config.prim (p : BitVec 5) (outBits : Nat) (data : List Byte) : Vector Byte (outBits / 8)

/-- FREE VALUE. Entry `i` of the configured stage table of the machine that `State.reset` describes
(30_encoding.md R106: the contents are OPEN; log 6). -/
opaque Config.stageWord : Nat → Word64

end Sys2Proof
end

