-- ==== Sys2Proof/Syntax.lean ====
section
/-! DEFINITION. The instructions: one constructor per row of spec/opcode_table.json, 21 command words
(spec/30_encoding.md R98) and the four kinds of stage descriptor (R103, R104). -/

namespace Sys2Proof

/-- Operand of format G (30_encoding.md R94): the source grid. -/
inductive GridSel where
  | a
  | b
  deriving DecidableEq, Repr

/-- Operand of format S (R95): where the block is taken from. -/
inductive BlockSrc where
  | msg
  | buf
  deriving DecidableEq, Repr

/-- `SRC` of a stage descriptor (R103): the byte space of the input. -/
inductive StageSrc where
  | rb
  | hb
  deriving DecidableEq, Repr

/-- `KIND` of a stage descriptor (R103). -/
inductive StageKind where
  | ord
  | aes
  | lat
  | mh
  deriving DecidableEq, Repr

/-- The fields of a stage descriptor other than `KIND` and the reserved byte (R103), "unsigned and used as
they stand". -/
structure StageFields where
  prim : BitVec 5
  src : StageSrc
  inOff : Byte
  inLen : Byte
  outOff : Byte
  outLen : Byte
  clrOff : Byte
  clrLen : Byte
  deriving DecidableEq, Repr

/-- The instructions, in the order of the opcode table. -/
inductive Instr where
  /-- `NOP` (R140) -/
  | nop
  /-- `CTX.INIT imm16` (R142) -/
  | ctxInit (imm : BitVec 16)
  /-- `CTR.ADV` (R143) -/
  | ctrAdv
  /-- `LDM s` (R144) -/
  | ldm (src : BlockSrc)
  /-- `SAVE` (R145) -/
  | save
  /-- `SUBW g` (R146) -/
  | subw (g : GridSel)
  /-- `MIXB g` (R147) -/
  | mixb (g : GridSel)
  /-- `FFWD` (R148) -/
  | ffwd
  /-- `COMPRESS s` (R149) -/
  | compress (src : BlockSrc)
  /-- `PAD imm16` (R172) -/
  | pad (imm : BitVec 16)
  /-- `CTR.FIX` (R174) -/
  | ctrFix
  /-- `XTRACT` (R175) -/
  | xtract
  /-- `FINALIZE imm16` (R177) -/
  | finalize (imm : BitVec 16)
  /-- `CHAIN` (R206) -/
  | chain
  /-- `CH.BEGIN` (R198) -/
  | chBegin
  /-- `CH.STEP` (R199) -/
  | chStep
  /-- `CH.END` (R205) -/
  | chEnd
  /-- `CMP lane` (R222) -/
  | cmp (lane : Lane)
  /-- `SCAN` (R233) -/
  | scan
  /-- `SC.BEGIN` (R226) -/
  | scBegin
  /-- `SC.ITER` (R227) -/
  | scIter
  /-- `STG.ORD` (R200): a stage descriptor, run by `CH.STEP` when `STAGES[STAGE]` holds it -/
  | stgOrd (d : StageFields)
  /-- `STG.AES` (R201) -/
  | stgAes (d : StageFields)
  /-- `STG.LAT` (R200) -/
  | stgLat (d : StageFields)
  /-- `STG.MH` (R200) -/
  | stgMh (d : StageFields)
  deriving DecidableEq, Repr

end Sys2Proof
end

