-- ==== Sys2Proof/WellFormed.lean ====
section
/-! DEFINITION. Well-formed instructions. Every command word that decodes is well-formed: its operand type holds
exactly the values its format admits (spec/30_encoding.md R93 to R97). A stage descriptor is well-formed when it
meets the conditions of spec/43_chain_orchestrator.md R196 that speak of one descriptor alone; the conditions
on the whole table are `Sys2Proof.Machine.wfTable`. -/

namespace Sys2Proof

/-- W1: `PRIM` is 0 when the kind is AES (30_encoding.md R105). -/
def StageFields.primOk (k : StageKind) (d : StageFields) : Bool :=
  match k with
  | .aes => d.prim == 0
  | _ => true

/-- W5: every stage takes its input from offset 0. -/
def StageFields.inOffOk (d : StageFields) : Bool := d.inOff == 0

/-- W3, W6: 80 bytes of header, or 64 or 32 bytes of the running buffer. -/
def StageFields.inLenOk (d : StageFields) : Bool :=
  match d.src with
  | .hb => d.inLen == 80
  | .rb => d.inLen == 64 || d.inLen == 32

/-- W6: the memory-hard stage is the last one to read a wide input, so its input is never 32 bytes; W4: the
lattice-based stage is not the first, so it does not read the header. -/
def StageFields.kindInputOk (k : StageKind) (d : StageFields) : Bool :=
  match k with
  | .mh => d.inLen != 32
  | .lat => d.src == .rb
  | _ => true

/-- W6, W7: the memory-hard stage answers 32 bytes; any other stage answers 32 bytes if it reads 32 (it stands
behind the memory-hard one) and 64 otherwise (it stands before it). -/
def StageFields.outLenOk (k : StageKind) (d : StageFields) : Bool :=
  match k with
  | .mh => d.outLen == 32
  | _ => if d.inLen == 32 then d.outLen == 32 else d.outLen == 64

/-- W8: offset 64 for the lattice-based stage, 0 for every other. -/
def StageFields.outOffOk (k : StageKind) (d : StageFields) : Bool :=
  match k with
  | .lat => d.outOff == 64
  | _ => d.outOff == 0

/-- W10: the clear range lies inside RB. -/
def StageFields.clrOk (d : StageFields) : Bool := decide (d.clrOff.toNat + d.clrLen.toNat ≤ 128)

/-- The conditions of R196 on one descriptor of kind `k`. -/
def StageFields.wf (k : StageKind) (d : StageFields) : Bool :=
  d.primOk k && d.inOffOk && d.inLenOk && d.kindInputOk k && d.outLenOk k && d.outOffOk k && d.clrOk

/-- A well-formed instruction. -/
def Instr.wf : Instr → Bool
  | .nop => true
  | .ctxInit _ => true
  | .ctrAdv => true
  | .ldm _ => true
  | .save => true
  | .subw _ => true
  | .mixb _ => true
  | .ffwd => true
  | .compress _ => true
  | .pad _ => true
  | .ctrFix => true
  | .xtract => true
  | .finalize _ => true
  | .chain => true
  | .chBegin => true
  | .chStep => true
  | .chEnd => true
  | .cmp _ => true
  | .scan => true
  | .scBegin => true
  | .scIter => true
  | .stgOrd d => d.wf .ord
  | .stgAes d => d.wf .aes
  | .stgLat d => d.wf .lat
  | .stgMh d => d.wf .mh

end Sys2Proof
end

