-- ==== Sys2Proof/Decode.lean ====
section
/-! DEFINITION. Decoding and encoding (spec/30_encoding.md R90 to R107): command words of 32 bits and stage
descriptors of 64 bits, the encoder, and the match and mask of every row. -/

namespace Sys2Proof

/-- Why a word decodes to no instruction (R100, R104). -/
inductive Reject where
  /-- the opcode byte is none of the 21 of R98 -/
  | unknownOpcode
  /-- a bit the command's format requires to be zero is set -/
  | operandBits
  /-- bits 63:56 of a stage descriptor are not zero -/
  | reservedDescriptorBits
  deriving DecidableEq, Repr

/-- A word as the hardware holds it: a command word in CMD, or a descriptor in the stage table (R90). -/
inductive Encoded where
  | command (w : Word32)
  | descriptor (w : Word64)
  deriving DecidableEq, Repr

/-! ## Command words -/

/-- Format Z (R93): bits 23:0 zero. -/
def formatZ (cw : Word32) (i : Instr) : Except Reject Instr :=
  if cw.extractLsb' 0 24 = 0 then .ok i else .error .operandBits

/-- Format G (R94): bits 23:1 zero, bit 0 the grid. -/
def formatG (cw : Word32) (i : GridSel → Instr) : Except Reject Instr :=
  if cw.extractLsb' 1 23 = 0 then .ok (i (if cw.getLsbD 0 then .b else .a)) else .error .operandBits

/-- Format S (R95): bits 23:1 zero, bit 0 the block source. -/
def formatS (cw : Word32) (i : BlockSrc → Instr) : Except Reject Instr :=
  if cw.extractLsb' 1 23 = 0 then .ok (i (if cw.getLsbD 0 then .buf else .msg)) else .error .operandBits

/-- Format I (R96): bits 23:16 zero, bits 15:0 the immediate. -/
def formatI (cw : Word32) (i : BitVec 16 → Instr) : Except Reject Instr :=
  if cw.extractLsb' 16 8 = 0 then .ok (i (cw.extractLsb' 0 16)) else .error .operandBits

/-- Format L (R97): bits 23:2 zero, bits 1:0 the lane. -/
def formatL (cw : Word32) (i : Lane → Instr) : Except Reject Instr :=
  if cw.extractLsb' 2 22 = 0 then .ok (i (cw.extractLsb' 0 2).toFin) else .error .operandBits

/-- Decode a command word (R107). -/
def decodeCommand (cw : Word32) : Except Reject Instr :=
  match (cw.extractLsb' 24 8).toNat with
  | 0x00 => formatZ cw .nop
  | 0x01 => formatI cw .ctxInit
  | 0x10 => formatZ cw .ctrAdv
  | 0x11 => formatS cw .ldm
  | 0x12 => formatZ cw .save
  | 0x13 => formatG cw .subw
  | 0x14 => formatG cw .mixb
  | 0x15 => formatZ cw .ffwd
  | 0x18 => formatS cw .compress
  | 0x20 => formatI cw .pad
  | 0x21 => formatZ cw .ctrFix
  | 0x22 => formatZ cw .xtract
  | 0x28 => formatI cw .finalize
  | 0x30 => formatZ cw .chain
  | 0x31 => formatZ cw .chBegin
  | 0x32 => formatZ cw .chStep
  | 0x33 => formatZ cw .chEnd
  | 0x40 => formatL cw .cmp
  | 0x41 => formatZ cw .scan
  | 0x42 => formatZ cw .scBegin
  | 0x43 => formatZ cw .scIter
  | _ => .error .unknownOpcode

/-! ## Stage descriptors -/

/-- `KIND`, bits 6:5 (R103, R104). -/
def descriptorKind (w : Word64) : StageKind :=
  match (w.extractLsb' 5 2).toNat with
  | 0 => .ord
  | 1 => .aes
  | 2 => .lat
  | _ => .mh

/-- The other fields of a descriptor (R103). -/
def descriptorFields (w : Word64) : StageFields where
  prim := w.extractLsb' 0 5
  src := if w.getLsbD 7 then .hb else .rb
  inOff := w.extractLsb' 8 8
  inLen := w.extractLsb' 16 8
  outOff := w.extractLsb' 24 8
  outLen := w.extractLsb' 32 8
  clrOff := w.extractLsb' 40 8
  clrLen := w.extractLsb' 48 8

/-- Bits 63:56, which must be zero (R103). -/
def descriptorReserved (w : Word64) : Byte := w.extractLsb' 56 8

/-- The instruction of a descriptor of a kind. -/
def stageInstr (k : StageKind) (d : StageFields) : Instr :=
  match k with
  | .ord => .stgOrd d
  | .aes => .stgAes d
  | .lat => .stgLat d
  | .mh => .stgMh d

/-- Decode a stage descriptor (R104): the kinds are told apart by bits 6:5, and bits 63:56 must be zero. -/
def decodeDescriptor (w : Word64) : Except Reject Instr :=
  if descriptorReserved w = 0 then .ok (stageInstr (descriptorKind w) (descriptorFields w))
  else .error .reservedDescriptorBits

/-- Decode a word of either length: total, rejecting by name (R107, R104). -/
def decode : Encoded → Except Reject Instr
  | .command w => decodeCommand w
  | .descriptor w => decodeDescriptor w

/-- The instruction read from a table row's bits: 32 for a command, 64 for a stage descriptor. -/
def decodeTableWord (nbits w : Nat) : Option Instr :=
  match nbits with
  | 32 => (decode (.command (BitVec.ofNat 32 w))).toOption
  | 64 => (decode (.descriptor (BitVec.ofNat 64 w))).toOption
  | _ => none

/-! ## Encoding -/

/-- `cw = op ++ zext_24(operand)` (R107). -/
def commandWord (op : Byte) (operand : BitVec 24) : Word32 := op ++ operand

/-- Bit 0 of format G (R94). -/
def GridSel.code : GridSel → BitVec 24
  | .a => 0
  | .b => 1

/-- Bit 0 of format S (R95). -/
def BlockSrc.code : BlockSrc → BitVec 24
  | .msg => 0
  | .buf => 1

/-- `KIND` as a number (R103). -/
def StageKind.code : StageKind → BitVec 2
  | .ord => 0
  | .aes => 1
  | .lat => 2
  | .mh => 3

/-- `SRC` as a bit (R103). -/
def StageSrc.code : StageSrc → BitVec 1
  | .rb => 0
  | .hb => 1

/-- A descriptor word from its kind and fields, the reserved byte zero (R103). -/
def descriptorWord (k : StageKind) (d : StageFields) : Word64 :=
  (0 : Byte) ++ d.clrLen ++ d.clrOff ++ d.outLen ++ d.outOff ++ d.inLen ++ d.inOff
    ++ d.src.code ++ k.code ++ d.prim

/-- The word of an instruction (R92 to R98, R103, R107). -/
def encode : Instr → Encoded
  | .nop => .command (commandWord 0x00 0)
  | .ctxInit imm => .command (commandWord 0x01 (imm.setWidth 24))
  | .ctrAdv => .command (commandWord 0x10 0)
  | .ldm src => .command (commandWord 0x11 src.code)
  | .save => .command (commandWord 0x12 0)
  | .subw g => .command (commandWord 0x13 g.code)
  | .mixb g => .command (commandWord 0x14 g.code)
  | .ffwd => .command (commandWord 0x15 0)
  | .compress src => .command (commandWord 0x18 src.code)
  | .pad imm => .command (commandWord 0x20 (imm.setWidth 24))
  | .ctrFix => .command (commandWord 0x21 0)
  | .xtract => .command (commandWord 0x22 0)
  | .finalize imm => .command (commandWord 0x28 (imm.setWidth 24))
  | .chain => .command (commandWord 0x30 0)
  | .chBegin => .command (commandWord 0x31 0)
  | .chStep => .command (commandWord 0x32 0)
  | .chEnd => .command (commandWord 0x33 0)
  | .cmp lane => .command (commandWord 0x40 (BitVec.ofNat 24 lane.val))
  | .scan => .command (commandWord 0x41 0)
  | .scBegin => .command (commandWord 0x42 0)
  | .scIter => .command (commandWord 0x43 0)
  | .stgOrd d => .descriptor (descriptorWord .ord d)
  | .stgAes d => .descriptor (descriptorWord .aes d)
  | .stgLat d => .descriptor (descriptorWord .lat d)
  | .stgMh d => .descriptor (descriptorWord .mh d)

/-! ## The match and mask of every row (R99, R104) -/

/-- A word's length in bits and its bits as a number. -/
def Encoded.bits : Encoded → Nat × Nat
  | .command w => (32, w.toNat)
  | .descriptor w => (64, w.toNat)

/-- A row of the opcode table: the length of its words, its match and its mask. -/
structure Row where
  nbits : Nat
  matchBits : Nat
  maskBits : Nat
  deriving DecidableEq, Repr

/-- The row of an instruction (R99, R104). -/
def Instr.row : Instr → Row
  | .nop => ⟨32, 0x00000000, 0xFFFFFFFF⟩
  | .ctxInit _ => ⟨32, 0x01000000, 0xFFFF0000⟩
  | .ctrAdv => ⟨32, 0x10000000, 0xFFFFFFFF⟩
  | .ldm _ => ⟨32, 0x11000000, 0xFFFFFFFE⟩
  | .save => ⟨32, 0x12000000, 0xFFFFFFFF⟩
  | .subw _ => ⟨32, 0x13000000, 0xFFFFFFFE⟩
  | .mixb _ => ⟨32, 0x14000000, 0xFFFFFFFE⟩
  | .ffwd => ⟨32, 0x15000000, 0xFFFFFFFF⟩
  | .compress _ => ⟨32, 0x18000000, 0xFFFFFFFE⟩
  | .pad _ => ⟨32, 0x20000000, 0xFFFF0000⟩
  | .ctrFix => ⟨32, 0x21000000, 0xFFFFFFFF⟩
  | .xtract => ⟨32, 0x22000000, 0xFFFFFFFF⟩
  | .finalize _ => ⟨32, 0x28000000, 0xFFFF0000⟩
  | .chain => ⟨32, 0x30000000, 0xFFFFFFFF⟩
  | .chBegin => ⟨32, 0x31000000, 0xFFFFFFFF⟩
  | .chStep => ⟨32, 0x32000000, 0xFFFFFFFF⟩
  | .chEnd => ⟨32, 0x33000000, 0xFFFFFFFF⟩
  | .cmp _ => ⟨32, 0x40000000, 0xFFFFFFFC⟩
  | .scan => ⟨32, 0x41000000, 0xFFFFFFFF⟩
  | .scBegin => ⟨32, 0x42000000, 0xFFFFFFFF⟩
  | .scIter => ⟨32, 0x43000000, 0xFFFFFFFF⟩
  | .stgOrd _ => ⟨64, 0x0000000000000000, 0xFF00000000000060⟩
  | .stgAes _ => ⟨64, 0x0000000000000020, 0xFF00000000000060⟩
  | .stgLat _ => ⟨64, 0x0000000000000040, 0xFF00000000000060⟩
  | .stgMh _ => ⟨64, 0x0000000000000060, 0xFF00000000000060⟩

/-- A word lies in a row when its length is the row's and `word and mask = match` (R99). -/
def Row.covers (r : Row) (e : Encoded) : Bool :=
  e.bits.1 == r.nbits && (e.bits.2 &&& r.maskBits) == r.matchBits

end Sys2Proof
end

