-- ==== Sys2Proof/Machine/State.lean ====
section
/-! DEFINITION. The state of one CORE (spec/10_state.md R20 to R54), the reasons a step can stop, and the state
after reset (R53, spec/70_reset_and_hazards.md R290). -/

namespace Sys2Proof.Machine

/-- Context life cycle (R33). -/
inductive CtxSt where
  | none
  | ready
  | done
  | dead
  deriving DecidableEq, Repr

/-- Chain state (R38). -/
inductive ChSt where
  | idle
  | run
  | done
  deriving DecidableEq, Repr

/-- Scan state (R45). -/
inductive ScanSt where
  | idle
  | run
  | exhausted
  | cancelled
  deriving DecidableEq, Repr

/-- The faults of the hardware (60_exceptions.md R251) with the information a `raise` names for the reader; no
register holds that information. Raising one is a NEXT state. -/
inductive HwFault where
  | cfgError (imm : BitVec 16)
  | ctxState
  | badLength (n : BitVec 16)
  | chainFatal (stage : BitVec 5)
  | illegalCmd (cw : Word32)
  | seqError
  deriving DecidableEq, Repr

/-- The event `SUBMIT(nonce, digest)` (R47, 44_comparator_scanloop.md R229). -/
structure Submit where
  nonce : Word32
  digest : List Byte
  deriving DecidableEq, Repr

/-- The byte spaces (20_memory.md R60). -/
inductive Space where
  | hb
  | rb
  | cd
  deriving DecidableEq, Repr

/-- One lane of a byte space: the cells whose byte is not zero, addresses strictly rising; an unlisted address
reads as zero (log 5). The operations are in Ops.lean. -/
abbrev Memory := List Host.Cell

/-- A register, part of a register, or byte that the host reaches by name (R52, 20_memory.md R68: a scalar
whole, one lane of a wide register, or one byte of a byte space). -/
inductive HostReg where
  | a (r c : Fin 4) (l : Lane)
  | b (r c : Fin 4) (l : Lane)
  | bk (r c : Fin 4) (l : Lane)
  | k (l : Lane)
  | k1 (l : Lane)
  | cfg
  | buf (w : Fin 12) (l : Lane)
  | msg (w : Fin 12) (l : Lane)
  | pbits
  | rem
  | dg (w : Fin 4) (l : Lane)
  | ctxst
  | hb (l : Lane) (off : Fin 80)
  | rb (l : Lane) (off : Fin 128)
  | cd (l : Lane) (off : Fin 32)
  | ln (l : Lane)
  | stage
  | chst
  | stages (i : Fin 19)
  | hdr (i : Fin 20)
  | tgt (i : Fin 8)
  | first
  | max
  | cancel
  | nonce
  | attempts
  | scanst
  | qual
  | status
  | fault
  | halted
  | cmd
  deriving DecidableEq, Repr

/-- What the host does next (R52, 20_memory.md R69, 70_reset_and_hazards.md R290; log 2, 3). The value a read gives is
`hostRead` or `hostFront` of the state it is made in. -/
inductive HostAct where
  /-- write a value to a named register; a write to CMD issues a command -/
  | write (r : HostReg) (v : Word128)
  /-- read a named register -/
  | read (r : HostReg)
  /-- read the front event of SUBQ -/
  | readFront
  /-- remove the front event of SUBQ -/
  | take
  /-- leave a running `SCAN` alone for one iteration -/
  | wait
  /-- assert RESET -/
  | reset
  deriving DecidableEq, Repr

/-- The command the CORE has in hand (R50, 30_encoding.md R91, R109; log 1, 9). -/
inductive Command where
  /-- no command: the CORE waits for the host -/
  | idle
  /-- the word the host wrote to CMD, not yet taken -/
  | word (cw : Word32)
  /-- a `SCAN` under way, between two of its iterations -/
  | scan
  deriving DecidableEq, Repr

/-- Why the MODEL stops. No state that a run from reset reaches stops so. -/
inductive Fault where
  /-- Raised by a context command when CTXST is `READY` and CFG is neither legal configuration, which R27 and R142
  exclude: the spec gives the command no effect there. Safe (log 11). -/
  | configuration
  /-- Raised by `CH.STEP`, `CH.END` and the descriptors when a field of an unverified stage table addresses a byte
  beyond the end of its space (R60, R196 W10): no such byte exists. Safe (log 12). -/
  | noSuchByte
  /-- Raised by the AES stage when an unverified stage table asks for more than 12 message words: there is no
  such MSG register (R31). Safe (log 12). -/
  | noSuchRegister
  deriving DecidableEq, Repr

/-- Why an instruction has no meaning. -/
inductive Refusal where
  /-- Raised by an arm of `exec` whose instruction is not modelled. Safe. No arm of this model raises it. -/
  | notModelled (mnemonic : String)
  deriving DecidableEq, Repr

/-- The state of one CORE. The registers carry the names of spec/10_state.md; STATUS is a view (`statusWord`). -/
structure State where
  -- the context register file
  a : Grid
  b : Grid
  bk : Grid
  k : Wide
  k1 : Wide
  cfg : Word32
  buf : Vector Wide 12
  msg : Vector Wide 12
  pbits : Word64
  rem : Word128
  dg : Vector Wide 4
  ctxst : CtxSt
  -- the chain state
  hb : Vector Memory 4
  rb : Vector Memory 4
  cd : Vector Memory 4
  ln : Vector Word32 4
  stage : BitVec 5
  chst : ChSt
  -- the scan state; `first` and `max` are FIRST and MAX
  hdr : Vector Word32 20
  tgt : Vector Word32 8
  first : Word32
  max : Word32
  cancel : Bool
  nonce : Word32
  attempts : Word32
  scanst : ScanSt
  qual : BitVec 4
  subq : List Submit
  -- the status state; `cmd` is the command in hand
  fault : Word32
  halted : Bool
  cmd : Command
  -- the configuration, never written by a step (R54)
  conf : Conf
  -- the model's own: what the outside world does next (log 2, 8)
  inbox : List HostAct
  polls : List Bool
  deriving DecidableEq, Repr

/-- A wide register with zero in every lane. -/
def zeroWide : Wide := Vector.replicate 4 0

/-- A grid of zeros. -/
def zeroGrid : Grid := Vector.replicate 4 (Vector.replicate 4 zeroWide)

/-- The machine right after reset (R53). The values of CTXST, CFG, PBITS, REM, STAGE, CHST, NONCE, ATTEMPTS,
SCANST, QUAL, SUBQ, FAULT, HALTED are the spec's; the stage table and the primitives are the free configuration;
LEN_HI_MODE and SCAN_BATCH have the values of 00_scope.md R9. Every other register has no specified value and
is zero here. DESIGN CHOICE, unsafe (log 4, 5). -/
def State.reset : State where
  a := zeroGrid
  b := zeroGrid
  bk := zeroGrid
  k := zeroWide
  k1 := zeroWide
  cfg := 0
  buf := Vector.replicate 12 zeroWide
  msg := Vector.replicate 12 zeroWide
  pbits := 0
  rem := 0
  dg := Vector.replicate 4 zeroWide
  ctxst := .none
  hb := Vector.replicate 4 []
  rb := Vector.replicate 4 []
  cd := Vector.replicate 4 []
  ln := Vector.replicate 4 0
  stage := 0
  chst := .idle
  hdr := Vector.replicate 20 0
  tgt := Vector.replicate 8 0
  first := 0
  max := 0
  cancel := false
  nonce := 0
  attempts := 0
  scanst := .idle
  qual := 0
  subq := []
  fault := 0
  halted := false
  cmd := .idle
  conf :=
    { lenHi := .replicate
      batch := .one
      stages := Vector.ofFn fun i => Config.stageWord i.val
      primAnswers := [] }
  inbox := []
  polls := []

end Sys2Proof.Machine
end

