-- ==== Sys2Proof/Machine/Ops.lean ====
section
/-! DEFINITION. The operations every family shares: byte strings and integers (spec/00_scope.md R15), the byte
spaces (R13, spec/20_memory.md R60 to R64), wide registers, the outcome of a micro-operation, taking a fault
(spec/60_exceptions.md R253, R254), the context check, RESET, and the removal of an event. -/

namespace Sys2Proof

/-! ## The configuration register (10_state.md R27, 00_scope.md R9) -/

/-- The output width in bits. -/
def Hs.bits : Hs → Nat
  | .h256 => 256
  | .h512 => 512

/-- `BLKW(HS)`. -/
def Hs.blkw : Hs → Nat
  | .h256 => 12
  | .h512 => 8

/-- `BLOCK_BITS(HS)`. -/
def Hs.blockBits (h : Hs) : Nat := 128 * h.blkw

/-- `ROUNDS(HS)`. -/
def Hs.rounds : Hs → Nat
  | .h256 => 8
  | .h512 => 10

/-- `CC(HS)`, the number of chaining columns. -/
def Hs.cc : Hs → Nat
  | .h256 => 1
  | .h512 => 2

/-- `BLOCK_INC(HS)` (90_conflicts.md C2). -/
def Hs.blockInc (h : Hs) : Nat := h.blockBits

/-- Build CFG from its fields (R27). -/
def packCfg (hs blkw rounds cc : Nat) : Word32 :=
  (0 : BitVec 6) ++ BitVec.ofNat 2 cc ++ BitVec.ofNat 4 rounds ++ BitVec.ofNat 4 blkw ++ BitVec.ofNat 16 hs

/-- The CFG word of a legal configuration. -/
def Hs.cfgWord (h : Hs) : Word32 := packCfg h.bits h.blkw h.rounds h.cc

/-- `CFG.HS`. -/
def cfgHS (cfg : Word32) : Nat := (cfg.extractLsb' 0 16).toNat

/-- `CFG.BLKW`. -/
def cfgBLKW (cfg : Word32) : Nat := (cfg.extractLsb' 16 4).toNat

/-- `CFG.ROUNDS`. -/
def cfgROUNDS (cfg : Word32) : Nat := (cfg.extractLsb' 20 4).toNat

/-- `CFG.CC`. -/
def cfgCC (cfg : Word32) : Nat := (cfg.extractLsb' 24 2).toNat

end Sys2Proof

namespace Sys2Proof.Machine

/-! ## Byte strings and integers (R15) -/

/-- `LE(n, v)`. -/
def leBytes : Nat → Nat → List Byte
  | 0, _ => []
  | n + 1, v => BitVec.ofNat 8 v :: leBytes n (v / 256)

/-- `le(bs)`. -/
def leNat : List Byte → Nat
  | [] => 0
  | b :: bs => b.toNat + 256 * leNat bs

/-- `BE(n, v)`. -/
def beBytes (n v : Nat) : List Byte := (leBytes n v).reverse

/-- `be(bs)`. -/
def beNat (bs : List Byte) : Nat := leNat bs.reverse

/-- `bytesOf(w)` (R15; little-endian, 20_memory.md R62). -/
def bytesOf (w : Word128) : List Byte := leBytes 16 w.toNat

/-- Word `w` of `wordsOf(bs)`: `le(bs[16w .. 16w+16))` (R15, 20_memory.md R63). -/
def wordAt (bs : List Byte) (w : Nat) : Word128 := BitVec.ofNat 128 (leNat ((bs.drop (16 * w)).take 16))

/-- `byte(w, k)` (R11). -/
def byteOf (w : Word128) (k : Nat) : Byte := w.extractLsb' (8 * k) 8

/-- The word whose byte `k` is `f k` (R11). -/
def wordOfBytes (f : Nat → Byte) : Word128 := BitVec.ofNat 128 (leNat ((List.range 16).map f))

/-! ## One lane of a byte space -/

/-- The byte at an address; an unlisted address reads as zero (log 5). -/
def Memory.read : Memory → Nat → Byte
  | [], _ => 0
  | (k, v) :: rest, a => if k = a then v else Memory.read rest a

/-- Write one byte, keeping the canonical form. -/
def Memory.write : Memory → Nat → Byte → Memory
  | [], a, b => if b = 0 then [] else [(a, b)]
  | (k, v) :: rest, a, b =>
    if a < k then (if b = 0 then (k, v) :: rest else (a, b) :: (k, v) :: rest)
    else if a = k then (if b = 0 then rest else (a, b) :: rest)
    else (k, v) :: Memory.write rest a b

/-- The `n` bytes from `a` on, lowest address first (`MemRead`, R13). -/
def Memory.load (m : Memory) (a n : Nat) : List Byte := (List.range n).map fun i => Memory.read m (a + i)

/-- Write a byte string from `a` on (`MemWrite`, R13). -/
def Memory.store (m : Memory) (a : Nat) : List Byte → Memory
  | [] => m
  | b :: bs => Memory.store (Memory.write m a b) (a + 1) bs

/-- The canonical form from address `lo` on: addresses strictly rising, no entry zero. -/
def Memory.wfFrom : Nat → Memory → Bool
  | _, [] => true
  | lo, (k, v) :: rest => decide (lo ≤ k) && v != 0 && Memory.wfFrom (k + 1) rest

/-- The canonical form. -/
def Memory.wf (m : Memory) : Bool := Memory.wfFrom 0 m

/-- Every listed address is below `n`. -/
def Memory.below (n : Nat) (m : Memory) : Bool := m.all fun c => decide (c.1 < n)

/-- Bytes per lane of a byte space (20_memory.md R60). -/
def Space.size : Space → Nat
  | .hb => 80
  | .rb => 128
  | .cd => 32

/-- The four lanes of a byte space. -/
def State.space (s : State) : Space → Vector Memory 4
  | .hb => s.hb
  | .rb => s.rb
  | .cd => s.cd

/-- The state with the four lanes of a byte space replaced. -/
def State.setSpace (s : State) (sp : Space) (m : Vector Memory 4) : State :=
  match sp with
  | .hb => { s with hb := m }
  | .rb => { s with rb := m }
  | .cd => { s with cd := m }

/-- One byte of a byte space. -/
def State.byteAt (s : State) (sp : Space) (l : Lane) (a : Nat) : Byte := Memory.read (s.space sp)[l] a

/-- `MemRead(space, l, addr, n)` (R13). -/
def memRead (s : State) (sp : Space) (l : Lane) (a n : Nat) : List Byte := Memory.load (s.space sp)[l] a n

/-- `MemWrite(space, l, addr, n, v)` for every lane `l` (R13). -/
def memWrite (s : State) (sp : Space) (a : Nat) (v : Lane → List Byte) : State :=
  s.setSpace sp (Vector.ofFn fun l => Memory.store (s.space sp)[l] a (v l))

/-- The bytes `[a, a + n)` exist in a byte space. -/
def inSpace (sp : Space) (a n : Nat) : Bool := decide (a + n ≤ sp.size)

/-! ## Wide registers and grids (R11, R13) -/

/-- A wide register given lane by lane. -/
def wide (f : Lane → Word128) : Wide := Vector.ofFn f

/-- The same word in every lane. -/
def splat (w : Word128) : Wide := wide fun _ => w

/-- A grid given register by register. -/
def grid (f : Fin 4 → Fin 4 → Wide) : Grid := Vector.ofFn fun r => Vector.ofFn fun c => f r c

/-! ## Faults of the hardware -/

/-- The code of a fault, the number of the FAULT bit it sets (60_exceptions.md R251). -/
def HwFault.code : HwFault → Nat
  | .cfgError _ => 1
  | .ctxState => 2
  | .badLength _ => 3
  | .chainFatal _ => 4
  | .illegalCmd _ => 5
  | .seqError => 6

/-- The halting faults (R251, R254). -/
def HwFault.halting : HwFault → Bool
  | .chainFatal _ => true
  | .illegalCmd _ => true
  | _ => false

/-- The FAULT bit of a fault (10_state.md R49). -/
def HwFault.bit (h : HwFault) : Word32 := 1#32 <<< h.code

/-- What `raise` writes (R253): the FAULT bit, and HALTED for a halting fault. -/
def recordFault (h : HwFault) (s : State) : State :=
  { s with fault := s.fault ||| h.bit, halted := s.halted || h.halting }

/-- A micro-operation that has run: the state it leaves and the fault it raised, if any. -/
structure Done where
  st : State
  raised : Option HwFault
  deriving DecidableEq, Repr

/-- The outcome of a micro-operation: it has run, or the model stops. -/
abbrev Res := Except Fault Done

/-- Run without a fault. -/
def ran (s : State) : Done := ⟨s, none⟩

/-- `raise F(info)` (R253): the writes made before stay, FAULT and HALTED are written, the command ends. -/
def raise (h : HwFault) (s : State) : Done := ⟨recordFault h s, some h⟩

/-- One micro-operation after another (30_encoding.md R108): a fault ends the whole sequence, "with no further
micro-operation" (R253). -/
def andThen (r : Res) (f : State → Res) : Res :=
  match r with
  | .error e => .error e
  | .ok ⟨s, none⟩ => f s
  | .ok ⟨s, some h⟩ => .ok ⟨s, some h⟩

/-- A micro-operation repeated. -/
def repeated (f : State → Res) : Nat → State → Res
  | 0, s => .ok (ran s)
  | n + 1, s => andThen (f s) (repeated f n)

/-- The step a command makes. A fault of the hardware is a next state. -/
def outcome (r : Res) : Host.Outcome State Fault Refusal :=
  match r with
  | .ok d => .next d.st
  | .error e => .fault e

/-- The configuration CFG holds, if it is one of the two legal ones (R10, R27). -/
def hsOfCfg (cfg : Word32) : Option Hs :=
  if cfg = Hs.h256.cfgWord then some .h256
  else if cfg = Hs.h512.cfgWord then some .h512
  else none

/-- The context check (41_compression_engine.md R152, 60_exceptions.md R256): without a `READY` context the command
raises `CTX_STATE` and changes nothing else. A `READY` context whose CFG is no legal configuration is reached by
no run; the model stops there (log 11). -/
def inContext (s : State) (f : Hs → Done) : Res :=
  if s.ctxst = .ready then
    match hsOfCfg s.cfg with
    | some h => .ok (f h)
    | none => .error .configuration
  else .ok (raise .ctxState s)

/-! ## RESET and the removal of an event -/

/-- RESET (70_reset_and_hazards.md R290): the command in hand is abandoned and the state is that of 10_state.md R53.
CANCEL is not touched; the configuration and what the outside world does next are not registers of the CORE
(log 3). -/
def resetSignal (s : State) : State :=
  { State.reset with cancel := s.cancel, conf := s.conf, inbox := s.inbox, polls := s.polls }

/-- The host removes the event at the front of SUBQ (10_state.md R47, R52). With SUBQ empty nothing changes: DESIGN CHOICE
(log 17). -/
def takeEvent (s : State) : State := { s with subq := s.subq.tail }

end Sys2Proof.Machine
end

