-- ==== Sys2Proof/Machine/Aes.lean ====
section
/-! DEFINITION. The AES single-round function and GF(2⁸) doubling (spec/40_aes_primitives.md). The constants are the
spec's, which marks them as general knowledge. UNVERIFIED, unsafe (log 14). -/

namespace Sys2Proof.Machine

/-- `GF_RED` (R121). -/
def gfRed : Byte := 0x1B

/-- `xtime(b)` (R121): logical shift of the byte, reduced when its top bit was set. -/
def xtime (b : Byte) : Byte := (b <<< 1) ^^^ (if b.msb then gfRed else 0)

/-- `mul2` (R123). -/
def mul2 (b : Byte) : Byte := xtime b

/-- `mul3` (R123). -/
def mul3 (b : Byte) : Byte := xtime b ^^^ b

/-- `DBL128(w)` (R129). -/
def dbl128 (w : Word128) : Word128 := wordOfBytes fun k => xtime (byteOf w k)

/-- The rows of the AES S-box (R122): row `h` holds `SBOX[16h]` to `SBOX[16h + 15]`, first entry leftmost. -/
def sboxRows : List Nat :=
  [ 0x637C777BF26B6FC53001672BFED7AB76,
    0xCA82C97DFA5947F0ADD4A2AF9CA472C0,
    0xB7FD9326363FF7CC34A5E5F171D83115,
    0x04C723C31896059A071280E2EB27B275,
    0x09832C1A1B6E5AA0523BD6B329E32F84,
    0x53D100ED20FCB15B6ACBBE394A4C58CF,
    0xD0EFAAFB434D338545F9027F503C9FA8,
    0x51A3408F929D38F5BCB6DA2110FFF3D2,
    0xCD0C13EC5F974417C4A77E3D645D1973,
    0x60814FDC222A908846EEB814DE5E0BDB,
    0xE0323A0A4906245CC2D3AC629195E479,
    0xE7C8376D8DD54EA96C56F4EA657AAE08,
    0xBA78252E1CA6B4C6E8DD741F4BBD8B8A,
    0x703EB5664803F60E613557B986C11D9E,
    0xE1F8981169D98E949B1E87E9CE5528DF,
    0x8CA1890DBFE6426841992D0FB054BB16 ]

/-- `SBOX[x]`: row `x[7:4]`, column `x[3:0]` (R122). -/
def sbox (x : Byte) : Byte :=
  BitVec.ofNat 8 (sboxRows.getD (x.toNat / 16) 0 >>> (8 * (15 - x.toNat % 16)))

/-- `sb[row][col]` of a word (R124, R125): the S-box applied to byte `4·col + row`. -/
def subByte (x : Word128) (row col : Nat) : Byte := sbox (byteOf x (4 * col + row))

/-- `sr[row][col]` (R126): row `row` rotated left by `row` places. -/
def shiftedByte (x : Word128) (row col : Nat) : Byte := subByte x row ((col + row) % 4)

/-- `mc[row][col]` (R127). -/
def mixedByte (x : Word128) (row col : Nat) : Byte :=
  let a0 := shiftedByte x 0 col
  let a1 := shiftedByte x 1 col
  let a2 := shiftedByte x 2 col
  let a3 := shiftedByte x 3 col
  match row with
  | 0 => mul2 a0 ^^^ mul3 a1 ^^^ a2 ^^^ a3
  | 1 => a0 ^^^ mul2 a1 ^^^ mul3 a2 ^^^ a3
  | 2 => a0 ^^^ a1 ^^^ mul2 a2 ^^^ mul3 a3
  | _ => mul3 a0 ^^^ a1 ^^^ a2 ^^^ mul2 a3

/-- `AESRound(x, k)` (R128): byte `4·col + row` of the word is `mc[row][col]`, the key added last. -/
def aesRound (x k : Word128) : Word128 := wordOfBytes (fun i => mixedByte x (i % 4) (i / 4)) ^^^ k

/-- `SUB2(x, k)` (R130). -/
def sub2 (x k : Word128) : Word128 := aesRound (aesRound x k) 0

end Sys2Proof.Machine
end

