-- ==== Sys2Proof/Machine/Operands.lean ====
section
/-! DEFINITION. The operand forms of the commands (spec/30_encoding.md R94 to R97): the grid a `g` selects, the
block an `s` selects, and the values of `imm16` a command accepts. -/

namespace Sys2Proof.Machine

/-- The grid `g` selects (R94). -/
def State.gridOf (s : State) : GridSel → Grid
  | .a => s.a
  | .b => s.b

/-- The other grid (R94). -/
def otherGrid : GridSel → GridSel
  | .a => .b
  | .b => .a

/-- The state with the selected grid replaced. -/
def State.setGrid (s : State) (g : GridSel) (x : Grid) : State :=
  match g with
  | .a => { s with a := x }
  | .b => { s with b := x }

/-- The registers `s` selects (R95). -/
def State.blockOf (s : State) : BlockSrc → Vector Wide 12
  | .msg => s.msg
  | .buf => s.buf

/-- The configuration `CTX.INIT imm16` asks for, if there is one (41_compression_engine.md R142, 00_scope.md R10). -/
def hsOfImm (imm : BitVec 16) : Option Hs :=
  if imm = 256 then some .h256
  else if imm = 512 then some .h512
  else none

/-- The legal message lengths (42_finalizer.md R171). -/
def legalLength (h : Hs) (n : BitVec 16) : Bool :=
  n.toNat % 128 == 0 && (decide (n.toNat ≤ 128 * (h.blkw - 3)) || n.toNat == h.blockBits)

end Sys2Proof.Machine
end

