-- ==== Sys2Proof/Machine/Compression.lean ====
section
/-! DEFINITION. The compression engine (spec/41_compression_engine.md): NOP, CTX.INIT, CTR.ADV, LDM, SAVE, SUBW,
MIXB, FFWD, COMPRESS. A micro-operation is a function of the state that macro-commands and the chain use too; the
`exec…` definitions are the commands' meanings. -/

namespace Sys2Proof.Machine

/-- The grid a new context starts with (R142): the output width in the chaining columns, zero elsewhere. -/
def initialGrid (h : Hs) : Grid :=
  grid fun _ c => if c.val < h.cc then splat (BitVec.ofNat 128 h.bits) else splat 0

/-- `CTX.INIT imm16` (R142, 60_exceptions.md R255). -/
def ctxInit (imm : BitVec 16) (s : State) : Res :=
  match hsOfImm imm with
  | some h =>
    .ok (ran { s with
      cfg := h.cfgWord, a := initialGrid h, k := splat 0, pbits := 0, rem := 0, ctxst := .ready })
  | none => .ok (raise (.cfgError imm) { s with cfg := 0, ctxst := .dead })

/-- `CTR.ADV` (R143). -/
def ctrAdv (s : State) : Res :=
  inContext s fun h => ran { s with k := wide fun l => s.k[l] + BitVec.ofNat 128 h.blockInc }

/-- The place in a block of the word that goes to row `r` of a message column (R144). -/
def blockIndex (h : Hs) (r c : Fin 4) : Fin 12 :=
  ⟨4 * (c.val - h.cc) + r.val, by cases h <;> simp only [Hs.cc] <;> omega⟩

/-- Grid A with the block in its message columns (R144). -/
def loadedGrid (h : Hs) (a : Grid) (block : Vector Wide 12) : Grid :=
  grid fun r c => if h.cc ≤ c.val then block[blockIndex h r c] else a[r][c]

/-- `LDM s` (R144). -/
def ldm (src : BlockSrc) (s : State) : Res :=
  inContext s fun h => ran { s with a := loadedGrid h s.a (s.blockOf src) }

/-- `SAVE` (R145). -/
def save (s : State) : Res :=
  inContext s fun _ => ran { s with bk := s.a, k1 := s.k }

/-- The key of the word at row `r`, column `c`: words are taken column by column, row index fastest (R146). -/
def wordKey (k1 : Wide) (r c : Fin 4) (l : Lane) : Word128 := k1[l] + BitVec.ofNat 128 (4 * c.val + r.val)

/-- SubBytes over one grid (R146). -/
def subGrid (x : Grid) (k1 : Wide) : Grid :=
  grid fun r c => wide fun l => sub2 x[r][c][l] (wordKey k1 r c l)

/-- `SUBW g` (R146). -/
def subw (g : GridSel) (s : State) : Res :=
  inContext s fun _ =>
    ran { s.setGrid g (subGrid (s.gridOf g) s.k1) with k1 := wide fun l => s.k1[l] + 16 }

/-- `MIX` (R147): row `i`, coefficient of source `r`. -/
def mixCoeff (i r : Fin 4) : Nat :=
  match i.val, r.val with
  | 0, 0 => 2 | 0, 1 => 3 | 0, 2 => 1 | 0, _ => 1
  | 1, 0 => 1 | 1, 1 => 2 | 1, 2 => 3 | 1, _ => 1
  | 2, 0 => 1 | 2, 1 => 1 | 2, 2 => 2 | 2, _ => 3
  | _, 0 => 3 | _, 1 => 1 | _, 2 => 1 | _, _ => 2

/-- A coefficient times a word, byte-lane-wise (R147). -/
def scaleWord (m : Nat) (w : Word128) : Word128 :=
  match m with
  | 2 => dbl128 w
  | 3 => dbl128 w ^^^ w
  | _ => w

/-- The source word of row `r` for column `j`: row `r` reads column `(j + r) mod 4` (R147). -/
def mixSource (x : Grid) (j r : Fin 4) (l : Lane) : Word128 := x[r][j + r][l]

/-- MixBytes (R147): `Y[i][j] = xor over r of MIX[i][r] · s_r`. -/
def mixGrid (x : Grid) : Grid :=
  grid fun i j => wide fun l =>
    scaleWord (mixCoeff i 0) (mixSource x j 0 l) ^^^ scaleWord (mixCoeff i 1) (mixSource x j 1 l)
      ^^^ scaleWord (mixCoeff i 2) (mixSource x j 2 l) ^^^ scaleWord (mixCoeff i 3) (mixSource x j 3 l)

/-- `MIXB g` (R147). -/
def mixb (g : GridSel) (s : State) : Res :=
  inContext s fun _ => ran (s.setGrid (otherGrid g) (mixGrid (s.gridOf g)))

/-- Feed-forward whitening (R148; eight operands for 256, 90_conflicts.md C1). -/
def feedForward (h : Hs) (a bk : Grid) : Grid :=
  match h with
  | .h256 => grid fun r c => wide fun l =>
      if c = 0 then
        a[r][0][l] ^^^ a[r][1][l] ^^^ a[r][2][l] ^^^ a[r][3][l]
          ^^^ bk[r][0][l] ^^^ bk[r][1][l] ^^^ bk[r][2][l] ^^^ bk[r][3][l]
      else a[r][c][l]
  | .h512 => grid fun r c => wide fun l =>
      if c = 0 then a[r][0][l] ^^^ a[r][2][l] ^^^ bk[r][0][l] ^^^ bk[r][2][l]
      else if c = 1 then a[r][1][l] ^^^ a[r][3][l] ^^^ bk[r][1][l] ^^^ bk[r][3][l]
      else a[r][c][l]

/-- `FFWD` (R148). -/
def ffwd (s : State) : Res :=
  inContext s fun h => ran { s with a := feedForward h s.a s.bk }

/-- One round-pair: `SUBW A ; MIXB A ; SUBW B ; MIXB B` (R149). -/
def roundPair (s : State) : Res :=
  andThen (andThen (andThen (subw .a s) (mixb .a)) (subw .b)) (mixb .b)

/-- `CFG.ROUNDS / 2` round-pairs (R149, 30_encoding.md R108). -/
def roundPairs (s : State) : Res := repeated roundPair (cfgROUNDS s.cfg / 2) s

/-- `COMPRESS s`: exactly its expansion (R149, 30_encoding.md R108). -/
def compress (src : BlockSrc) (s : State) : Res :=
  andThen (andThen (andThen (andThen (ctrAdv s) (ldm src)) save) roundPairs) ffwd

/-- Meaning of `NOP` (R140): nothing changes. -/
def execNop (s : State) : Host.Outcome State Fault Refusal := outcome (.ok (ran s))

/-- Meaning of `CTX.INIT` (R142). -/
def execCtxInit (imm : BitVec 16) (s : State) : Host.Outcome State Fault Refusal := outcome (ctxInit imm s)

/-- Meaning of `CTR.ADV` (R143). -/
def execCtrAdv (s : State) : Host.Outcome State Fault Refusal := outcome (ctrAdv s)

/-- Meaning of `LDM` (R144). -/
def execLdm (src : BlockSrc) (s : State) : Host.Outcome State Fault Refusal := outcome (ldm src s)

/-- Meaning of `SAVE` (R145). -/
def execSave (s : State) : Host.Outcome State Fault Refusal := outcome (save s)

/-- Meaning of `SUBW` (R146). -/
def execSubw (g : GridSel) (s : State) : Host.Outcome State Fault Refusal := outcome (subw g s)

/-- Meaning of `MIXB` (R147). -/
def execMixb (g : GridSel) (s : State) : Host.Outcome State Fault Refusal := outcome (mixb g s)

/-- Meaning of `FFWD` (R148). -/
def execFfwd (s : State) : Host.Outcome State Fault Refusal := outcome (ffwd s)

/-- Meaning of `COMPRESS` (R149). -/
def execCompress (src : BlockSrc) (s : State) : Host.Outcome State Fault Refusal := outcome (compress src s)

end Sys2Proof.Machine
end

