-- ==== Sys2Proof/Machine/Finalizer.lean ====
section
/-! DEFINITION. The finalizer (spec/42_finalizer.md): PAD, CTR.FIX, XTRACT, FINALIZE, and the digest as bytes. -/

namespace Sys2Proof.Machine

/-- The marker word (R172). -/
def markerWord : Word128 := 0x80

/-- The second-to-last word: the output width at bits 127:112 (R172). -/
def widthWord (h : Hs) : Word128 := BitVec.ofNat 128 h.bits <<< 112

/-- The last word: `hi ++ PBITS` (R172, 90_conflicts.md C5). -/
def lengthWord (m : LenHiMode) (pbits : Word64) : Word128 :=
  (match m with
    | .replicate => pbits
    | .zero => 0) ++ pbits

/-- `n = BB`: the full-block case (R172). -/
def isFullBlock (h : Hs) (n : BitVec 16) : Bool := n.toNat == h.blockBits

/-- `vlen` (R172): the message words the terminal block holds. -/
def messageWords (h : Hs) (n : BitVec 16) : Nat := if isFullBlock h n then 0 else n.toNat / 128

/-- REM after `PAD` (R172); minus the block length in the full-block case (R173). -/
def padRem (h : Hs) (n : BitVec 16) : Word128 :=
  if isFullBlock h n then -(BitVec.ofNat 128 h.blockBits) else n.setWidth 128

/-- PBITS after `PAD` (R172): modulo 2^64. In the full-block case the length is `BB`, which is `n`. -/
def padPbits (n : BitVec 16) (pbits : Word64) : Word64 := pbits + n.setWidth 64

/-- The terminal block (R172). Words at or above `BW` are not written. -/
def terminalBlock (m : LenHiMode) (h : Hs) (n : BitVec 16) (pbits : Word64) (msg buf : Vector Wide 12) :
    Vector Wide 12 :=
  Vector.ofFn fun w =>
    if w.val < messageWords h n then msg[w]
    else if w.val = messageWords h n then splat markerWord
    else if w.val < h.blkw - 2 then splat 0
    else if w.val = h.blkw - 2 then splat (widthWord h)
    else if w.val = h.blkw - 1 then splat (lengthWord m pbits)
    else buf[w]

/-- The check of the length (R171): `CTX_STATE` first, then `BAD_LENGTH`, before anything changes. -/
def checkLength (n : BitVec 16) (s : State) : Res :=
  inContext s fun h => if legalLength h n then ran s else raise (.badLength n) s

/-- The writes of `PAD` in a context of width `h` with a legal length (R172). -/
def padState (h : Hs) (n : BitVec 16) (s : State) : State :=
  { s with
    buf := terminalBlock s.conf.lenHi h n (padPbits n s.pbits) s.msg s.buf
    pbits := padPbits n s.pbits
    rem := padRem h n }

/-- `PAD imm16` (R172). -/
def pad (n : BitVec 16) (s : State) : Res :=
  inContext s fun h => if legalLength h n then ran (padState h n s) else raise (.badLength n) s

/-- `CTR.FIX` (R174). -/
def ctrFix (s : State) : Res :=
  inContext s fun h => ran { s with k := wide fun l => s.k[l] + s.rem - BitVec.ofNat 128 h.blockInc }

/-- The digest words (R175): column 0 of A, two rows for 256 and four for 512. -/
def digestRegisters (h : Hs) (a : Grid) : Vector Wide 4 :=
  Vector.ofFn fun w => if w.val < h.bits / 128 then a[w][0] else splat 0

/-- `XTRACT` (R175). -/
def xtract (s : State) : Res :=
  inContext s fun h => ran { s with dg := digestRegisters h s.a, ctxst := .done }

/-- The full block itself, compressed straight from MSG when the length is `BLOCK_BITS` (R177). -/
def fullBlock (n : BitVec 16) (s : State) : Res :=
  if n.toNat = 128 * cfgBLKW s.cfg then compress .msg s else .ok (ran s)

/-- `FINALIZE imm16`: exactly its expansion (R177, 30_encoding.md R108). -/
def finalize (n : BitVec 16) (s : State) : Res :=
  andThen (andThen (andThen (andThen (andThen (checkLength n s) (fullBlock n)) (pad n)) ctrFix) (compress .buf)) xtract

/-- `DIGEST(l)` for a context of width `8·len` (R176): the bytes of DG, lowest word first. -/
def digestBytes (s : State) (len : Nat) (l : Lane) : List Byte :=
  (bytesOf s.dg[0][l] ++ bytesOf s.dg[1][l] ++ bytesOf s.dg[2][l] ++ bytesOf s.dg[3][l]).take len

/-- Meaning of `PAD` (R172). -/
def execPad (n : BitVec 16) (s : State) : Host.Outcome State Fault Refusal := outcome (pad n s)

/-- Meaning of `CTR.FIX` (R174). -/
def execCtrFix (s : State) : Host.Outcome State Fault Refusal := outcome (ctrFix s)

/-- Meaning of `XTRACT` (R175). -/
def execXtract (s : State) : Host.Outcome State Fault Refusal := outcome (xtract s)

/-- Meaning of `FINALIZE` (R177). -/
def execFinalize (n : BitVec 16) (s : State) : Host.Outcome State Fault Refusal := outcome (finalize n s)

end Sys2Proof.Machine
end

