-- ==== Sys2Proof/Machine/StageTable.lean ====
section
/-! DEFINITION. Well-formedness of the stage table, `WF(STAGES)` (spec/43_chain_orchestrator.md R196, conditions W1 to
W10). -/

namespace Sys2Proof.Machine

/-- The kind of entry `i`. -/
def kindAt (t : StageTable) (i : Fin 19) : StageKind := descriptorKind t[i]

/-- The other fields of entry `i`. -/
def fieldsAt (t : StageTable) (i : Fin 19) : StageFields := descriptorFields t[i]

/-- How many entries have a kind. -/
def kindCount (t : StageTable) (k : StageKind) : Nat := (List.finRange 19).countP fun i => kindAt t i == k

/-- The index of the first entry of a kind; 19 if there is none. -/
def kindIndex (t : StageTable) (k : StageKind) : Nat := (List.finRange 19).findIdx fun i => kindAt t i == k

/-- A condition on every entry. -/
def everyEntry (p : Fin 19 → Bool) : Bool := (List.finRange 19).all p

/-- W1: bits 63:56 zero; `PRIM` = 0 if the kind is AES. -/
def wfW1 (t : StageTable) : Bool :=
  everyEntry fun i => descriptorReserved t[i] == 0 && (kindAt t i != .aes || (fieldsAt t i).prim == 0)

/-- W2: exactly one AES, one LAT and one MH; the other 16 are ORD. -/
def wfW2 (t : StageTable) : Bool :=
  kindCount t .aes == 1 && kindCount t .lat == 1 && kindCount t .mh == 1 && kindCount t .ord == 16

/-- W3: entry 0 reads the 80-byte header; every other entry reads RB. -/
def wfW3 (t : StageTable) : Bool :=
  (fieldsAt t 0).src == .hb && (fieldsAt t 0).inOff == 0 && (fieldsAt t 0).inLen == 80
    && everyEntry fun i => i == 0 || (fieldsAt t i).src == .rb

/-- W4: the lattice-based stage is not the first. -/
def wfW4 (t : StageTable) : Bool := decide (1 ≤ kindIndex t .lat)

/-- W5: every input starts at offset 0. -/
def wfW5 (t : StageTable) : Bool := everyEntry fun i => (fieldsAt t i).inOff == 0

/-- W6: from entry 1 on, 64 bytes in up to the memory-hard stage and 32 after it. -/
def wfW6 (t : StageTable) : Bool :=
  everyEntry fun i => i == 0 || (fieldsAt t i).inLen == (if i.val ≤ kindIndex t .mh then 64 else 32)

/-- W7: 64 bytes out before the memory-hard stage and 32 from it on. -/
def wfW7 (t : StageTable) : Bool :=
  everyEntry fun i => (fieldsAt t i).outLen == (if i.val < kindIndex t .mh then 64 else 32)

/-- W8: the lattice-based stage writes at offset 64, every other at 0. -/
def wfW8 (t : StageTable) : Bool :=
  everyEntry fun i => (fieldsAt t i).outOff == (if i.val = kindIndex t .lat then 64 else 0)

/-- The configuration a digest of `len` bytes asks for (R201: `hs = 8·OUT_LEN`). -/
def hsOfLength (len : Nat) : Option Hs :=
  if len = 32 then some .h256 else if len = 64 then some .h512 else none

/-- A length in bits is legal for a width (W9, 42_finalizer.md R171), on natural numbers. -/
def legalBits (h : Hs) (n : Nat) : Bool :=
  n % 128 == 0 && (decide (n ≤ 128 * (h.blkw - 3)) || n == h.blockBits)

/-- W9: at the AES stage the input is whole words and a legal message length. -/
def wfW9 (t : StageTable) : Bool :=
  everyEntry fun i =>
    kindAt t i != .aes ||
      ((fieldsAt t i).inOff.toNat % 16 == 0 && (fieldsAt t i).inLen.toNat % 16 == 0 &&
        match hsOfLength (fieldsAt t i).outLen.toNat with
        | some h => legalBits h (8 * (fieldsAt t i).inLen.toNat)
        | none => false)

/-- W10: every clear range lies inside RB. -/
def wfW10 (t : StageTable) : Bool :=
  everyEntry fun i => decide ((fieldsAt t i).clrOff.toNat + (fieldsAt t i).clrLen.toNat ≤ 128)

/-- `WF(STAGES)` (R196). -/
def wfTable (t : StageTable) : Bool :=
  wfW1 t && wfW2 t && wfW3 t && wfW4 t && wfW5 t && wfW6 t && wfW7 t && wfW8 t && wfW9 t && wfW10 t

end Sys2Proof.Machine
end

