-- ==== Sys2Proof/Machine/Chain.lean ====
section
/-! DEFINITION. The chain orchestrator (spec/43_chain_orchestrator.md): CH.BEGIN, CH.STEP, CH.END, CHAIN, and the four
kinds of stage descriptor. -/

namespace Sys2Proof.Machine

/-- `PRIM[p](outBits, data)` (R193): the listed answer, or the free constant (log 7). -/
def primCall (c : Conf) (p : BitVec 5) (outBits : Nat) (data : List Byte) : List Byte :=
  match c.primAnswers.find? fun x => x.prim == p && x.outBits == outBits && x.data == data with
  | some x => x.digest
  | none => (Config.prim p outBits data).toList

/-! ## CH.BEGIN -/

/-- The 80 header bytes of a lane (R198, 20_memory.md R64): HDR[0..18] and the lane's nonce, each big-endian. -/
def headerBytes (s : State) (l : Lane) : List Byte :=
  (s.hdr.toList.take 19).flatMap (fun w => beBytes 4 w.toNat) ++ beBytes 4 s.ln[l].toNat

/-- The writes of `CH.BEGIN` (R198). -/
def chBeginState (s : State) : State :=
  { memWrite (memWrite s .hb 0 (headerBytes s)) .rb 0 (fun _ => List.replicate 128 0) with
    stage := 0, chst := .run }

/-- `CH.BEGIN` (R198): an ill-formed table raises `CHAIN_FATAL(0)` (R197). -/
def chBegin (s : State) : Res :=
  .ok (if wfTable s.conf.stages then ran (chBeginState s) else raise (.chainFatal 0) s)

/-! ## CH.STEP and the stage descriptors -/

/-- The byte space `SRC` names (R199). -/
def srcSpace : StageSrc → Space
  | .rb => .rb
  | .hb => .hb

/-- The input of a stage in a lane (R199). -/
def stageInput (d : StageFields) (s : State) (l : Lane) : List Byte :=
  memRead s (srcSpace d.src) l d.inOff.toNat d.inLen.toNat

/-- Every byte a stage reads, writes or clears exists (log 12). A clear of length 0 touches none (R199). -/
def stageInSpace (d : StageFields) : Bool :=
  inSpace (srcSpace d.src) d.inOff.toNat d.inLen.toNat && inSpace .rb d.outOff.toNat d.outLen.toNat
    && (d.clrLen == 0 || inSpace .rb d.clrOff.toNat d.clrLen.toNat)

/-- The zero-clear of a stage (R199, R203). -/
def stageClear (d : StageFields) (s : State) : State :=
  if d.clrLen = 0 then s
  else memWrite s .rb d.clrOff.toNat fun _ => List.replicate d.clrLen.toNat 0

/-- What a stage writes once it has its output: the output, then the clear, then STAGE (R199). -/
def stageWrite (d : StageFields) (out : Lane → List Byte) (s : State) : State :=
  { stageClear d (memWrite s .rb d.outOff.toNat out) with stage := s.stage + 1 }

/-- The check every stage makes (R199, 60_exceptions.md R259): CHST = `RUN` and STAGE < 19. -/
def inStage (s : State) (f : Res) : Res :=
  if s.chst = .run ∧ s.stage.toNat < 19 then f else .ok (raise .seqError s)

/-- The output of an external stage in a lane (R200). -/
def externalOutput (d : StageFields) (s : State) (l : Lane) : List Byte :=
  primCall s.conf d.prim (8 * d.outLen.toNat) (stageInput d s l)

/-- Every lane's digest has the length the descriptor asks for (R204). -/
def outputsFit (d : StageFields) (s : State) : Bool :=
  (List.finRange 4).all fun l => (externalOutput d s l).length == d.outLen.toNat

/-- A stage of an external primitive (R199, R200): a digest of the wrong length raises `CHAIN_FATAL(STAGE)` and
changes neither RB nor STAGE (R204). -/
def externalStage (d : StageFields) (s : State) : Res :=
  inStage s (
    if stageInSpace d then
      .ok (if outputsFit d s then ran (stageWrite d (externalOutput d s) s) else raise (.chainFatal s.stage) s)
    else .error .noSuchByte)

/-- MSG with the words of every lane's input in it (R201, 20_memory.md R63). -/
def loadMessage (d : StageFields) (input : Lane → List Byte) (s : State) : State :=
  { s with
    msg := Vector.ofFn fun w =>
      if w.val < d.inLen.toNat / 16 then wide fun l => wordAt (input l) w.val else s.msg[w] }

/-- The AES stage (R199, R201): CTX.INIT, the message, FINALIZE, the digest. -/
def aesStage (d : StageFields) (s : State) : Res :=
  inStage s (
    if stageInSpace d then
      if d.inLen.toNat / 16 ≤ 12 then
        andThen
          (andThen (andThen (ctxInit (BitVec.ofNat 16 (8 * d.outLen.toNat)) s)
            fun t => .ok (ran (loadMessage d (stageInput d s) t)))
            (finalize (BitVec.ofNat 16 (8 * d.inLen.toNat))))
          fun t => .ok (ran (stageWrite d (digestBytes t d.outLen.toNat) t))
      else .error .noSuchRegister
    else .error .noSuchByte)

/-- The stage of a descriptor, by kind (R199 to R201). `LAT` and `MH` are external stages too; they "differ only in
the descriptor fields the table conditions force on them" (R200). -/
def stageOf (k : StageKind) (d : StageFields) (s : State) : Res :=
  match k with
  | .ord => externalStage d s
  | .aes => aesStage d s
  | .lat => externalStage d s
  | .mh => externalStage d s

/-- The descriptor word `STAGES[STAGE]`; none from STAGE = 19 on (10_state.md R38, R39). -/
def currentDescriptor (s : State) : Option Word64 := s.conf.stages[s.stage.toNat]?

/-- `CH.STEP` (R199): the check, then the stage of `STAGES[STAGE]`. Its fields are read as they stand; the table was
verified by the `CH.BEGIN` that set CHST (log 13). -/
def chStep (s : State) : Res :=
  inStage s (
    match currentDescriptor s with
    | some w => stageOf (descriptorKind w) (descriptorFields w) s
    | none => .ok (raise .seqError s))

/-! ## CH.END and CHAIN -/

/-- Where the last stage wrote: `STAGES[18].OUT_OFF` (R205). -/
def lastOutOff (c : Conf) : Nat := (descriptorFields c.stages[18]).outOff.toNat

/-- `CH.END` (R205). -/
def chEnd (s : State) : Res :=
  if s.chst = .run ∧ s.stage = 19 then
    if inSpace .rb (lastOutOff s.conf) 32 then
      .ok (ran { memWrite s .cd 0 (fun l => memRead s .rb l (lastOutOff s.conf) 32) with chst := .done })
    else .error .noSuchByte
  else .ok (raise .seqError s)

/-- `CHAIN`: exactly its expansion (R206, 30_encoding.md R108). -/
def chain (s : State) : Res := andThen (andThen (chBegin s) (repeated chStep 19)) chEnd

/-- Meaning of `CHAIN` (R206). -/
def execChain (s : State) : Host.Outcome State Fault Refusal := outcome (chain s)

/-- Meaning of `CH.BEGIN` (R198). -/
def execChBegin (s : State) : Host.Outcome State Fault Refusal := outcome (chBegin s)

/-- Meaning of `CH.STEP` (R199). -/
def execChStep (s : State) : Host.Outcome State Fault Refusal := outcome (chStep s)

/-- Meaning of `CH.END` (R205). -/
def execChEnd (s : State) : Host.Outcome State Fault Refusal := outcome (chEnd s)

/-- Meaning of `STG.ORD` (R200): the stage one `CH.STEP` runs for this descriptor (log 13). -/
def execStgOrd (d : StageFields) (s : State) : Host.Outcome State Fault Refusal := outcome (stageOf .ord d s)

/-- Meaning of `STG.AES` (R201). -/
def execStgAes (d : StageFields) (s : State) : Host.Outcome State Fault Refusal := outcome (stageOf .aes d s)

/-- Meaning of `STG.LAT` (R200). -/
def execStgLat (d : StageFields) (s : State) : Host.Outcome State Fault Refusal := outcome (stageOf .lat d s)

/-- Meaning of `STG.MH` (R200). -/
def execStgMh (d : StageFields) (s : State) : Host.Outcome State Fault Refusal := outcome (stageOf .mh d s)

end Sys2Proof.Machine
end

