-- ==== Sys2Proof/Machine/Flags.lean ====
section
/-! DEFINITION. The flags: the comparison that QUAL records (spec/44_comparator_scanloop.md R221 to R224), QUAL itself
(spec/10_state.md R46) and the view STATUS (R48). -/

namespace Sys2Proof.Machine

/-- `dw[0..7]` of a lane: the 32 bytes of CD as little-endian words (R221, 20_memory.md R65). -/
def digestWords (s : State) (l : Lane) : Vector Word32 8 :=
  Vector.ofFn fun i => BitVec.ofNat 32 (leNat (memRead s .cd l (4 * i.val) 4))

/-- The words of a big number, most significant (index 7) first (R65, R223). -/
def msbFirst (v : Vector Word32 8) : List Word32 := [v[7], v[6], v[5], v[4], v[3], v[2], v[1], v[0]]

/-- `TOPLESS(dw, t)` (R223). -/
def topLess (dw t : Vector Word32 8) : Bool := decide (dw[7] < t[7])

/-- Word-by-word comparison of two numbers of equal length, most significant word first (R223). -/
def fullLessList : List Word32 → List Word32 → Bool
  | d :: ds, t :: ts => if d < t then true else if d > t then false else fullLessList ds ts
  | _, _ => false

/-- `FULLLESS(dw, t)` (R223). -/
def fullLess (dw t : Vector Word32 8) : Bool := fullLessList (msbFirst dw) (msbFirst t)

/-- `ACCEPT(dw, t)` (R223): both steps, the first one strict. -/
def accept (dw t : Vector Word32 8) : Bool := if topLess dw t then fullLess dw t else false

/-- A lane's chain digest is accepted against the target. -/
def acceptLane (s : State) (l : Lane) : Bool := accept (digestWords s l) s.tgt

/-- QUAL with bit `l` replaced (R222). -/
def setQual (q : BitVec 4) (l : Lane) (b : Bool) : BitVec 4 :=
  if b then q ||| (1#4 <<< l.val) else q &&& ~~~(1#4 <<< l.val)

/-- QUAL with all four bits written (R227). -/
def packQual (f : Lane → Bool) : BitVec 4 :=
  setQual (setQual (setQual (setQual 0 0 (f 0)) 1 (f 1)) 2 (f 2)) 3 (f 3)

/-- CTXST as a number (10_state.md R33). -/
def CtxSt.code : CtxSt → BitVec 2
  | .none => 0
  | .ready => 1
  | .done => 2
  | .dead => 3

/-- CHST as a number (R38). -/
def ChSt.code : ChSt → BitVec 2
  | .idle => 0
  | .run => 1
  | .done => 2

/-- SCANST as a number (R45). -/
def ScanSt.code : ScanSt → BitVec 2
  | .idle => 0
  | .run => 1
  | .exhausted => 2
  | .cancelled => 3

/-- STATUS (R48): QUAL 16:13, STAGE 12:8, SUBQ_NE 7, HALTED 6, SCANST 5:4, CHST 3:2, CTXST 1:0. -/
def statusWord (s : State) : Word32 :=
  (0 : BitVec 15) ++ s.qual ++ s.stage ++ BitVec.ofBool (!s.subq.isEmpty) ++ BitVec.ofBool s.halted
    ++ s.scanst.code ++ s.chst.code ++ s.ctxst.code

end Sys2Proof.Machine
end

