-- ==== Sys2Proof/Machine/Scan.lean ====
section
/-! DEFINITION. The target comparator and the nonce-scan loop (spec/44_comparator_scanloop.md): CMP, SC.BEGIN, SC.ITER,
SCAN. -/

namespace Sys2Proof.Machine

/-- `CMP lane` (R222). -/
def cmp (l : Lane) (s : State) : Res :=
  .ok (if s.chst = .done then ran { s with qual := setQual s.qual l (acceptLane s l) } else raise .seqError s)

/-- The writes of `SC.BEGIN` (R226). -/
def scBegun (s : State) : State := { s with nonce := s.first, attempts := 0, scanst := .run }

/-- `SC.BEGIN` (R226). -/
def scBegin (s : State) : Res := .ok (ran (scBegun s))

/-- `SCAN_BATCH` as a number (R228). -/
def batchSize : ScanBatch → Nat
  | .one => 1
  | .four => 4

/-- Lane `l` is active in an iteration that starts with NONCE = `n` (R228; the sum is not wrapped). -/
def activeLane (s : State) (l : Lane) : Bool :=
  l == 0 || (decide (l.val < batchSize s.conf.batch) && decide (s.nonce.toNat + l.val < s.max.toNat))

/-- `cnt`, the number of active lanes (R228). -/
def activeCount (s : State) : Nat := (List.finRange 4).countP (activeLane s)

/-- The nonce lane `l` tries: `n + l` below the count, and lane 0's nonce for a lane that is not active (R227). -/
def laneNonce (n : Word32) (cnt : Nat) (l : Lane) : Word32 := if l.val < cnt then n + BitVec.ofNat 32 l.val else n

/-- The writes before the chain evaluation (R227): HDR[19] and LN. -/
def scPrepare (s : State) : State :=
  { s with
    hdr := s.hdr.set 19 s.nonce
    ln := Vector.ofFn fun l => laneNonce s.nonce (activeCount s) l }

/-- An active lane whose digest is accepted (R227). -/
def qualifies (cnt : Nat) (t : State) (l : Lane) : Bool := decide (l.val < cnt) && acceptLane t l

/-- The events of an iteration, in ascending lane order (R227, R229). -/
def scEvents (n : Word32) (cnt : Nat) (t : State) : List Submit :=
  ((List.finRange 4).filter (qualifies cnt t)).map fun l =>
    { nonce := n + BitVec.ofNat 32 l.val, digest := memRead t .cd l 0 32 }

/-- `poll CANCEL` (R231, 20_memory.md R72): the owner may have changed the flag just before; then the flag holds the
new value (log 8). -/
def pollCancel (s : State) : Bool × State :=
  match s.polls with
  | [] => (s.cancel, s)
  | b :: rest => (b, { s with cancel := b, polls := rest })

/-- SCANST after an iteration whose next nonce, not wrapped, is `n2`, and whose poll gave `c` (R227). -/
def scanStateAfter (n2 : Nat) (max : Word32) (c : Bool) : ScanSt :=
  if max.toNat ≤ n2 then .exhausted else if c then .cancelled else .run

/-- The rest of an iteration after the chain evaluation (R227): QUAL, the events, NONCE, ATTEMPTS, the poll, SCANST.
`n` and `cnt` are those of the iteration's start. -/
def scFinish (n : Word32) (cnt : Nat) (t : State) : State :=
  let c := (pollCancel t).1
  let u := (pollCancel t).2
  { u with
    qual := packQual (qualifies cnt t)
    subq := t.subq ++ scEvents n cnt t
    nonce := BitVec.ofNat 32 (n.toNat + cnt)
    attempts := BitVec.ofNat 32 (n.toNat + cnt) - t.first
    scanst := scanStateAfter (n.toNat + cnt) t.max c }

/-- `SC.ITER` (R227). -/
def scIter (s : State) : Res :=
  if s.scanst = .run then
    andThen (chain (scPrepare s)) fun t => .ok (ran (scFinish s.nonce (activeCount s) t))
  else .ok (raise .seqError s)

/-- What follows an iteration of `SCAN` (R233): while SCANST = `RUN` the command stays in hand. -/
def scanGoesOn (s : State) : State := if s.scanst = .run then { s with cmd := .scan } else s

/-- One turn of `while SCANST = RUN do SC.ITER` (R233, 30_encoding.md R108): one `SC.ITER`, which is atomic to the host
(R109); a fault raised in it ends the command. -/
def scanTurn (s : State) : Res :=
  if s.scanst = .run then andThen (scIter s) fun t => .ok (ran (scanGoesOn t)) else .ok (ran s)

/-- `SCAN` (R233, 30_encoding.md R108): `SC.BEGIN` and the first turn of the loop; each further turn is a step of its
own (log 9). -/
def scan (s : State) : Res := andThen (scBegin s) scanTurn

/-- Meaning of `CMP` (R222). -/
def execCmp (l : Lane) (s : State) : Host.Outcome State Fault Refusal := outcome (cmp l s)

/-- Meaning of `SCAN` (R233): up to the end of its first iteration. -/
def execScan (s : State) : Host.Outcome State Fault Refusal := outcome (scan s)

/-- Meaning of `SC.BEGIN` (R226). -/
def execScBegin (s : State) : Host.Outcome State Fault Refusal := outcome (scBegin s)

/-- Meaning of `SC.ITER` (R227). -/
def execScIter (s : State) : Host.Outcome State Fault Refusal := outcome (scIter s)

end Sys2Proof.Machine
end

