-- ==== Sys2Proof/Machine/Dispatch.lean ====
section
/-! DEFINITION. One arm per instruction, each a call of its meaning. -/

namespace Sys2Proof.Machine

def exec (i : Instr) (s : State) : Host.Outcome State Fault Refusal :=
  match i with
  | .nop => Sys2Proof.Machine.execNop s
  | .ctxInit imm => Sys2Proof.Machine.execCtxInit imm s
  | .ctrAdv => Sys2Proof.Machine.execCtrAdv s
  | .ldm src => Sys2Proof.Machine.execLdm src s
  | .save => Sys2Proof.Machine.execSave s
  | .subw g => Sys2Proof.Machine.execSubw g s
  | .mixb g => Sys2Proof.Machine.execMixb g s
  | .ffwd => Sys2Proof.Machine.execFfwd s
  | .compress src => Sys2Proof.Machine.execCompress src s
  | .pad imm => Sys2Proof.Machine.execPad imm s
  | .ctrFix => Sys2Proof.Machine.execCtrFix s
  | .xtract => Sys2Proof.Machine.execXtract s
  | .finalize imm => Sys2Proof.Machine.execFinalize imm s
  | .chain => Sys2Proof.Machine.execChain s
  | .chBegin => Sys2Proof.Machine.execChBegin s
  | .chStep => Sys2Proof.Machine.execChStep s
  | .chEnd => Sys2Proof.Machine.execChEnd s
  | .cmp lane => Sys2Proof.Machine.execCmp lane s
  | .scan => Sys2Proof.Machine.execScan s
  | .scBegin => Sys2Proof.Machine.execScBegin s
  | .scIter => Sys2Proof.Machine.execScIter s
  | .stgOrd d => Sys2Proof.Machine.execStgOrd d s
  | .stgAes d => Sys2Proof.Machine.execStgAes d s
  | .stgLat d => Sys2Proof.Machine.execStgLat d s
  | .stgMh d => Sys2Proof.Machine.execStgMh d s

end Sys2Proof.Machine
end

