-- ==== Sys2Proof/Machine/HostAccess.lean ====
section
/-! DEFINITION. The host's access to the named registers (spec/10_state.md R52, spec/20_memory.md R68, R69). -/

namespace Sys2Proof.Machine

/-- What the host reads, zero-extended to 128 bits; none for CMD, which is write-only (R50, R52; log 15). -/
def hostRead (s : State) : HostReg → Option Word128
  | .a r c l => some s.a[r][c][l]
  | .b r c l => some s.b[r][c][l]
  | .bk r c l => some s.bk[r][c][l]
  | .k l => some s.k[l]
  | .k1 l => some s.k1[l]
  | .cfg => some (s.cfg.setWidth 128)
  | .buf w l => some s.buf[w][l]
  | .msg w l => some s.msg[w][l]
  | .pbits => some (s.pbits.setWidth 128)
  | .rem => some s.rem
  | .dg w l => some s.dg[w][l]
  | .ctxst => some (s.ctxst.code.setWidth 128)
  | .hb l off => some ((s.byteAt .hb l off.val).setWidth 128)
  | .rb l off => some ((s.byteAt .rb l off.val).setWidth 128)
  | .cd l off => some ((s.byteAt .cd l off.val).setWidth 128)
  | .ln l => some (s.ln[l].setWidth 128)
  | .stage => some (s.stage.setWidth 128)
  | .chst => some (s.chst.code.setWidth 128)
  | .stages i => some (s.conf.stages[i].setWidth 128)
  | .hdr i => some (s.hdr[i].setWidth 128)
  | .tgt i => some (s.tgt[i].setWidth 128)
  | .first => some (s.first.setWidth 128)
  | .max => some (s.max.setWidth 128)
  | .cancel => some ((BitVec.ofBool s.cancel).setWidth 128)
  | .nonce => some (s.nonce.setWidth 128)
  | .attempts => some (s.attempts.setWidth 128)
  | .scanst => some (s.scanst.code.setWidth 128)
  | .qual => some (s.qual.setWidth 128)
  | .status => some ((statusWord s).setWidth 128)
  | .fault => some (s.fault.setWidth 128)
  | .halted => some ((BitVec.ofBool s.halted).setWidth 128)
  | .cmd => none

/-- The front event of SUBQ, which the host may read (R52). With SUBQ empty the read gives none: DESIGN CHOICE (log 17). -/
def hostFront (s : State) : Option Submit := s.subq.head?

/-- A host write (R52): MSG, LN, HDR, TGT, FIRST, MAX, CANCEL and CMD take the low bits of the value (log 15); a
write to any other register "is ignored and raises nothing". A write to CMD issues a command (R50). -/
def hostWrite (s : State) (r : HostReg) (v : Word128) : State :=
  match r with
  | .msg w l => { s with msg := s.msg.set w.val (s.msg[w].set l.val v l.isLt) w.isLt }
  | .ln l => { s with ln := s.ln.set l.val (v.setWidth 32) l.isLt }
  | .hdr i => { s with hdr := s.hdr.set i.val (v.setWidth 32) i.isLt }
  | .tgt i => { s with tgt := s.tgt.set i.val (v.setWidth 32) i.isLt }
  | .first => { s with first := v.setWidth 32 }
  | .max => { s with max := v.setWidth 32 }
  | .cancel => { s with cancel := v.getLsbD 0 }
  | .cmd => { s with cmd := .word (v.setWidth 32) }
  | _ => s

/-- The effect of an action of the host: no read has one (20_memory.md R69). -/
def hostAct (a : HostAct) (s : State) : State :=
  match a with
  | .write r v => hostWrite s r v
  | .read _ => s
  | .readFront => s
  | .take => takeEvent s
  | .wait => s
  | .reset => resetSignal s

/-- The actions the host may take between two iterations of `SCAN` (spec/30_encoding.md R109): any read, the removal of
an event, a write of CANCEL. RESET it may assert at any time (spec/70_reset_and_hazards.md R290). -/
def allowedInScan : HostAct → Bool
  | .write r _ => r == .cancel
  | .read _ => true
  | .readFront => true
  | .take => true
  | .wait => false
  | .reset => false

end Sys2Proof.Machine
end

