-- ==== Sys2Proof/Machine/Issue.lean ====
section
/-! DEFINITION. The issue of a command word (spec/30_encoding.md R91), the turns of a running `SCAN` and of the host
(R109, spec/10_state.md R52), and how a word or a descriptor is put where the next step takes it from. -/

namespace Sys2Proof.Machine

/-- Issue of the word taken from CMD (R91): dropped while halted (60_exceptions.md R254); a word that decodes to no
command raises `ILLEGAL_CMD` (R258); otherwise the command runs. -/
def issue (cw : Word32) (s : State) : Host.Outcome State Fault Refusal :=
  if s.halted then outcome (.ok (ran s))
  else
    match decodeCommand cw with
    | .ok i => exec i s
    | .error _ => outcome (.ok (raise (.illegalCmd cw) s))

/-- The state with no command in hand: CMD "holds no state between commands" (10_state.md R50). -/
def emptyCmd (s : State) : State := { s with cmd := .idle }

/-- The state with the first action of the host removed. -/
def withInbox (s : State) (rest : List HostAct) : State := { s with inbox := rest }

/-- The next iteration of the `SCAN` in hand (44_comparator_scanloop.md R233). -/
def nextIteration (s : State) : Host.Outcome State Fault Refusal := outcome (scanTurn (emptyCmd s))

/-- A step between two iterations of `SCAN` (R109; log 9): the host's next action, where it is one allowed there;
otherwise the next iteration, for which a `wait` of the host is used up and any other action waits (10_state.md
R52). -/
def scanStep (s : State) : Host.Outcome State Fault Refusal :=
  match s.inbox with
  | [] => nextIteration s
  | .wait :: rest => nextIteration (withInbox s rest)
  | a :: rest => if allowedInScan a then .next (hostAct a (withInbox s rest)) else nextIteration s

/-- A step with no command in hand (20_memory.md R71): the host's next action; with none the CORE does nothing
(70_reset_and_hazards.md R291). -/
def idleStep (s : State) : Host.Outcome State Fault Refusal :=
  match s.inbox with
  | [] => .next s
  | a :: rest => .next (hostAct a (withInbox s rest))

/-- A step with no RESET asserted, by the command in hand (00_scope.md R8; log 1, 2). -/
def workStep (s : State) : Host.Outcome State Fault Refusal :=
  match s.cmd with
  | .word cw => issue cw (emptyCmd s)
  | .scan => scanStep s
  | .idle => idleStep s

/-- One step: RESET at the front of the host's actions comes first, and abandons the command in hand
(70_reset_and_hazards.md R290; log 3). -/
def advance (s : State) : Host.Outcome State Fault Refusal :=
  match s.inbox with
  | .reset :: rest => .next (hostAct .reset (withInbox s rest))
  | _ => workStep s

/-- The host's actions from the first that is not RESET on. -/
def pastResets : List HostAct → List HostAct
  | .reset :: rest => pastResets rest
  | as => as

/-- A command word written to CMD of a CORE that is not halted and not in reset. -/
def placeCommand (cw : Word32) (s : State) : State :=
  { s with cmd := .word cw, halted := false, inbox := pastResets s.inbox }

/-- The index of the stage table the next `CH.STEP` reads; 0 when STAGE is none of its indices. -/
def placeIndex (s : State) : Fin 19 := if h : s.stage.toNat < 19 then ⟨s.stage.toNat, h⟩ else 0

/-- A stage descriptor put where the next stage is read: at `STAGES[STAGE]` of a chain evaluation under way, with
`CH.STEP` in CMD (log 1, 13). -/
def placeDescriptor (w : Word64) (s : State) : State :=
  { placeCommand (commandWord 0x32 0) s with
    conf := { s.conf with stages := s.conf.stages.set (placeIndex s).val w (placeIndex s).isLt }
    stage := BitVec.ofNat 5 (placeIndex s).val
    chst := .run }

end Sys2Proof.Machine
end

