-- ==== Sys2Proof/Machine/Step.lean ====
section
/-! DEFINITION. One step of the CORE and the host. -/

namespace Sys2Proof.Machine

/-- One step: RESET, the command in hand, or an action of the host (`advance`). -/
def step (s : State) : Host.Outcome State Fault Refusal := advance s

/-- The state with an instruction of `nbits` bits where the next step takes it from: a command word in CMD, a stage
descriptor at `STAGES[STAGE]` (log 1). -/
def State.withFetchWord (s : State) (nbits w : Nat) : State :=
  match nbits with
  | 64 => placeDescriptor (BitVec.ofNat 64 w) s
  | _ => placeCommand (BitVec.ofNat 32 w) s

end Sys2Proof.Machine
end

