-- ==== Sys2Proof/Machine/Assembler.lean ====
section
/-! DEFINITION. The assembler text of an instruction and the names of the registers (spec/30_encoding.md R110 to R112). -/

namespace Sys2Proof.Machine

/-- Operand `g`: `A` or `B` (R110). -/
def gridText : GridSel → String
  | .a => "A"
  | .b => "B"

/-- Operand `s`: `MSG` or `BUF` (R110). -/
def blockText : BlockSrc → String
  | .msg => "MSG"
  | .buf => "BUF"

/-- `src=` of a descriptor (R112). -/
def srcText : StageSrc → String
  | .rb => "RB"
  | .hb => "HB"

/-- `<off>+<len>` of a descriptor (R112). -/
def rangeText (off len : Byte) : String := toString off.toNat ++ "+" ++ toString len.toNat

/-- The fields of a descriptor (R112). -/
def fieldsText (d : StageFields) : String :=
  " prim=" ++ toString d.prim.toNat ++ " src=" ++ srcText d.src ++ " in=" ++ rangeText d.inOff d.inLen
    ++ " out=" ++ rangeText d.outOff d.outLen ++ " clr=" ++ rangeText d.clrOff d.clrLen

/-- The text of an instruction (R110, R112); immediates in decimal. -/
def asmText : Instr → String
  | .nop => "NOP"
  | .ctxInit imm => "CTX.INIT " ++ toString imm.toNat
  | .ctrAdv => "CTR.ADV"
  | .ldm src => "LDM " ++ blockText src
  | .save => "SAVE"
  | .subw g => "SUBW " ++ gridText g
  | .mixb g => "MIXB " ++ gridText g
  | .ffwd => "FFWD"
  | .compress src => "COMPRESS " ++ blockText src
  | .pad imm => "PAD " ++ toString imm.toNat
  | .ctrFix => "CTR.FIX"
  | .xtract => "XTRACT"
  | .finalize imm => "FINALIZE " ++ toString imm.toNat
  | .chain => "CHAIN"
  | .chBegin => "CH.BEGIN"
  | .chStep => "CH.STEP"
  | .chEnd => "CH.END"
  | .cmp lane => "CMP " ++ toString lane.val
  | .scan => "SCAN"
  | .scBegin => "SC.BEGIN"
  | .scIter => "SC.ITER"
  | .stgOrd d => "STG.ORD" ++ fieldsText d
  | .stgAes d => "STG.AES" ++ fieldsText d
  | .stgLat d => "STG.LAT" ++ fieldsText d
  | .stgMh d => "STG.MH" ++ fieldsText d

/-- A grid register's name with its lane, for example `a20.3` (R111). -/
def cellText (g : String) (r c : Fin 4) (l : Lane) : String :=
  g ++ toString r.val ++ toString c.val ++ "." ++ toString l.val

/-- The name of a register (R111); a byte of a byte space is written as in 10_state.md R34 to R36. -/
def regText : HostReg → String
  | .a r c l => cellText "a" r c l
  | .b r c l => cellText "b" r c l
  | .bk r c l => cellText "bk" r c l
  | .k l => "K." ++ toString l.val
  | .k1 l => "K1." ++ toString l.val
  | .cfg => "CFG"
  | .buf w l => "buf" ++ toString w.val ++ "." ++ toString l.val
  | .msg w l => "msg" ++ toString w.val ++ "." ++ toString l.val
  | .pbits => "PBITS"
  | .rem => "REM"
  | .dg w l => "dg" ++ toString w.val ++ "." ++ toString l.val
  | .ctxst => "CTXST"
  | .hb l off => "HB[" ++ toString l.val ++ "][" ++ toString off.val ++ "]"
  | .rb l off => "RB[" ++ toString l.val ++ "][" ++ toString off.val ++ "]"
  | .cd l off => "CD[" ++ toString l.val ++ "][" ++ toString off.val ++ "]"
  | .ln l => "LN" ++ toString l.val
  | .stage => "STAGE"
  | .chst => "CHST"
  | .stages i => "STAGES[" ++ toString i.val ++ "]"
  | .hdr i => "HDR" ++ toString i.val
  | .tgt i => "TGT" ++ toString i.val
  | .first => "FIRST"
  | .max => "MAX"
  | .cancel => "CANCEL"
  | .nonce => "NONCE"
  | .attempts => "ATTEMPTS"
  | .scanst => "SCANST"
  | .qual => "QUAL"
  | .status => "STATUS"
  | .fault => "FAULT"
  | .halted => "HALTED"
  | .cmd => "CMD"

end Sys2Proof.Machine
end

