-- ==== Sys2Proof/Machine/Reference.lean ====
section
/-! DEFINITION. The spec's functions of data alone, written without a machine state: one lane of a compression
(spec/41_compression_engine.md R141 to R149), `AESHASH` (spec/42_finalizer.md R179), `CHAINHASH`
(spec/43_chain_orchestrator.md R207) and the events of a scan (spec/44_comparator_scanloop.md R235). No command calls
them; the statements compare the commands with them. -/

namespace Sys2Proof.Machine

/-- One lane of a grid: `x[r][c]` is the word at row `r`, column `c`. -/
abbrev LaneGrid := Vector (Vector Word128 4) 4

/-- A lane grid given word by word. -/
def laneGrid (f : Fin 4 → Fin 4 → Word128) : LaneGrid := Vector.ofFn fun r => Vector.ofFn fun c => f r c

/-- Lane `l` of a grid of wide registers. -/
def laneOf (g : Grid) (l : Lane) : LaneGrid := laneGrid fun r c => g[r][c][l]

/-- Lane `l` of the words of MSG or BUF. -/
def laneBlock (b : Vector Wide 12) (l : Lane) (w : Nat) : Word128 := if hw : w < 12 then b[w][l] else 0

/-- The initial grid of a context in one lane (R142). -/
def laneInit (h : Hs) : LaneGrid := laneGrid fun _ c => if c.val < h.cc then BitVec.ofNat 128 h.bits else 0

/-- The message columns overwritten by a block (R144). -/
def laneLoad (h : Hs) (a : LaneGrid) (block : Nat → Word128) : LaneGrid :=
  laneGrid fun r c => if h.cc ≤ c.val then block (4 * (c.val - h.cc) + r.val) else a[r][c]

/-- SubBytes in one lane with the running key `key` on entry (R146). -/
def laneSub (x : LaneGrid) (key : Word128) : LaneGrid :=
  laneGrid fun r c => sub2 x[r][c] (key + BitVec.ofNat 128 (4 * c.val + r.val))

/-- MixBytes in one lane (R147). -/
def laneMix (x : LaneGrid) : LaneGrid := laneGrid fun i j =>
  scaleWord (mixCoeff i 0) x[(0 : Fin 4)][j] ^^^ scaleWord (mixCoeff i 1) x[(1 : Fin 4)][j + 1]
    ^^^ scaleWord (mixCoeff i 2) x[(2 : Fin 4)][j + 2] ^^^ scaleWord (mixCoeff i 3) x[(3 : Fin 4)][j + 3]

/-- `n` round-pairs in one lane (R149): each takes 32 keys. -/
def laneRounds : Nat → LaneGrid → Word128 → LaneGrid
  | 0, x, _ => x
  | n + 1, x, key => laneRounds n (laneMix (laneSub (laneMix (laneSub x key)) (key + 16))) (key + 32)

/-- Feed-forward in one lane (R148). -/
def laneFeed (h : Hs) (a bk : LaneGrid) : LaneGrid :=
  match h with
  | .h256 => laneGrid fun r c =>
      if c = 0 then
        a[r][0] ^^^ a[r][1] ^^^ a[r][2] ^^^ a[r][3] ^^^ bk[r][0] ^^^ bk[r][1] ^^^ bk[r][2] ^^^ bk[r][3]
      else a[r][c]
  | .h512 => laneGrid fun r c =>
      if c = 0 then a[r][0] ^^^ a[r][2] ^^^ bk[r][0] ^^^ bk[r][2]
      else if c = 1 then a[r][1] ^^^ a[r][3] ^^^ bk[r][1] ^^^ bk[r][3]
      else a[r][c]

/-- One lane of `COMPRESS` (R149): grid A after it, from K and grid A before it and the block. -/
def laneCompress (h : Hs) (k : Word128) (a : LaneGrid) (block : Nat → Word128) : LaneGrid :=
  laneFeed h
    (laneRounds (h.rounds / 2) (laneLoad h a block) (k + BitVec.ofNat 128 h.blockInc))
    (laneLoad h a block)

/-- Word `w` of the terminal block in one lane, for a fresh context (R172). -/
def laneTerminal (m : LenHiMode) (h : Hs) (n : BitVec 16) (msg : Nat → Word128) (w : Nat) : Word128 :=
  if w < messageWords h n then msg w
  else if w = messageWords h n then markerWord
  else if w < h.blkw - 2 then 0
  else if w = h.blkw - 2 then widthWord h
  else lengthWord m (padPbits n 0)

/-- The last step of a hash: the terminal compression from counter `k` and grid `a`, and the digest (R174 to R177). -/
def laneFinish (m : LenHiMode) (h : Hs) (n : BitVec 16) (msg : Nat → Word128) (k : Word128) (a : LaneGrid) :
    List Byte :=
  let out := laneCompress h (k + padRem h n - BitVec.ofNat 128 h.blockInc) a (laneTerminal m h n msg)
  (bytesOf out[0][0] ++ bytesOf out[1][0] ++ bytesOf out[2][0] ++ bytesOf out[3][0]).take (h.bits / 8)

/-- `AESHASH(HS, data)` (R179). -/
def aesHash (m : LenHiMode) (h : Hs) (data : List Byte) : List Byte :=
  let n := BitVec.ofNat 16 (8 * data.length)
  if isFullBlock h n then
    laneFinish m h n (wordAt data) (BitVec.ofNat 128 h.blockInc) (laneCompress h 0 (laneInit h) (wordAt data))
  else laneFinish m h n (wordAt data) 0 (laneInit h)

/-- The output of stage `i` on an input (R200, R201). -/
def stageHash (c : Conf) (i : Fin 19) (input : List Byte) : List Byte :=
  let d := fieldsAt c.stages i
  match kindAt c.stages i with
  | .aes => aesHash c.lenHi ((hsOfLength d.outLen.toNat).getD .h512) input
  | _ => primCall c d.prim (8 * d.outLen.toNat) input

/-- One stage of `CHAINHASH` on the combined buffer of a lane (R207). -/
def chainStage (c : Conf) (hdr : List Byte) (rb : Memory) (i : Fin 19) : Memory :=
  let d := fieldsAt c.stages i
  let input := if i = 0 then hdr else Memory.load rb 0 d.inLen.toNat
  Memory.store (Memory.store rb d.outOff.toNat (stageHash c i input)) d.clrOff.toNat (List.replicate d.clrLen.toNat 0)

/-- `CHAINHASH(h)` (R207). -/
def chainHash (c : Conf) (hdr : List Byte) : List Byte :=
  Memory.load ((List.finRange 19).foldl (chainStage c hdr) []) (lastOutOff c) 32

/-- The 80 header bytes `hdr(x)` of the work header with word 19 = `x` (R235, 20_memory.md R64). -/
def headerWith (hdr : Vector Word32 20) (x : Word32) : List Byte :=
  (hdr.toList.take 19).flatMap (fun w => beBytes 4 w.toNat) ++ beBytes 4 x.toNat

/-- The eight words of 32 digest bytes (R221). -/
def wordsOfDigest (bs : List Byte) : Vector Word32 8 :=
  Vector.ofFn fun i => BitVec.ofNat 32 (leNat ((bs.drop (4 * i.val)).take 4))

/-- The event of nonce `x`, if its digest is accepted (R235). -/
def scanEvent (c : Conf) (hdr : Vector Word32 20) (tgt : Vector Word32 8) (x : Word32) : Option Submit :=
  let dig := chainHash c (headerWith hdr x)
  if accept (wordsOfDigest dig) tgt then some { nonce := x, digest := dig } else none

/-- The events of the `a` nonces from `first` on, in ascending order (R235). -/
def scanEvents (c : Conf) (hdr : Vector Word32 20) (tgt : Vector Word32 8) (first : Word32) (a : Nat) :
    List Submit :=
  (List.range a).filterMap fun j => scanEvent c hdr tgt (first + BitVec.ofNat 32 j)

/-- The value of eight words, index 7 most significant: `DVAL` and `TVAL` (R221). -/
def bigValue (v : Vector Word32 8) : Nat :=
  v[0].toNat + 2 ^ 32 * (v[1].toNat + 2 ^ 32 * (v[2].toNat + 2 ^ 32 * (v[3].toNat + 2 ^ 32 * (v[4].toNat
    + 2 ^ 32 * (v[5].toNat + 2 ^ 32 * (v[6].toNat + 2 ^ 32 * v[7].toNat))))))

end Sys2Proof.Machine
end

