-- ==== Sys2Proof/Safety.lean ====
section
/-! DEFINITION. What counts as a safe run, and the terms the statements speak in: the invariant every step keeps, a
context in use, primitives that behave, agreement of two states in one lane, and the issue of a list of words. -/

namespace Sys2Proof.Machine

/-- A `READY` context of width `h` (spec/10_state.md R27, R33). -/
def Ready (h : Hs) (s : State) : Prop := s.ctxst = .ready ∧ s.cfg = h.cfgWord

/-- CFG agrees with the life of the context: a legal configuration while there is one, 0 otherwise (R27, R33, R53,
spec/60_exceptions.md R255). -/
def cfgMatches (ctxst : CtxSt) (cfg : Word32) : Prop :=
  match ctxst with
  | .none => cfg = 0
  | .dead => cfg = 0
  | .ready => ∃ h : Hs, cfg = h.cfgWord
  | .done => ∃ h : Hs, cfg = h.cfgWord

/-- Every byte space is in canonical form and holds no byte beyond its end (20_memory.md R60). -/
def MemOk (s : State) : Prop :=
  ∀ (sp : Space) (l : Lane), Memory.wf (s.space sp)[l] = true ∧ Memory.below sp.size (s.space sp)[l] = true

/-- What holds of every state a run from reset reaches. -/
structure Inv (s : State) : Prop where
  /-- CFG is a legal configuration exactly while a context was constructed (R27). -/
  cfg : cfgMatches s.ctxst s.cfg
  /-- Every byte space is in canonical form and holds no byte beyond its end (20_memory.md R60). -/
  mem : MemOk s
  /-- STAGE lies in 0..19 (R38). -/
  stage : s.stage.toNat ≤ 19
  /-- A finished chain evaluation ran all 19 stages (R38, R241). -/
  stageDone : s.chst = .done → s.stage = 19
  /-- A chain evaluation runs on a verified table only (43_chain_orchestrator.md R197). -/
  table : s.chst ≠ .idle → wfTable s.conf.stages = true
  /-- Every lane of K holds the same value once a context was constructed (R25); before, R53 gives K no value. -/
  counter : s.ctxst = .ready ∨ s.ctxst = .done → ∀ l : Lane, s.k[l] = s.k[(0 : Lane)]
  /-- FAULT bits 0 and 31:7 read as zero (R49). -/
  faultBits : ∀ i : Nat, s.fault.getLsbD i = true → 1 ≤ i ∧ i ≤ 6
  /-- HALTED is set exactly when a halting fault was raised (R49, R254). -/
  haltedBit : s.halted = (s.fault.getLsbD 4 || s.fault.getLsbD 5)
  /-- Every event carries 32 digest bytes (R47). -/
  events : ∀ e ∈ s.subq, e.digest.length = 32
  /-- A `SCAN` in hand is running, on a CORE that is not halted, with nonces left (44_comparator_scanloop.md R227,
  R233). -/
  scanning : s.cmd = .scan → s.scanst = .run ∧ s.halted = false ∧ s.nonce < s.max

/-- The values reset leaves in the registers that have one (spec/10_state.md R53, spec/70_reset_and_hazards.md R290),
and that no command is in hand. -/
structure ResetValues (s : State) : Prop where
  ctxst : s.ctxst = .none
  cfg : s.cfg = 0
  pbits : s.pbits = 0
  rem : s.rem = 0
  stage : s.stage = 0
  chst : s.chst = .idle
  nonce : s.nonce = 0
  attempts : s.attempts = 0
  scanst : s.scanst = .idle
  qual : s.qual = 0
  subq : s.subq = []
  fault : s.fault = 0
  halted : s.halted = false
  cmd : s.cmd = .idle

/-- No listed primitive misbehaves: every listed answer has the length asked for (43_chain_orchestrator.md R204). The
answers no list gives have that length by the type of `Config.prim` (log 7). -/
def primsOk (c : Conf) : Bool := c.primAnswers.all fun x => x.digest.length == x.outBits / 8

/-- Two states agree in lane `l` of every wide register and in every scalar register of the context, and have the same
configuration (41_compression_engine.md R141). -/
structure LaneAgree (l : Lane) (s t : State) : Prop where
  a : ∀ r c : Fin 4, s.a[r][c][l] = t.a[r][c][l]
  b : ∀ r c : Fin 4, s.b[r][c][l] = t.b[r][c][l]
  bk : ∀ r c : Fin 4, s.bk[r][c][l] = t.bk[r][c][l]
  k : s.k[l] = t.k[l]
  k1 : s.k1[l] = t.k1[l]
  buf : ∀ w : Fin 12, s.buf[w][l] = t.buf[w][l]
  msg : ∀ w : Fin 12, s.msg[w][l] = t.msg[w][l]
  dg : ∀ w : Fin 4, s.dg[w][l] = t.dg[w][l]
  cfg : s.cfg = t.cfg
  pbits : s.pbits = t.pbits
  rem : s.rem = t.rem
  ctxst : s.ctxst = t.ctxst
  conf : s.conf = t.conf

/-- The commands of the compression engine and the finalizer (41_compression_engine.md R141, R152). -/
def ofContext : Instr → Bool
  | .ctxInit _ => true
  | .ctrAdv => true
  | .ldm _ => true
  | .save => true
  | .subw _ => true
  | .mixb _ => true
  | .ffwd => true
  | .compress _ => true
  | .pad _ => true
  | .ctrFix => true
  | .xtract => true
  | .finalize _ => true
  | _ => false

/-- A context command other than `CTX.INIT`: it needs a `READY` context (R152). -/
def needsReady : Instr → Bool
  | .ctxInit _ => false
  | i => ofContext i

/-- `s` with FAULT bit `n` set: what a fault of code `n` that does not halt leaves (spec/60_exceptions.md R253). -/
def faulted (n : Nat) (s : State) : State := { s with fault := s.fault ||| (1#32 <<< n) }

/-- `s` with FAULT bit `n` and HALTED set: what a halting fault of code `n` leaves (R253, R254). -/
def faultedHalt (n : Nat) (s : State) : State := { s with fault := s.fault ||| (1#32 <<< n), halted := true }

/-- The command word `w` and the instruction `i` stand for each other (30_encoding.md R107). -/
def Encodes (i : Instr) (w : Word32) : Prop := encode i = .command w ∧ decodeCommand w = .ok i

/-- A chain evaluation with a stage left to run (43_chain_orchestrator.md R199). -/
def InChain (s : State) : Prop := s.chst = .run ∧ s.stage.toNat < 19

/-- The value the next poll of CANCEL gives (spec/20_memory.md R72; log 8). -/
def polled (s : State) : Bool := s.polls.headD s.cancel

/-- RB after a stage: the output at `OUT_OFF`, then the clear, every other byte as before (R199). -/
def StageBytes (d : StageFields) (out : Lane → List Byte) (s t : State) : Prop :=
  ∀ (l : Lane) (x : Nat), t.byteAt .rb l x =
    if d.clrOff.toNat ≤ x ∧ x < d.clrOff.toNat + d.clrLen.toNat then 0
    else if d.outOff.toNat ≤ x ∧ x < d.outOff.toNat + d.outLen.toNat then (out l).getD (x - d.outOff.toNat) 0
    else s.byteAt .rb l x

/-- The four assignments of `MIXB` from grid `x` into grid `y`, in every column and lane (41_compression_engine.md R147). -/
def MixedFrom (x y : Grid) : Prop :=
  ∀ (j : Fin 4) (l : Lane) (s0 s1 s2 s3 : Word128),
    s0 = x[(0 : Fin 4)][j][l] → s1 = x[(1 : Fin 4)][j + 1][l] →
    s2 = x[(2 : Fin 4)][j + 2][l] → s3 = x[(3 : Fin 4)][j + 3][l] →
    y[(0 : Fin 4)][j][l] = dbl128 s0 ^^^ (dbl128 s1 ^^^ s1) ^^^ s2 ^^^ s3
      ∧ y[(1 : Fin 4)][j][l] = s0 ^^^ dbl128 s1 ^^^ (dbl128 s2 ^^^ s2) ^^^ s3
      ∧ y[(2 : Fin 4)][j][l] = s0 ^^^ s1 ^^^ dbl128 s2 ^^^ (dbl128 s3 ^^^ s3)
      ∧ y[(3 : Fin 4)][j][l] = (dbl128 s0 ^^^ s0) ^^^ s1 ^^^ s2 ^^^ dbl128 s3

/-- The host issues command words one after another; a stop of the model ends the sequence. -/
def issueAll : List Word32 → State → Host.Outcome State Fault Refusal
  | [], s => .next s
  | w :: ws, s =>
    match issue w s with
    | .next t => issueAll ws t
    | .fault e => .fault e
    | .refused e => .refused e

/-- `k` steps of the machine; a stop of the model ends them. -/
def runSteps : Nat → State → Host.Outcome State Fault Refusal
  | 0, s => .next s
  | k + 1, s =>
    match step s with
    | .next t => runSteps k t
    | .fault e => .fault e
    | .refused e => .refused e

/-- `SC.BEGIN` and `n` times `SC.ITER` as words: what `SCAN` expands to where it makes `n` iterations
(30_encoding.md R108). -/
def scanWords (n : Nat) : List Word32 := 0x42000000 :: List.replicate n 0x43000000

/-- The nonces a scan can try (44_comparator_scanloop.md R234): `max(1, MAX − FIRST)`. -/
def scanBound (s : State) : Nat := Nat.max 1 (s.max.toNat - s.first.toNat)

/-- `HDR` and `LN` as an iteration writes them before the chain evaluation (44_comparator_scanloop.md R227). -/
def nonceWritten (s : State) : State :=
  { s with
    hdr := s.hdr.set 19 s.nonce
    ln := Vector.ofFn fun l : Lane =>
      if l.val < activeCount s then s.nonce + BitVec.ofNat 32 l.val else s.nonce }

/-- The product in GF(2^8) by doubling and adding (40_aes_primitives.md R121, R122): bit `i` of `b` adds `a` doubled
`i` times. -/
def gfMul (a b : Byte) : Byte :=
  (List.range 8).foldl (fun acc i => acc ^^^ (if b.getLsbD i then xtime^[i] a else 0)) 0

/-- The command words of a round-pair (30_encoding.md R108). -/
def roundPairWords : List Word32 := [0x13000000, 0x14000000, 0x13000001, 0x14000001]

/-- The expansion of `COMPRESS s` as words, `block` being the word of `LDM s` (30_encoding.md R108). -/
def compressWords (h : Hs) (block : Word32) : List Word32 :=
  [0x10000000, block, 0x12000000] ++ (List.replicate (h.rounds / 2) roundPairWords).flatten ++ [0x15000000]

/-- The expansion of `CHAIN` as words (30_encoding.md R108). -/
def chainWords : List Word32 := [0x31000000] ++ List.replicate 19 0x32000000 ++ [0x33000000]

end Sys2Proof.Machine
end

