-- ==== Sys2Proof/Certificates/Slice0/Obligations.lean ====
section
/-! DEFINITION. The statements for the provers. Each docstring names the rules it rests on. A statement that an
instruction completes gives its next state whole: `t = { s with f := t.f, … }` lists every field that may differ. -/

open Sys2Proof Sys2Proof.Machine

/-! ## Encoding -/

/-- R107, R110, R112: words written out in the spec decode to the instructions they stand for. -/
def Obligations.DecodeSampleWords : Prop :=
  decodeCommand 0x01000200 = .ok (.ctxInit 512)
    ∧ decodeCommand 0x11000000 = .ok (.ldm .msg)
    ∧ decodeCommand 0x11000001 = .ok (.ldm .buf)
    ∧ decodeCommand 0x13000000 = .ok (.subw .a)
    ∧ decodeCommand 0x14000001 = .ok (.mixb .b)
    ∧ decodeCommand 0x28000280 = .ok (.finalize 640)
    ∧ decodeCommand 0x40000003 = .ok (.cmp 3)
    ∧ decodeCommand 0x00000000 = .ok .nop
    ∧ decodeDescriptor 0x0000004040400050 = .ok (.stgLat
        { prim := 16, src := .rb, inOff := 0, inLen := 64, outOff := 64, outLen := 64, clrOff := 0, clrLen := 0 })

/-- R107: decode after encode is the identity, on every command and every stage descriptor, with every operand. -/
def Obligations.DecodeOfEncode : Prop := ∀ i : Instr, decode (encode i) = .ok i

/-- R107: encode after decode is the identity on legal words, of 32 and of 64 bits. -/
def Obligations.EncodeOfDecode : Prop := ∀ (e : Encoded) (i : Instr), decode e = .ok i → encode i = e

/-- R99, R104: a word decodes to an instruction of a row exactly when the row's match and mask cover it, and no word
lies in two rows. -/
def Obligations.RowsCoverExactlyWhatDecodes : Prop :=
  (∀ (e : Encoded) (j : Instr), j.row.covers e = true ↔ ∃ i : Instr, decode e = .ok i ∧ i.row = j.row)
    ∧ ∀ (e : Encoded) (i j : Instr), i.row.covers e = true → j.row.covers e = true → i.row = j.row

/-! ## The step, the host, reset and faults -/

/-- R91, R199: a step runs the decoded instruction. Unless RESET is asserted (log 3), a command word in CMD of a CORE that
is not halted is taken from CMD and run; where it is `CH.STEP` and a chain evaluation is under way, that is the stage
of the descriptor `STAGES[STAGE]` (log 1, 13). -/
def Obligations.StepRunsDecodedInstruction : Prop :=
  (∀ (s : State) (w : Word32) (i : Instr),
      s.inbox.head? ≠ some .reset → s.cmd = .word w → s.halted = false → decodeCommand w = .ok i →
        step s = exec i { s with cmd := .idle })
    ∧ ∀ (s : State) (i : Instr) (hst : s.stage.toNat < 19),
      s.inbox.head? ≠ some .reset → s.cmd = .word 0x32000000 → s.halted = false → s.chst = .run →
        decodeDescriptor s.conf.stages[s.stage.toNat] = .ok i → step s = exec i { s with cmd := .idle }

/-- R52, R69, R71, R109, R291: with no command in hand the host's next action takes effect, and with none nothing changes;
between two iterations of a running `SCAN` the host's next action takes effect where it is a read, the removal of an
event, or a write of CANCEL, and otherwise the next iteration runs, with the action still to come (a `wait` is used up).
An action writes a register, or removes the front event of SUBQ and changes nothing else, or is a read and changes
nothing; the front event is what the host reads of SUBQ. That the host's actions are a list the step takes from, and
that an action not allowed during `SCAN` waits for its end, is the model's choice (log 2, 9); so is what a read or a removal
does with SUBQ empty (log 17). -/
def Obligations.HostActsBetweenCommands : Prop :=
  (∀ s : State, s.cmd = .idle → s.inbox = [] → step s = .next s)
    ∧ (∀ (s : State) (a : HostAct) (rest : List HostAct),
      s.cmd = .idle → s.inbox = a :: rest → step s = .next (hostAct a { s with inbox := rest }))
    ∧ (∀ (s : State) (a : HostAct) (rest : List HostAct),
      (∃ r, a = .read r) ∨ a = .readFront ∨ a = .take ∨ (∃ v, a = .write .cancel v) →
        s.cmd = .scan → s.inbox = a :: rest → step s = .next (hostAct a { s with inbox := rest }))
    ∧ (∀ s : State, s.inbox = [] ∨ (∃ r v rest, r ≠ .cancel ∧ s.inbox = .write r v :: rest) →
        s.cmd = .scan → step s = nextIteration s)
    ∧ (∀ (s : State) (rest : List HostAct), s.cmd = .scan → s.inbox = .wait :: rest →
        step s = nextIteration { s with inbox := rest })
    ∧ ∀ s : State,
        hostAct .take s = { s with subq := s.subq.tail }
          ∧ (∀ (e : Submit) (rest : List Submit), s.subq = e :: rest → hostFront s = some e)
          ∧ (s.subq = [] → hostFront s = none ∧ hostAct .take s = s)
          ∧ (∀ (r : HostReg) (v : Word128), hostAct (.write r v) s = hostWrite s r v)
          ∧ (∀ r : HostReg, hostAct (.read r) s = s) ∧ hostAct .readFront s = s ∧ hostAct .wait s = s

/-- R254, R91: a halted CORE drops every word: nothing but CMD, which holds nothing between commands, changes. (RESET, where
it is asserted, comes first: log 3.) -/
def Obligations.HaltedCoreDropsEveryWord : Prop :=
  ∀ (s : State) (w : Word32), s.inbox.head? ≠ some .reset → s.halted = true → s.cmd = .word w →
    step s = .next { s with cmd := .idle }

/-- R258, R100: a word that lies in no row of the opcode table raises `ILLEGAL_CMD` (code 5) and halts, and no other
register changes. -/
def Obligations.IllegalWordHalts : Prop :=
  ∀ (s : State) (w : Word32), s.inbox.head? ≠ some .reset → s.halted = false → s.cmd = .word w →
    (∀ i : Instr, i.row.covers (.command w) = false) →
    step s = .next { s with cmd := .idle, fault := s.fault ||| 0x20, halted := true }

/-- R53, R290: what reset leaves, right after power-on and when RESET is asserted; RESET comes before anything else and
abandons the command in hand, be it a word in CMD or a running `SCAN`. That RESET is one of the actions in the host's
list, and takes effect when it is at the front, is the model's choice (log 2, 3). -/
def Obligations.ResetLeavesTheStatedValues : Prop :=
  (∀ t : State, (t = State.reset ∨ ∃ s : State, t = resetSignal s) → ResetValues t)
    ∧ (∀ s : State, (resetSignal s).cancel = s.cancel ∧ (resetSignal s).conf = s.conf)
    ∧ ∀ (s : State) (rest : List HostAct), s.inbox = .reset :: rest →
        step s = .next (resetSignal { s with inbox := rest })

/-- R251, R253, R254: each fault sets the FAULT bit of its code, HALTED is set by `CHAIN_FATAL` and `ILLEGAL_CMD`
only, and nothing else is recorded. -/
def Obligations.EachFaultSetsItsBit : Prop :=
  ∀ s : State,
    (∀ imm : BitVec 16, recordFault (.cfgError imm) s = { s with fault := s.fault ||| 0x02 })
      ∧ recordFault .ctxState s = { s with fault := s.fault ||| 0x04 }
      ∧ (∀ n : BitVec 16, recordFault (.badLength n) s = { s with fault := s.fault ||| 0x08 })
      ∧ (∀ g : BitVec 5, recordFault (.chainFatal g) s = { s with fault := s.fault ||| 0x10, halted := true })
      ∧ (∀ cw : Word32, recordFault (.illegalCmd cw) s = { s with fault := s.fault ||| 0x20, halted := true })
      ∧ recordFault .seqError s = { s with fault := s.fault ||| 0x40 }

/-- R49, R253: only reset clears a FAULT bit or HALTED. -/
def Obligations.OnlyResetClearsFaultAndHalted : Prop :=
  ∀ s t : State, step s = .next t → s.inbox.head? ≠ some .reset →
    (∀ n : Nat, s.fault.getLsbD n = true → t.fault.getLsbD n = true) ∧ (s.halted = true → t.halted = true)

/-- R33, R38, R45, R48: the fields of STATUS, which the host cannot write, with the numbers of CTXST, CHST and SCANST. That a read of its 32 bits is zero-extended to the 128 bits of
a host access is the model's choice (log 15). -/
def Obligations.StatusIsAViewOfItsFields : Prop :=
  ∀ s : State,
    hostRead s .status = some ((statusWord s).setWidth 128)
      ∧ (statusWord s).extractLsb' 0 2 =
          (match s.ctxst with
            | .none => 0
            | .ready => 1
            | .done => 2
            | .dead => 3)
      ∧ (statusWord s).extractLsb' 2 2 =
          (match s.chst with
            | .idle => 0
            | .run => 1
            | .done => 2)
      ∧ (statusWord s).extractLsb' 4 2 =
          (match s.scanst with
            | .idle => 0
            | .run => 1
            | .exhausted => 2
            | .cancelled => 3)
      ∧ (statusWord s).getLsbD 6 = s.halted
      ∧ ((statusWord s).getLsbD 7 = true ↔ s.subq ≠ [])
      ∧ (statusWord s).extractLsb' 8 5 = s.stage
      ∧ (statusWord s).extractLsb' 13 4 = s.qual
      ∧ (statusWord s).extractLsb' 17 15 = 0
      ∧ ∀ v : Word128, hostWrite s .status v = s

/-- R52, R69: a host read of a register, of a lane of a wide register or of a byte gives what it holds, and CMD cannot be
read; a host write to a register the host may write is read back there, in the register's width, and changes nothing
the host reads elsewhere; a write to any other register is ignored. How a 128-bit access value maps to a
narrower register is the model's choice (log 15). -/
def Obligations.HostWriteRights : Prop :=
  ∀ (s : State) (v : Word128),
    (∀ (w : Fin 12) (l : Lane), hostRead (hostWrite s (.msg w l) v) (.msg w l) = some v)
      ∧ (∀ l : Lane, hostRead (hostWrite s (.ln l) v) (.ln l) = some ((v.setWidth 32).setWidth 128))
      ∧ (∀ i : Fin 20, hostRead (hostWrite s (.hdr i) v) (.hdr i) = some ((v.setWidth 32).setWidth 128))
      ∧ (∀ i : Fin 8, hostRead (hostWrite s (.tgt i) v) (.tgt i) = some ((v.setWidth 32).setWidth 128))
      ∧ hostRead (hostWrite s .first v) .first = some ((v.setWidth 32).setWidth 128)
      ∧ hostRead (hostWrite s .max v) .max = some ((v.setWidth 32).setWidth 128)
      ∧ hostRead (hostWrite s .cancel v) .cancel = some ((v.extractLsb' 0 1).setWidth 128)
      ∧ hostWrite s .cmd v = { s with cmd := .word (v.setWidth 32) }
      ∧ (∀ r : HostReg, (∀ w l, r ≠ .msg w l) → (∀ l, r ≠ .ln l) → (∀ i, r ≠ .hdr i) → (∀ i, r ≠ .tgt i) →
          r ≠ .first → r ≠ .max → r ≠ .cancel → r ≠ .cmd → hostWrite s r v = s)
      ∧ (∀ r q : HostReg, q ≠ r → hostRead (hostWrite s r v) q = hostRead s q)
      ∧ (∀ (r c : Fin 4) (l : Lane), hostRead s (.a r c l) = some s.a[r][c][l]
          ∧ hostRead s (.b r c l) = some s.b[r][c][l] ∧ hostRead s (.bk r c l) = some s.bk[r][c][l])
      ∧ (∀ l : Lane, hostRead s (.k l) = some s.k[l] ∧ hostRead s (.k1 l) = some s.k1[l])
      ∧ (∀ (w : Fin 12) (l : Lane),
          hostRead s (.buf w l) = some s.buf[w][l] ∧ hostRead s (.msg w l) = some s.msg[w][l])
      ∧ (∀ (w : Fin 4) (l : Lane), hostRead s (.dg w l) = some s.dg[w][l])
      ∧ hostRead s .cfg = some (s.cfg.setWidth 128) ∧ hostRead s .pbits = some (s.pbits.setWidth 128)
      ∧ hostRead s .rem = some s.rem
      ∧ hostRead s .ctxst = some (((statusWord s).extractLsb' 0 2).setWidth 128)
      ∧ hostRead s .chst = some (((statusWord s).extractLsb' 2 2).setWidth 128)
      ∧ hostRead s .scanst = some (((statusWord s).extractLsb' 4 2).setWidth 128)
      ∧ (∀ (l : Lane) (x : Fin 80), hostRead s (.hb l x) = some ((s.byteAt .hb l x.val).setWidth 128))
      ∧ (∀ (l : Lane) (x : Fin 128), hostRead s (.rb l x) = some ((s.byteAt .rb l x.val).setWidth 128))
      ∧ (∀ (l : Lane) (x : Fin 32), hostRead s (.cd l x) = some ((s.byteAt .cd l x.val).setWidth 128))
      ∧ hostRead s .stage = some (s.stage.setWidth 128)
      ∧ (∀ i : Fin 19, hostRead s (.stages i) = some (s.conf.stages[i].setWidth 128))
      ∧ (∀ l : Lane, hostRead s (.ln l) = some (s.ln[l].setWidth 128))
      ∧ (∀ i : Fin 20, hostRead s (.hdr i) = some (s.hdr[i].setWidth 128))
      ∧ (∀ i : Fin 8, hostRead s (.tgt i) = some (s.tgt[i].setWidth 128))
      ∧ hostRead s .first = some (s.first.setWidth 128) ∧ hostRead s .max = some (s.max.setWidth 128)
      ∧ hostRead s .cancel = some (if s.cancel then 1 else 0)
      ∧ hostRead s .nonce = some (s.nonce.setWidth 128) ∧ hostRead s .attempts = some (s.attempts.setWidth 128)
      ∧ hostRead s .qual = some (s.qual.setWidth 128) ∧ hostRead s .fault = some (s.fault.setWidth 128)
      ∧ hostRead s .halted = some (if s.halted then 1 else 0)
      ∧ hostRead s .cmd = none

/-! ## The AES round and the doubling -/

/-- R11, R121, R122, R123, R129: `xtime` of every byte is the shift, reduced by 0x1B when the top bit was set; `mul2` and `mul3`
are the products with 2 and 3; `SBOX` of every byte is the affine image of its inverse in GF(2^8); the doubling of a
word acts on each of its bytes alone, byte `k` being bits `8k + 7` to `8k`. -/
def Obligations.DoublingActsOnEachByte : Prop :=
  (∀ b : Byte, (xtime b).toNat = if b.toNat < 128 then 2 * b.toNat else (2 * b.toNat - 256) ^^^ 0x1B)
    ∧ (∀ b : Byte, mul2 b = gfMul b 2 ∧ mul3 b = gfMul b 3)
    ∧ (∀ x : Byte, ∃ b : Byte, (if x = 0 then b = 0 else gfMul x b = 1)
        ∧ sbox x = b ^^^ b.rotateLeft 1 ^^^ b.rotateLeft 2 ^^^ b.rotateLeft 3 ^^^ b.rotateLeft 4 ^^^ 0x63)
    ∧ (∀ (w : Word128) (k : Nat), k < 16 → byteOf w k = w.extractLsb' (8 * k) 8)
    ∧ ∀ (w : Word128) (k : Nat), k < 16 → byteOf (dbl128 w) k = xtime (byteOf w k)

/-- R124 to R128, R130: the bytes of an AES round, column by column, the key added last; `SUB2` is two rounds, the second
with a key of zero. -/
def Obligations.AesRoundByColumns : Prop :=
  (∀ (x k : Word128) (col : Nat) (a0 a1 a2 a3 : Byte), col < 4 →
    a0 = sbox (byteOf x (4 * col)) →
    a1 = sbox (byteOf x (4 * ((col + 1) % 4) + 1)) →
    a2 = sbox (byteOf x (4 * ((col + 2) % 4) + 2)) →
    a3 = sbox (byteOf x (4 * ((col + 3) % 4) + 3)) →
    byteOf (aesRound x k) (4 * col) = (mul2 a0 ^^^ mul3 a1 ^^^ a2 ^^^ a3) ^^^ byteOf k (4 * col)
      ∧ byteOf (aesRound x k) (4 * col + 1) = (a0 ^^^ mul2 a1 ^^^ mul3 a2 ^^^ a3) ^^^ byteOf k (4 * col + 1)
      ∧ byteOf (aesRound x k) (4 * col + 2) = (a0 ^^^ a1 ^^^ mul2 a2 ^^^ mul3 a3) ^^^ byteOf k (4 * col + 2)
      ∧ byteOf (aesRound x k) (4 * col + 3) = (mul3 a0 ^^^ a1 ^^^ a2 ^^^ mul2 a3) ^^^ byteOf k (4 * col + 3))
    ∧ ∀ x k : Word128, sub2 x k = aesRound (aesRound x k) 0

/-! ## The compression engine -/

/-- R140: `NOP` changes nothing, in any state. -/
def Obligations.NopChangesNothing : Prop :=
  Encodes .nop 0x00000000 ∧ (∀ s : State, exec .nop s = .next s)
    ∧ ∀ s : State, s.halted = false → issue 0x00000000 s = .next s

/-- R142, R255: `CTX.INIT` with a legal width constructs a context; with any other width it leaves a dead one and
raises `CFG_ERROR` (code 1), and then every other context command raises `CTX_STATE`. -/
def Obligations.CtxInitConstructsOrRejects : Prop :=
  (∀ imm : BitVec 16, Encodes (.ctxInit imm) (0x01000000 ||| imm.setWidth 32))
    ∧ (∀ s : State, exec (.ctxInit 256) s = .next { s with
        cfg := 0x018C0100, a := grid fun _ c => if c.val < 1 then splat 0x100 else splat 0,
        k := splat 0, pbits := 0, rem := 0, ctxst := .ready })
    ∧ (∀ s : State, exec (.ctxInit 512) s = .next { s with
        cfg := 0x02A80200, a := grid fun _ c => if c.val < 2 then splat 0x200 else splat 0,
        k := splat 0, pbits := 0, rem := 0, ctxst := .ready })
    ∧ (∀ (s : State) (imm : BitVec 16), imm ≠ 256 → imm ≠ 512 →
        exec (.ctxInit imm) s = .next (faulted 1 { s with cfg := 0, ctxst := .dead }))
    ∧ ∀ (s : State) (i : Instr), s.ctxst = .dead → needsReady i = true → exec i s = .next (faulted 2 s)

/-- R143: `CTR.ADV` adds the block length in bits to every lane of K. -/
def Obligations.CtrAdvAddsBlockLength : Prop :=
  Encodes .ctrAdv 0x10000000
    ∧ (∀ s : State, Ready .h256 s → exec .ctrAdv s = .next { s with k := wide fun l => s.k[l] + 1536 })
    ∧ (∀ s : State, Ready .h512 s → exec .ctrAdv s = .next { s with k := wide fun l => s.k[l] + 1024 })
    ∧ ∀ s : State, s.ctxst ≠ .ready → exec .ctrAdv s = .next (faulted 2 s)

/-- R144: `LDM` fills the message columns of grid A column by column, row index fastest, from MSG or BUF, and leaves
the chaining columns. -/
def Obligations.LdmFillsMessageColumns : Prop :=
  Encodes (.ldm .msg) 0x11000000 ∧ Encodes (.ldm .buf) 0x11000001
    ∧ (∀ (h : Hs) (src : BlockSrc) (s : State), Ready h s → ∃ t : State,
        exec (.ldm src) s = .next t ∧ t = { s with a := t.a }
          ∧ ∀ (r c : Fin 4) (l : Lane), t.a[r][c][l] =
              if c.val < h.cc then s.a[r][c][l]
              else match src with
                | .msg => laneBlock s.msg l (4 * (c.val - h.cc) + r.val)
                | .buf => laneBlock s.buf l (4 * (c.val - h.cc) + r.val))
    ∧ ∀ (src : BlockSrc) (s : State), s.ctxst ≠ .ready → exec (.ldm src) s = .next (faulted 2 s)

/-- R145: `SAVE` copies grid A to BK and K to K1. -/
def Obligations.SaveCopiesGridAndCounter : Prop :=
  Encodes .save 0x12000000
    ∧ (∀ (h : Hs) (s : State), Ready h s → exec .save s = .next { s with bk := s.a, k1 := s.k })
    ∧ ∀ s : State, s.ctxst ≠ .ready → exec .save s = .next (faulted 2 s)

/-- R146, R130: `SUBW` takes the 16 words of a grid column by column, row index fastest, the key one higher for each, through
two AES rounds, the second with a key of zero, and leaves K1 16 higher. -/
def Obligations.SubwUsesRisingKeys : Prop :=
  Encodes (.subw .a) 0x13000000 ∧ Encodes (.subw .b) 0x13000001
    ∧ (∀ (h : Hs) (s : State), Ready h s → ∃ t : State,
        exec (.subw .a) s = .next t ∧ t = { s with a := t.a, k1 := t.k1 }
          ∧ (∀ l : Lane, t.k1[l] = s.k1[l] + 16)
          ∧ ∀ (r c : Fin 4) (l : Lane),
              t.a[r][c][l] =
                aesRound (aesRound s.a[r][c][l] (s.k1[l] + BitVec.ofNat 128 (4 * c.val + r.val))) 0)
    ∧ (∀ (h : Hs) (s : State), Ready h s → ∃ t : State,
        exec (.subw .b) s = .next t ∧ t = { s with b := t.b, k1 := t.k1 }
          ∧ (∀ l : Lane, t.k1[l] = s.k1[l] + 16)
          ∧ ∀ (r c : Fin 4) (l : Lane),
              t.b[r][c][l] =
                aesRound (aesRound s.b[r][c][l] (s.k1[l] + BitVec.ofNat 128 (4 * c.val + r.val))) 0)
    ∧ ∀ (g : GridSel) (s : State), s.ctxst ≠ .ready → exec (.subw g) s = .next (faulted 2 s)

/-- R147: `MIXB` writes all of the other grid from the selected one, by the four assignments of the rule. -/
def Obligations.MixbMixesIntoOtherGrid : Prop :=
  Encodes (.mixb .a) 0x14000000 ∧ Encodes (.mixb .b) 0x14000001
    ∧ (∀ (h : Hs) (s : State), Ready h s → ∃ t : State,
        exec (.mixb .a) s = .next t ∧ t = { s with b := t.b } ∧ MixedFrom s.a t.b)
    ∧ (∀ (h : Hs) (s : State), Ready h s → ∃ t : State,
        exec (.mixb .b) s = .next t ∧ t = { s with a := t.a } ∧ MixedFrom s.b t.a)
    ∧ ∀ (g : GridSel) (s : State), s.ctxst ≠ .ready → exec (.mixb g) s = .next (faulted 2 s)

/-- R148: `FFWD` collapses grid A and the backup, eight operands for 256 (90_conflicts.md C1), two independent halves
for 512. -/
def Obligations.FfwdCollapsesGridAndBackup : Prop :=
  Encodes .ffwd 0x15000000
    ∧ (∀ s : State, Ready .h256 s → ∃ t : State, exec .ffwd s = .next t ∧ t = { s with a := t.a }
        ∧ ∀ (r : Fin 4) (l : Lane),
            t.a[r][(0 : Fin 4)][l] = s.a[r][(0 : Fin 4)][l] ^^^ s.a[r][(1 : Fin 4)][l] ^^^ s.a[r][(2 : Fin 4)][l]
                ^^^ s.a[r][(3 : Fin 4)][l] ^^^ s.bk[r][(0 : Fin 4)][l] ^^^ s.bk[r][(1 : Fin 4)][l]
                ^^^ s.bk[r][(2 : Fin 4)][l] ^^^ s.bk[r][(3 : Fin 4)][l]
              ∧ ∀ c : Fin 4, c ≠ 0 → t.a[r][c][l] = s.a[r][c][l])
    ∧ (∀ s : State, Ready .h512 s → ∃ t : State, exec .ffwd s = .next t ∧ t = { s with a := t.a }
        ∧ ∀ (r : Fin 4) (l : Lane),
            t.a[r][(0 : Fin 4)][l] = s.a[r][(0 : Fin 4)][l] ^^^ s.a[r][(2 : Fin 4)][l]
                ^^^ s.bk[r][(0 : Fin 4)][l] ^^^ s.bk[r][(2 : Fin 4)][l]
              ∧ t.a[r][(1 : Fin 4)][l] = s.a[r][(1 : Fin 4)][l] ^^^ s.a[r][(3 : Fin 4)][l]
                ^^^ s.bk[r][(1 : Fin 4)][l] ^^^ s.bk[r][(3 : Fin 4)][l]
              ∧ ∀ c : Fin 4, c ≠ 0 → c ≠ 1 → t.a[r][c][l] = s.a[r][c][l])
    ∧ ∀ s : State, s.ctxst ≠ .ready → exec .ffwd s = .next (faulted 2 s)

/-- R149, R141: `COMPRESS` in every lane is the compression function of one lane, from K, grid A and the block of that
lane; K advances by a block, K1 ends 16 per round above it; and the function reads only the chaining columns of the
grid. -/
def Obligations.CompressIsTheLaneFunction : Prop :=
  (∀ (h : Hs) (src : BlockSrc) (s : State), Ready h s → ∃ t : State,
      exec (.compress src) s = .next t
        ∧ t = { s with a := t.a, b := t.b, bk := t.bk, k := t.k, k1 := t.k1 }
        ∧ ∀ l : Lane,
            laneOf t.a l = laneCompress h s.k[l] (laneOf s.a l) (laneBlock (s.blockOf src) l)
              ∧ t.k[l] = s.k[l] + BitVec.ofNat 128 h.blockBits
              ∧ t.k1[l] = t.k[l] + BitVec.ofNat 128 (16 * h.rounds))
    ∧ ∀ (h : Hs) (k : Word128) (x y : LaneGrid) (block : Nat → Word128),
        (∀ r c : Fin 4, c.val < h.cc → x[r][c] = y[r][c]) → laneCompress h k x block = laneCompress h k y block

/-- R108: a host that issues the expansion of `COMPRESS` word by word reaches the same state. -/
def Obligations.CompressEqualsItsExpansion : Prop :=
  ∀ (h : Hs) (src : BlockSrc) (s : State), Ready h s → s.halted = false →
    issueAll (compressWords h (0x11000000 ||| src.code.setWidth 32)) s = exec (.compress src) s

/-- R152: every command of the compression engine and the finalizer but `NOP` and `CTX.INIT` needs a `READY` context;
without one it raises `CTX_STATE` (code 2) and changes nothing else. -/
def Obligations.ContextCommandsNeedReady : Prop :=
  ∀ (i : Instr) (s : State), needsReady i = true → s.ctxst ≠ .ready → exec i s = .next (faulted 2 s)

/-- R141: lane `l` of every result of a context command depends only on lane `l` of the operands and on the scalar
registers. -/
def Obligations.LanesDoNotInteract : Prop :=
  ∀ (i : Instr) (l : Lane) (s t s' : State), ofContext i = true → LaneAgree l s t → exec i s = .next s' →
    ∃ t' : State, exec i t = .next t' ∧ LaneAgree l s' t'

/-! ## The finalizer -/

/-- R171, R257: the legal lengths, and that `PAD` and `FINALIZE` raise `BAD_LENGTH` (code 3) for any other before
changing anything. -/
def Obligations.LegalLengths : Prop :=
  (∀ n : BitVec 16, legalLength .h256 n = true ↔
      n.toNat ∈ [0, 128, 256, 384, 512, 640, 768, 896, 1024, 1152, 1536])
    ∧ (∀ n : BitVec 16, legalLength .h512 n = true ↔ n.toNat ∈ [0, 128, 256, 384, 512, 640, 1024])
    ∧ ∀ (h : Hs) (s : State) (n : BitVec 16), Ready h s → legalLength h n = false →
        exec (.pad n) s = .next (faulted 3 s) ∧ exec (.finalize n) s = .next (faulted 3 s)

/-- R172: `PAD` builds the terminal block in BUF, word by word, and updates PBITS and REM. -/
def Obligations.PadBuildsTerminalBlock : Prop :=
  (∀ n : BitVec 16, Encodes (.pad n) (0x20000000 ||| n.setWidth 32))
    ∧ (∀ (h : Hs) (s : State) (n : BitVec 16) (vlen : Nat), Ready h s → legalLength h n = true →
        vlen = (if n.toNat = 128 * h.blkw then 0 else n.toNat / 128) → ∃ t : State,
        exec (.pad n) s = .next t ∧ t = { s with buf := t.buf, pbits := t.pbits, rem := t.rem }
          ∧ t.pbits = s.pbits + n.setWidth 64
          ∧ t.rem = (if n.toNat = 128 * h.blkw then 0 - BitVec.ofNat 128 (128 * h.blkw) else n.setWidth 128)
          ∧ ∀ (w : Fin 12) (l : Lane), t.buf[w][l] =
              if w.val < vlen then s.msg[w][l]
              else if w.val = vlen then 0x80
              else if w.val < h.blkw - 2 then 0
              else if w.val = h.blkw - 2 then BitVec.ofNat 128 h.bits <<< 112
              else if w.val = h.blkw - 1 then
                (match s.conf.lenHi with
                  | .replicate => t.pbits
                  | .zero => 0) ++ t.pbits
              else s.buf[w][l])
    ∧ (∀ (s : State) (n : BitVec 16), s.ctxst ≠ .ready → exec (.pad n) s = .next (faulted 2 s))
    ∧ ∀ (h : Hs) (s : State) (n : BitVec 16), Ready h s → legalLength h n = false →
        exec (.pad n) s = .next (faulted 3 s)

/-- R174: `CTR.FIX` adds REM and subtracts the block length in every lane of K, modulo 2^128; the `CTR.ADV` of the next
compression then leaves K as it was plus REM. -/
def Obligations.CtrFixCorrectsCounter : Prop :=
  Encodes .ctrFix 0x21000000
    ∧ (∀ (h : Hs) (s : State), Ready h s → ∃ t : State,
        exec .ctrFix s = .next t
          ∧ t = { s with k := wide fun l => s.k[l] + s.rem - BitVec.ofNat 128 h.blockBits }
          ∧ exec .ctrAdv t = .next { s with k := wide fun l => s.k[l] + s.rem })
    ∧ ∀ s : State, s.ctxst ≠ .ready → exec .ctrFix s = .next (faulted 2 s)

/-- R175: `XTRACT` copies column 0 of grid A to DG, two words for 256 and four for 512, and ends the context. -/
def Obligations.XtractTakesColumnZero : Prop :=
  Encodes .xtract 0x22000000
    ∧ (∀ s : State, Ready .h256 s → ∃ t : State, exec .xtract s = .next t
        ∧ t = { s with dg := t.dg, ctxst := .done }
        ∧ t.dg[(0 : Fin 4)] = s.a[(0 : Fin 4)][(0 : Fin 4)] ∧ t.dg[(1 : Fin 4)] = s.a[(1 : Fin 4)][(0 : Fin 4)]
        ∧ t.dg[(2 : Fin 4)] = splat 0 ∧ t.dg[(3 : Fin 4)] = splat 0)
    ∧ (∀ s : State, Ready .h512 s → ∃ t : State, exec .xtract s = .next t
        ∧ t = { s with dg := t.dg, ctxst := .done }
        ∧ ∀ w : Fin 4, t.dg[w] = s.a[w][(0 : Fin 4)])
    ∧ (∀ s : State, s.ctxst ≠ .ready → exec .xtract s = .next (faulted 2 s))
    ∧ ∀ (s : State) (i : Instr), s.ctxst = .done → needsReady i = true → exec i s = .next (faulted 2 s)

/-- R176, R63: the digest as bytes: byte `16w + k` is byte `k` of lane `l` of `DG[w]`, 32 bytes for 256, 64 for 512. -/
def Obligations.DigestBytesInOrder : Prop :=
  ∀ (h : Hs) (s : State) (l : Lane),
    (digestBytes s (h.bits / 8) l).length = h.bits / 8
      ∧ ∀ (w : Fin 4) (k : Nat), k < 16 → 16 * w.val + k < h.bits / 8 →
          (digestBytes s (h.bits / 8) l)[16 * w.val + k]? = some (byteOf s.dg[w][l] k)

/-- R177, R178, R172 to R175: `FINALIZE` of a legal length completes, consumes the context, and leaves the counters the
rules give: K plus the message length, or K itself after a full block. -/
def Obligations.FinalizeCompletes : Prop :=
  ∀ (h : Hs) (s : State) (n : BitVec 16), Ready h s → legalLength h n = true → ∃ t : State,
    exec (.finalize n) s = .next t
      ∧ t = { s with
          a := t.a, b := t.b, bk := t.bk, k := t.k, k1 := t.k1, buf := t.buf, pbits := t.pbits, rem := t.rem,
          dg := t.dg, ctxst := .done }
      ∧ t.pbits = s.pbits + n.setWidth 64
      ∧ (∀ l : Lane, t.k[l] = if n.toNat = 128 * h.blkw then s.k[l] else s.k[l] + n.setWidth 128)
      ∧ (∀ l : Lane, t.k1[l] = t.k[l] + BitVec.ofNat 128 (16 * h.rounds))
      ∧ ∀ w : Fin 4, t.dg[w] = if w.val < h.bits / 128 then t.a[w][(0 : Fin 4)] else splat 0

/-- R108: a host that issues the expansion of `FINALIZE` word by word, for a legal length, reaches the same state. -/
def Obligations.FinalizeEqualsItsExpansion : Prop :=
  ∀ (h : Hs) (s : State) (n : BitVec 16), Ready h s → legalLength h n = true → s.halted = false →
    issueAll ((if n.toNat = 128 * h.blkw then [0x18000000] else [])
        ++ [0x20000000 ||| n.setWidth 32, 0x21000000, 0x18000001, 0x22000000]) s
      = exec (.finalize n) s

/-- R179, R15, R63: `CTX.INIT` and `FINALIZE` leave in every lane the hash of that lane's message, a function of the width
and the message alone. Byte `16w + k` of the message is byte `k` of MSG word `w`. -/
def Obligations.ContextHashesItsMessage : Prop :=
  ∀ (h : Hs) (s : State) (data : List Byte) (l : Lane), legalBits h (8 * data.length) = true →
    (∀ w k : Nat, w < data.length / 16 → k < 16 → byteOf (laneBlock s.msg l w) k = data.getD (16 * w + k) 0) →
    ∃ t u : State,
      exec (.ctxInit (BitVec.ofNat 16 h.bits)) s = .next t
        ∧ exec (.finalize (BitVec.ofNat 16 (8 * data.length))) t = .next u
        ∧ u.ctxst = .done
        ∧ digestBytes u (h.bits / 8) l = aesHash s.conf.lenHi h data

/-! ## The chain -/

/-- R196: what a well-formed stage table is. -/
def Obligations.WellFormedTableMeansItsConditions : Prop :=
  ∀ t : StageTable, wfTable t = true ↔ ∃ pAes lIdx mIdx : Fin 19,
    (pAes ≠ lIdx ∧ pAes ≠ mIdx ∧ lIdx ≠ mIdx
        ∧ ∀ i, kindAt t i = if i = pAes then .aes else if i = lIdx then .lat else if i = mIdx then .mh else .ord)
      ∧ ((∀ i : Fin 19, descriptorReserved t[i] = 0) ∧ (fieldsAt t pAes).prim = 0)
      ∧ ((fieldsAt t 0).src = .hb ∧ (fieldsAt t 0).inLen = 80
          ∧ ∀ i : Fin 19, 1 ≤ i.val → (fieldsAt t i).src = .rb)
      ∧ 1 ≤ lIdx.val
      ∧ (∀ i, (fieldsAt t i).inOff = 0)
      ∧ (∀ i : Fin 19, 1 ≤ i.val → (fieldsAt t i).inLen = if i.val ≤ mIdx.val then 64 else 32)
      ∧ (∀ i, (fieldsAt t i).outLen = if i.val < mIdx.val then 64 else 32)
      ∧ (∀ i, (fieldsAt t i).outOff = if i = lIdx then 64 else 0)
      ∧ ((fieldsAt t pAes).inOff.toNat % 16 = 0 ∧ (fieldsAt t pAes).inLen.toNat % 16 = 0
          ∧ ∃ h : Hs, h.bits = 8 * (fieldsAt t pAes).outLen.toNat
              ∧ legalLength h (BitVec.ofNat 16 (8 * (fieldsAt t pAes).inLen.toNat)) = true)
      ∧ ∀ i, (fieldsAt t i).clrOff.toNat + (fieldsAt t i).clrLen.toNat ≤ 128

/-- R198, R197: `CH.BEGIN` builds the header of every lane, big-endian, with the lane's nonce as word 19, clears RB and
starts the evaluation; an ill-formed table raises `CHAIN_FATAL` (code 4), which halts, and changes nothing else. -/
def Obligations.ChBeginBuildsHeaders : Prop :=
  Encodes .chBegin 0x31000000
    ∧ (∀ s : State, wfTable s.conf.stages = true → MemOk s → ∃ t : State,
        exec .chBegin s = .next t
          ∧ t = { s with hb := t.hb, rb := t.rb, stage := 0, chst := .run }
          ∧ (∀ (l : Lane) (i : Fin 20) (j : Nat), j < 4 → t.byteAt .hb l (4 * i.val + j) =
              (if i.val < 19 then s.hdr[i] else s.ln[l]).extractLsb' (8 * (3 - j)) 8)
          ∧ (∀ (l : Lane) (x : Nat), x < 128 → t.byteAt .rb l x = 0)
          ∧ (∀ (l : Lane) (x : Nat), 80 ≤ x → t.byteAt .hb l x = s.byteAt .hb l x)
          ∧ ∀ (l : Lane) (x : Nat), 128 ≤ x → t.byteAt .rb l x = s.byteAt .rb l x)
    ∧ ∀ s : State, wfTable s.conf.stages = false → exec .chBegin s = .next (faultedHalt 4 s)

/-- R199, R200, R203, R204: a stage of an external primitive (`STG.ORD`, `STG.LAT`, `STG.MH`) writes the primitive's
answer on its input, then the clear, and advances STAGE; an answer of the wrong length in some lane raises
`CHAIN_FATAL` (code 4), halts, and changes neither RB nor STAGE. That a descriptor is an instruction, the stage one
`CH.STEP` runs for it, is the model's choice (log 13). -/
def Obligations.ExternalStageWritesItsDigest : Prop :=
  ∀ (d : StageFields) (i : Instr) (s : State), i = .stgOrd d ∨ i = .stgLat d ∨ i = .stgMh d → i.wf = true →
    InChain s → MemOk s →
    ((∀ l : Lane, (primCall s.conf d.prim (8 * d.outLen.toNat) (stageInput d s l)).length = d.outLen.toNat) →
        ∃ t : State, exec i s = .next t ∧ t = { s with rb := t.rb, stage := s.stage + 1 }
          ∧ StageBytes d (fun l => primCall s.conf d.prim (8 * d.outLen.toNat) (stageInput d s l)) s t)
      ∧ ((∃ l : Lane, (primCall s.conf d.prim (8 * d.outLen.toNat) (stageInput d s l)).length ≠ d.outLen.toNat) →
          exec i s = .next (faultedHalt 4 s))

/-- R199, R201, R63: the AES stage (`STG.AES`) puts every lane's input into MSG, uses up a context of the width its
output length asks for, and writes `AESHASH` of the input, then the clear, and advances STAGE; byte `16w + k` of the
input is byte `k` of MSG word `w`. That a descriptor is an instruction, the stage one `CH.STEP` runs for it, is the
model's choice (log 13). -/
def Obligations.AesStageHashesItsInput : Prop :=
  ∀ (d : StageFields) (h : Hs) (s : State), (Instr.stgAes d).wf = true → h.bits = 8 * d.outLen.toNat →
    InChain s → MemOk s → ∃ t : State,
      exec (.stgAes d) s = .next t
        ∧ t = { s with
            a := t.a, b := t.b, bk := t.bk, k := t.k, k1 := t.k1, cfg := h.cfgWord, buf := t.buf, msg := t.msg,
            pbits := t.pbits, rem := t.rem, dg := t.dg, ctxst := .done, rb := t.rb, stage := s.stage + 1 }
        ∧ (∀ (w : Fin 12) (l : Lane), t.msg[w][l] =
            if w.val < d.inLen.toNat / 16 then wordAt (stageInput d s l) w.val else s.msg[w][l])
        ∧ (∀ (w : Fin 12) (l : Lane) (k : Nat), w.val < d.inLen.toNat / 16 → k < 16 →
            byteOf t.msg[w][l] k = (stageInput d s l).getD (16 * w.val + k) 0)
        ∧ StageBytes d (fun l => aesHash s.conf.lenHi h (stageInput d s l)) s t

/-- R199, R207: on a verified table and primitives that behave, `CH.STEP` runs stage `STAGE` of the chain function in
every lane's buffer and advances STAGE; without a stage left to run it raises `SEQ_ERROR` (code 6). -/
def Obligations.ChStepRunsOneStage : Prop :=
  (∀ (s : State) (hst : s.stage.toNat < 19), s.chst = .run → wfTable s.conf.stages = true →
      primsOk s.conf = true → ∃ t : State,
        exec .chStep s = .next t
          ∧ t = { s with
              a := t.a, b := t.b, bk := t.bk, k := t.k, k1 := t.k1, cfg := t.cfg, buf := t.buf, msg := t.msg,
              pbits := t.pbits, rem := t.rem, dg := t.dg, ctxst := t.ctxst, rb := t.rb, stage := s.stage + 1 }
          ∧ (kindAt s.conf.stages ⟨s.stage.toNat, hst⟩ ≠ .aes →
              t = { s with rb := t.rb, stage := s.stage + 1 })
          ∧ ∀ l : Lane, t.rb[l] =
              chainStage s.conf (memRead s .hb l 0 80) s.rb[l] ⟨s.stage.toNat, hst⟩)
    ∧ ∀ s : State, ¬ InChain s → exec .chStep s = .next (faulted 6 s)

/-- R204: a digest of the wrong length in some lane of an external stage: `CH.STEP` raises `CHAIN_FATAL` and halts the
CORE, with RB and STAGE as they were. -/
def Obligations.MisbehavingPrimitiveHalts : Prop :=
  ∀ (s : State) (hst : s.stage.toNat < 19) (d : StageFields), s.chst = .run → wfTable s.conf.stages = true →
    d = fieldsAt s.conf.stages ⟨s.stage.toNat, hst⟩ → kindAt s.conf.stages ⟨s.stage.toNat, hst⟩ ≠ .aes →
    (∃ l : Lane, (primCall s.conf d.prim (8 * d.outLen.toNat) (stageInput d s l)).length ≠ d.outLen.toNat) →
    exec .chStep s = .next (faultedHalt 4 s)

/-- R205: `CH.END` copies the first 32 bytes the last stage produced to CD; without a finished evaluation it raises
`SEQ_ERROR` (code 6) and changes nothing else. -/
def Obligations.ChEndCopiesResult : Prop :=
  Encodes .chEnd 0x33000000
    ∧ (∀ s : State, s.chst = .run → s.stage = 19 → wfTable s.conf.stages = true → MemOk s → ∃ t : State,
        exec .chEnd s = .next t ∧ t = { s with cd := t.cd, chst := .done }
          ∧ ∀ (l : Lane) (x : Nat), t.byteAt .cd l x =
              if x < 32 then s.byteAt .rb l ((fieldsAt s.conf.stages 18).outOff.toNat + x)
              else s.byteAt .cd l x)
    ∧ ∀ s : State, s.chst ≠ .run ∨ s.stage ≠ 19 → exec .chEnd s = .next (faulted 6 s)

/-- R206, R207: on a verified table and primitives that behave, `CHAIN` leaves in CD the chain hash of every lane's
header, which it leaves in HB; on an ill-formed table it raises `CHAIN_FATAL` (code 4), halts, and changes nothing
else. -/
def Obligations.ChainComputesChainHash : Prop :=
  (∀ s : State, wfTable s.conf.stages = true → primsOk s.conf = true → MemOk s → ∃ t : State,
      exec .chain s = .next t
        ∧ t = { s with
            a := t.a, b := t.b, bk := t.bk, k := t.k, k1 := t.k1, cfg := t.cfg, buf := t.buf, msg := t.msg,
            pbits := t.pbits, rem := t.rem, dg := t.dg, ctxst := .done, hb := t.hb, rb := t.rb, cd := t.cd,
            stage := 19, chst := .done }
        ∧ ∀ l : Lane, memRead t .hb l 0 80 = headerWith s.hdr s.ln[l]
            ∧ memRead t .cd l 0 32 = chainHash s.conf (headerWith s.hdr s.ln[l]))
    ∧ ∀ s : State, wfTable s.conf.stages = false → exec .chain s = .next (faultedHalt 4 s)

/-- R108: a host that issues the expansion of `CHAIN` word by word reaches the same state, whatever the table and the
primitives are. -/
def Obligations.ChainEqualsItsExpansion : Prop :=
  ∀ s : State, s.halted = false → issueAll chainWords s = exec .chain s

/-- R259: `SEQ_ERROR` (code 6) is raised by the four commands of the rule in the wrong sequencing state, with nothing
else changed, and never inside `CHAIN` or `SCAN`. -/
def Obligations.SequenceErrors : Prop :=
  (∀ s : State, s.chst ≠ .run ∨ s.stage = 19 → exec .chStep s = .next (faulted 6 s))
    ∧ (∀ s : State, s.chst ≠ .run ∨ s.stage ≠ 19 → exec .chEnd s = .next (faulted 6 s))
    ∧ (∀ (l : Lane) (s : State), s.chst ≠ .done → exec (.cmp l) s = .next (faulted 6 s))
    ∧ (∀ s : State, s.scanst ≠ .run → exec .scIter s = .next (faulted 6 s))
    ∧ (∀ s t : State, exec .chain s = .next t → t.fault.getLsbD 6 = s.fault.getLsbD 6)
    ∧ (∀ s t : State, exec .scan s = .next t → t.fault.getLsbD 6 = s.fault.getLsbD 6)
    ∧ ∀ s t : State, s.cmd = .scan → s.inbox.head? ≠ some .reset → step s = .next t →
        t.fault.getLsbD 6 = s.fault.getLsbD 6

/-! ## The comparator and the scan -/

/-- R223, R224: the first step of the comparison decides; what is accepted is below the target; what is below the
target and rejected has the target's top word; nothing is below a zero top word. -/
def Obligations.AcceptanceAgainstValue : Prop :=
  ∀ dw t : Vector Word32 8,
    (topLess dw t = true ↔ dw[7] < t[7])
      ∧ (fullLess dw t = true ↔ bigValue dw < bigValue t)
      ∧ (topLess dw t = true → fullLess dw t = true)
      ∧ accept dw t = topLess dw t
      ∧ (accept dw t = true → bigValue dw < bigValue t)
      ∧ (bigValue dw < bigValue t ∧ accept dw t = false ↔ bigValue dw < bigValue t ∧ dw[7] = t[7])
      ∧ (t[7] = 0 → accept dw t = false)

/-- R222, R221, R65: `CMP` writes the QUAL bit of its lane with the comparison of the lane's chain digest, read as
eight little-endian words, and keeps the other three bits; without a finished chain it raises `SEQ_ERROR`. -/
def Obligations.CmpWritesOneFlag : Prop :=
  (∀ l : Lane, Encodes (.cmp l) (0x40000000 ||| BitVec.ofNat 32 l.val))
    ∧ (∀ (l : Lane) (s : State) (dw : Vector Word32 8), s.chst = .done →
        (∀ i : Fin 8, dw[i] = s.byteAt .cd l (4 * i.val + 3) ++ s.byteAt .cd l (4 * i.val + 2)
          ++ s.byteAt .cd l (4 * i.val + 1) ++ s.byteAt .cd l (4 * i.val)) → ∃ t : State,
        exec (.cmp l) s = .next t ∧ t = { s with qual := t.qual }
          ∧ ∀ m : Lane, t.qual.getLsbD m.val = if m = l then accept dw s.tgt else s.qual.getLsbD m.val)
    ∧ ∀ (l : Lane) (s : State), s.chst ≠ .done → exec (.cmp l) s = .next (faulted 6 s)

/-- R226: `SC.BEGIN` starts a scan, in any state. -/
def Obligations.ScBeginStartsAtFirst : Prop :=
  Encodes .scBegin 0x42000000
    ∧ ∀ s : State, exec .scBegin s = .next { s with nonce := s.first, attempts := 0, scanst := .run }

/-- R228: the active lanes are the lanes below their count, which is 1 to `SCAN_BATCH`. -/
def Obligations.ActiveLanesAreTheLowest : Prop :=
  ∀ s : State,
    1 ≤ activeCount s ∧ activeCount s ≤ batchSize s.conf.batch
      ∧ (∀ l : Lane, activeLane s l = true ↔ l.val < activeCount s)
      ∧ ∀ l : Lane, activeLane s l = true ↔
          l = 0 ∨ (l.val < batchSize s.conf.batch ∧ s.nonce.toNat + l.val < s.max.toNat)

/-- R227, R228, R229, R231, R204, R260: one iteration of the scan, on a verified table and primitives that behave; what it
raises without a running scan, and on an ill-formed table; and that a `CHAIN_FATAL` (code 4) inside its `CHAIN`, by an
ill-formed table or by a primitive that misbehaves in some stage, halts the CORE with HDR[19] and LN written and NONCE,
ATTEMPTS, QUAL, SCANST, SUBQ and CANCEL as they were. That the value of CANCEL at the poll comes from the list `polls`
where that is not empty, and that the flag holds it afterwards, is the model's choice (log 8). -/
def Obligations.ScIterTriesTheActiveLanes : Prop :=
  (∀ (s : State) (cnt : Nat) (dig : Lane → List Byte) (ok : Lane → Bool),
      s.scanst = .run → wfTable s.conf.stages = true → primsOk s.conf = true → MemOk s →
      cnt = activeCount s →
      (∀ l : Lane, dig l =
        chainHash s.conf (headerWith s.hdr (if l.val < cnt then s.nonce + BitVec.ofNat 32 l.val else s.nonce))) →
      (∀ l : Lane, ok l = (decide (l.val < cnt) && accept (wordsOfDigest (dig l)) s.tgt)) → ∃ t : State,
        exec .scIter s = .next t
          ∧ t = { s with
              a := t.a, b := t.b, bk := t.bk, k := t.k, k1 := t.k1, cfg := t.cfg, buf := t.buf, msg := t.msg,
              pbits := t.pbits, rem := t.rem, dg := t.dg, ctxst := .done, hb := t.hb, rb := t.rb, cd := t.cd,
              stage := 19, chst := .done,
              hdr := s.hdr.set 19 s.nonce,
              ln := Vector.ofFn fun l : Lane =>
                if l.val < cnt then s.nonce + BitVec.ofNat 32 l.val else s.nonce,
              qual := t.qual,
              subq := s.subq ++ ((List.finRange 4).filter ok).map fun l =>
                { nonce := s.nonce + BitVec.ofNat 32 l.val, digest := dig l },
              nonce := BitVec.ofNat 32 (s.nonce.toNat + cnt),
              attempts := BitVec.ofNat 32 (s.nonce.toNat + cnt) - s.first,
              cancel := polled s, polls := s.polls.tail,
              scanst := if s.max.toNat ≤ s.nonce.toNat + cnt then .exhausted
                else if polled s then .cancelled else .run }
          ∧ (∀ l : Lane, memRead t .cd l 0 32 = dig l)
          ∧ ∀ l : Lane, t.qual.getLsbD l.val = ok l)
    ∧ (∀ s : State, s.scanst ≠ .run → exec .scIter s = .next (faulted 6 s))
    ∧ (∀ s : State, s.scanst = .run → wfTable s.conf.stages = false →
        exec .scIter s = .next (faultedHalt 4 (nonceWritten s)))
    ∧ ∀ s u : State, s.scanst = .run → s.halted = false → exec .chain (nonceWritten s) = .next u → u.halted = true →
        exec .scIter s = .next u
          ∧ u.fault = s.fault ||| 0x10 ∧ u.hdr = s.hdr.set 19 s.nonce ∧ u.ln = (nonceWritten s).ln
          ∧ u.nonce = s.nonce ∧ u.attempts = s.attempts ∧ u.qual = s.qual ∧ u.scanst = .run ∧ u.subq = s.subq
          ∧ u.cancel = s.cancel ∧ u.polls = s.polls

/-- R109, R233, R234, R235: `SCAN` completes its first iteration, and the steps that follow end it, having tried the nonces
from FIRST on, each once, whatever the batch is, whatever the polls of CANCEL give, and whatever the host does meanwhile
but assert RESET; SUBQ receives exactly the events of the tried nonces, in ascending order, behind those it held, and
the host has removed some of them from the front, none if it asks for none. The steps, the host's list and `polls` are
the model's choice (log 2, 8, 9). -/
def Obligations.ScanTriesEachNonceOnce : Prop :=
  ∀ s : State, wfTable s.conf.stages = true → primsOk s.conf = true → MemOk s → s.cmd = .idle → s.halted = false →
    HostAct.reset ∉ s.inbox →
    ∃ (u t : State) (k n : Nat) (removed : List Submit), exec .scan s = .next u ∧ runSteps k u = .next t
      ∧ t.cmd = .idle ∧ 1 ≤ n ∧ n ≤ scanBound s
      ∧ removed ++ t.subq = s.subq ++ scanEvents s.conf s.hdr s.tgt s.first n
      ∧ (HostAct.take ∉ s.inbox → removed = [])
      ∧ t.attempts = BitVec.ofNat 32 n ∧ t.nonce = s.first + BitVec.ofNat 32 n
      ∧ (t.scanst = .exhausted ∧ n = scanBound s ∨ t.scanst = .cancelled ∧ s.first.toNat + n < s.max.toNat)
      ∧ t.ctxst = .done ∧ t.chst = .done ∧ t.stage = 19
      ∧ t.fault = s.fault ∧ t.halted = false ∧ t.tgt = s.tgt ∧ t.first = s.first ∧ t.max = s.max
      ∧ t.conf = s.conf ∧ ∀ i : Fin 20, i.val < 19 → t.hdr[i] = s.hdr[i]

/-- R234, R235, R109: with CANCEL held at 0 and a host that does nothing, a scan of a range that is not empty tries all of
it, in exactly `ceil((MAX − FIRST) / SCAN_BATCH)` iterations: the first in the step of `SCAN`, each other in a step of
its own, and in between a host read of SCANST gives `RUN`. The steps are the model's choice (log 9). -/
def Obligations.UncancelledScanCoversTheRange : Prop :=
  ∀ (s : State) (k : Nat), wfTable s.conf.stages = true → primsOk s.conf = true → MemOk s → s.cmd = .idle →
    s.halted = false → s.inbox = [] → s.polls = [] → s.cancel = false → s.first < s.max →
    k + 1 = (s.max.toNat - s.first.toNat + batchSize s.conf.batch - 1) / batchSize s.conf.batch →
    ∃ u t : State, exec .scan s = .next u ∧ runSteps k u = .next t
      ∧ t.cmd = .idle ∧ t.scanst = .exhausted ∧ t.nonce = s.max ∧ t.attempts = s.max - s.first
      ∧ t.subq = s.subq ++ scanEvents s.conf s.hdr s.tgt s.first (s.max.toNat - s.first.toNat)
      ∧ ∀ (j : Nat) (v : State), j < k → runSteps j u = .next v →
          v.cmd = .scan ∧ hostRead v .scanst = some 1
            ∧ v.attempts = BitVec.ofNat 32 ((j + 1) * batchSize s.conf.batch)

/-- R236, R227: with CANCEL held at 1 from before the scan, one iteration runs and the command has ended, whatever the range
is. Where the range is longer than the batch (1 or 4) the scan is cancelled and the attempts are the batch; where it is
not, the range is exhausted and the attempts are `max(1, MAX − FIRST)`. A nonce accepted in that iteration is still
submitted. -/
def Obligations.CancelledScanStopsAfterOneIteration : Prop :=
  ∀ s : State, wfTable s.conf.stages = true → primsOk s.conf = true → MemOk s → s.polls = [] → s.cancel = true →
    ∃ (t : State) (n : Nat), exec .scan s = .next t ∧ t.cmd = s.cmd
      ∧ (s.first.toNat + batchSize s.conf.batch < s.max.toNat →
          t.scanst = .cancelled ∧ n = batchSize s.conf.batch)
      ∧ (s.max.toNat ≤ s.first.toNat + batchSize s.conf.batch → t.scanst = .exhausted ∧ n = scanBound s)
      ∧ n ≤ batchSize s.conf.batch
      ∧ t.attempts = BitVec.ofNat 32 n ∧ t.nonce = s.first + BitVec.ofNat 32 n
      ∧ t.subq = s.subq ++ scanEvents s.conf s.hdr s.tgt s.first n

/-- R108, R233: `SCAN` is `SC.BEGIN` and one `SC.ITER`, each further step of it is one `SC.ITER`, and it stays in hand
exactly while SCANST = `RUN` and no fault ended it. So a scan the host leaves alone reaches, in as many steps as it makes
iterations, the state that `SC.BEGIN` and that many `SC.ITER`, issued one by one, reach; it ends with SCANST other than
`RUN` or with a halting fault; and before that SCANST is `RUN` after every iteration. It holds whatever the table and
the primitives are. The steps are the model's choice (log 9). -/
def Obligations.ScanEqualsItsExpansion : Prop :=
  (∀ s : State, s.halted = false → ∃ u : State,
      issueAll (scanWords 1) s = .next u
        ∧ exec .scan s = .next { u with cmd := if u.scanst = .run ∧ u.halted = false then .scan else s.cmd })
    ∧ (∀ s : State, s.cmd = .scan → s.inbox = [] → s.scanst = .run → s.halted = false → ∃ u : State,
      issueAll [0x43000000] { s with cmd := .idle } = .next u
        ∧ step s = .next { u with cmd := if u.scanst = .run ∧ u.halted = false then .scan else .idle })
    ∧ ∀ s : State, s.cmd = .word 0x41000000 → s.inbox = [] → s.halted = false → ∃ (n : Nat) (t : State),
      1 ≤ n ∧ n ≤ scanBound s ∧ runSteps n s = .next t
        ∧ t.cmd = .idle ∧ (t.scanst ≠ .run ∨ t.halted = true)
        ∧ issueAll (scanWords n) { s with cmd := .idle } = .next t
        ∧ ∀ m : Nat, 1 ≤ m → m < n → ∃ u : State,
            issueAll (scanWords m) { s with cmd := .idle } = .next u ∧ u.scanst = .run ∧ u.halted = false
              ∧ runSteps m s = .next { u with cmd := .scan }

/-! ## The whole machine -/

/-- R39, R41, R42, R43, R52, R54, R109: no instruction writes TGT, FIRST, MAX, HDR[0..18], the configuration, or CANCEL
(which changes during an instruction only where the outside world changes it, log 8), and only `SCAN` leaves a command in
hand; while a `SCAN` is in hand no step but RESET writes TGT, FIRST, MAX or HDR[0..18], the host's actions included; and
no step at all writes the configuration. -/
def Obligations.CoreNeverWritesHostState : Prop :=
  (∀ (i : Instr) (s t : State), exec i s = .next t →
      t.tgt = s.tgt ∧ t.first = s.first ∧ t.max = s.max ∧ (∀ j : Fin 20, j.val < 19 → t.hdr[j] = s.hdr[j])
        ∧ t.conf = s.conf ∧ (t.cmd = s.cmd ∨ i = .scan ∧ t.cmd = .scan) ∧ t.inbox = s.inbox
        ∧ (s.polls = [] → t.cancel = s.cancel))
    ∧ (∀ s t : State, s.cmd = .scan → s.inbox.head? ≠ some .reset → step s = .next t →
        t.tgt = s.tgt ∧ t.first = s.first ∧ t.max = s.max ∧ ∀ j : Fin 20, j.val < 19 → t.hdr[j] = s.hdr[j])
    ∧ ∀ s t : State, step s = .next t → t.conf = s.conf

/-- R241, R33, R38, R45: which instructions may change CHST and STAGE, SCANST and CTXST, and that no instruction
returns to `IDLE` or `NONE`. -/
def Obligations.SequencingRegistersFollowTheTable : Prop :=
  ∀ (i : Instr) (s t : State), exec i s = .next t →
    ((i ≠ .chBegin ∧ i ≠ .chStep ∧ i ≠ .chEnd ∧ i ≠ .chain ∧ i ≠ .scIter ∧ i ≠ .scan
          ∧ (∀ d, i ≠ .stgOrd d ∧ i ≠ .stgAes d ∧ i ≠ .stgLat d ∧ i ≠ .stgMh d)) →
        t.chst = s.chst ∧ t.stage = s.stage)
      ∧ ((i ≠ .scBegin ∧ i ≠ .scIter ∧ i ≠ .scan) → t.scanst = s.scanst)
      ∧ ((i ≠ .xtract ∧ i ≠ .chStep ∧ i ≠ .chain ∧ i ≠ .scIter ∧ i ≠ .scan
          ∧ (∀ n, i ≠ .ctxInit n ∧ i ≠ .finalize n) ∧ ∀ d, i ≠ .stgAes d) → t.ctxst = s.ctxst)
      ∧ (t.chst = .idle → s.chst = .idle) ∧ (t.scanst = .idle → s.scanst = .idle)
      ∧ (t.ctxst = .none → s.ctxst = .none)

/-- R25, R27, R33, R38, R47, R49, R53, R60, R197, R290: the invariant of the machine holds right after reset, and of every
state with the values reset specifies, whatever the registers without a specified value hold. Its memory clause speaks
of the form in which the model holds the byte spaces (log 5). -/
def Obligations.ResetSatisfiesTheInvariant : Prop :=
  Inv State.reset ∧ ∀ s : State, ResetValues s → MemOk s → Inv s

/-- R25, R27, R33, R38, R47, R49, R60, R109, R197: every step keeps the invariant. -/
def Obligations.StepKeepsTheInvariant : Prop := ∀ s t : State, Inv s → step s = .next t → Inv t

/-- R253, R261, R263, R266: in a state of the invariant no step stops: every fault of the hardware is a next state. -/
def Obligations.StepNeverStops : Prop := ∀ s : State, Inv s → ∃ t : State, step s = .next t

/-- R253, R266: in a state of the invariant every well-formed instruction answers a next state. -/
def Obligations.WellFormedInstructionsAnswer : Prop :=
  ∀ (i : Instr) (s : State), Inv s → i.wf = true → ∃ t : State, exec i s = .next t
end

