-- ==== Sys2Proof/Laws/State.lean ====
section
/-! SUPPORT. One lemma per field for every named update of the state. -/

namespace Sys2Proof.Machine

/-! ## `recordFault` -/

@[simp] theorem recordFault_a (h : HwFault) (s : State) : (recordFault h s).a = s.a := rfl
@[simp] theorem recordFault_b (h : HwFault) (s : State) : (recordFault h s).b = s.b := rfl
@[simp] theorem recordFault_bk (h : HwFault) (s : State) : (recordFault h s).bk = s.bk := rfl
@[simp] theorem recordFault_k (h : HwFault) (s : State) : (recordFault h s).k = s.k := rfl
@[simp] theorem recordFault_k1 (h : HwFault) (s : State) : (recordFault h s).k1 = s.k1 := rfl
@[simp] theorem recordFault_cfg (h : HwFault) (s : State) : (recordFault h s).cfg = s.cfg := rfl
@[simp] theorem recordFault_buf (h : HwFault) (s : State) : (recordFault h s).buf = s.buf := rfl
@[simp] theorem recordFault_msg (h : HwFault) (s : State) : (recordFault h s).msg = s.msg := rfl
@[simp] theorem recordFault_pbits (h : HwFault) (s : State) : (recordFault h s).pbits = s.pbits := rfl
@[simp] theorem recordFault_rem (h : HwFault) (s : State) : (recordFault h s).rem = s.rem := rfl
@[simp] theorem recordFault_dg (h : HwFault) (s : State) : (recordFault h s).dg = s.dg := rfl
@[simp] theorem recordFault_ctxst (h : HwFault) (s : State) : (recordFault h s).ctxst = s.ctxst := rfl
@[simp] theorem recordFault_hb (h : HwFault) (s : State) : (recordFault h s).hb = s.hb := rfl
@[simp] theorem recordFault_rb (h : HwFault) (s : State) : (recordFault h s).rb = s.rb := rfl
@[simp] theorem recordFault_cd (h : HwFault) (s : State) : (recordFault h s).cd = s.cd := rfl
@[simp] theorem recordFault_ln (h : HwFault) (s : State) : (recordFault h s).ln = s.ln := rfl
@[simp] theorem recordFault_stage (h : HwFault) (s : State) : (recordFault h s).stage = s.stage := rfl
@[simp] theorem recordFault_chst (h : HwFault) (s : State) : (recordFault h s).chst = s.chst := rfl
@[simp] theorem recordFault_hdr (h : HwFault) (s : State) : (recordFault h s).hdr = s.hdr := rfl
@[simp] theorem recordFault_tgt (h : HwFault) (s : State) : (recordFault h s).tgt = s.tgt := rfl
@[simp] theorem recordFault_first (h : HwFault) (s : State) : (recordFault h s).first = s.first := rfl
@[simp] theorem recordFault_max (h : HwFault) (s : State) : (recordFault h s).max = s.max := rfl
@[simp] theorem recordFault_cancel (h : HwFault) (s : State) : (recordFault h s).cancel = s.cancel := rfl
@[simp] theorem recordFault_nonce (h : HwFault) (s : State) : (recordFault h s).nonce = s.nonce := rfl
@[simp] theorem recordFault_attempts (h : HwFault) (s : State) : (recordFault h s).attempts = s.attempts := rfl
@[simp] theorem recordFault_scanst (h : HwFault) (s : State) : (recordFault h s).scanst = s.scanst := rfl
@[simp] theorem recordFault_qual (h : HwFault) (s : State) : (recordFault h s).qual = s.qual := rfl
@[simp] theorem recordFault_subq (h : HwFault) (s : State) : (recordFault h s).subq = s.subq := rfl
@[simp] theorem recordFault_fault (h : HwFault) (s : State) : (recordFault h s).fault = s.fault ||| h.bit := rfl
@[simp] theorem recordFault_halted (h : HwFault) (s : State) : (recordFault h s).halted = (s.halted || h.halting) := rfl
@[simp] theorem recordFault_cmd (h : HwFault) (s : State) : (recordFault h s).cmd = s.cmd := rfl
@[simp] theorem recordFault_conf (h : HwFault) (s : State) : (recordFault h s).conf = s.conf := rfl
@[simp] theorem recordFault_inbox (h : HwFault) (s : State) : (recordFault h s).inbox = s.inbox := rfl
@[simp] theorem recordFault_polls (h : HwFault) (s : State) : (recordFault h s).polls = s.polls := rfl

/-! ## `emptyCmd` -/

@[simp] theorem emptyCmd_a (s : State) : (emptyCmd s).a = s.a := rfl
@[simp] theorem emptyCmd_b (s : State) : (emptyCmd s).b = s.b := rfl
@[simp] theorem emptyCmd_bk (s : State) : (emptyCmd s).bk = s.bk := rfl
@[simp] theorem emptyCmd_k (s : State) : (emptyCmd s).k = s.k := rfl
@[simp] theorem emptyCmd_k1 (s : State) : (emptyCmd s).k1 = s.k1 := rfl
@[simp] theorem emptyCmd_cfg (s : State) : (emptyCmd s).cfg = s.cfg := rfl
@[simp] theorem emptyCmd_buf (s : State) : (emptyCmd s).buf = s.buf := rfl
@[simp] theorem emptyCmd_msg (s : State) : (emptyCmd s).msg = s.msg := rfl
@[simp] theorem emptyCmd_pbits (s : State) : (emptyCmd s).pbits = s.pbits := rfl
@[simp] theorem emptyCmd_rem (s : State) : (emptyCmd s).rem = s.rem := rfl
@[simp] theorem emptyCmd_dg (s : State) : (emptyCmd s).dg = s.dg := rfl
@[simp] theorem emptyCmd_ctxst (s : State) : (emptyCmd s).ctxst = s.ctxst := rfl
@[simp] theorem emptyCmd_hb (s : State) : (emptyCmd s).hb = s.hb := rfl
@[simp] theorem emptyCmd_rb (s : State) : (emptyCmd s).rb = s.rb := rfl
@[simp] theorem emptyCmd_cd (s : State) : (emptyCmd s).cd = s.cd := rfl
@[simp] theorem emptyCmd_ln (s : State) : (emptyCmd s).ln = s.ln := rfl
@[simp] theorem emptyCmd_stage (s : State) : (emptyCmd s).stage = s.stage := rfl
@[simp] theorem emptyCmd_chst (s : State) : (emptyCmd s).chst = s.chst := rfl
@[simp] theorem emptyCmd_hdr (s : State) : (emptyCmd s).hdr = s.hdr := rfl
@[simp] theorem emptyCmd_tgt (s : State) : (emptyCmd s).tgt = s.tgt := rfl
@[simp] theorem emptyCmd_first (s : State) : (emptyCmd s).first = s.first := rfl
@[simp] theorem emptyCmd_max (s : State) : (emptyCmd s).max = s.max := rfl
@[simp] theorem emptyCmd_cancel (s : State) : (emptyCmd s).cancel = s.cancel := rfl
@[simp] theorem emptyCmd_nonce (s : State) : (emptyCmd s).nonce = s.nonce := rfl
@[simp] theorem emptyCmd_attempts (s : State) : (emptyCmd s).attempts = s.attempts := rfl
@[simp] theorem emptyCmd_scanst (s : State) : (emptyCmd s).scanst = s.scanst := rfl
@[simp] theorem emptyCmd_qual (s : State) : (emptyCmd s).qual = s.qual := rfl
@[simp] theorem emptyCmd_subq (s : State) : (emptyCmd s).subq = s.subq := rfl
@[simp] theorem emptyCmd_fault (s : State) : (emptyCmd s).fault = s.fault := rfl
@[simp] theorem emptyCmd_halted (s : State) : (emptyCmd s).halted = s.halted := rfl
@[simp] theorem emptyCmd_cmd (s : State) : (emptyCmd s).cmd = .idle := rfl
@[simp] theorem emptyCmd_conf (s : State) : (emptyCmd s).conf = s.conf := rfl
@[simp] theorem emptyCmd_inbox (s : State) : (emptyCmd s).inbox = s.inbox := rfl
@[simp] theorem emptyCmd_polls (s : State) : (emptyCmd s).polls = s.polls := rfl

/-! ## `withInbox` -/

@[simp] theorem withInbox_a (s : State) (rest : List HostAct) : (withInbox s rest).a = s.a := rfl
@[simp] theorem withInbox_b (s : State) (rest : List HostAct) : (withInbox s rest).b = s.b := rfl
@[simp] theorem withInbox_bk (s : State) (rest : List HostAct) : (withInbox s rest).bk = s.bk := rfl
@[simp] theorem withInbox_k (s : State) (rest : List HostAct) : (withInbox s rest).k = s.k := rfl
@[simp] theorem withInbox_k1 (s : State) (rest : List HostAct) : (withInbox s rest).k1 = s.k1 := rfl
@[simp] theorem withInbox_cfg (s : State) (rest : List HostAct) : (withInbox s rest).cfg = s.cfg := rfl
@[simp] theorem withInbox_buf (s : State) (rest : List HostAct) : (withInbox s rest).buf = s.buf := rfl
@[simp] theorem withInbox_msg (s : State) (rest : List HostAct) : (withInbox s rest).msg = s.msg := rfl
@[simp] theorem withInbox_pbits (s : State) (rest : List HostAct) : (withInbox s rest).pbits = s.pbits := rfl
@[simp] theorem withInbox_rem (s : State) (rest : List HostAct) : (withInbox s rest).rem = s.rem := rfl
@[simp] theorem withInbox_dg (s : State) (rest : List HostAct) : (withInbox s rest).dg = s.dg := rfl
@[simp] theorem withInbox_ctxst (s : State) (rest : List HostAct) : (withInbox s rest).ctxst = s.ctxst := rfl
@[simp] theorem withInbox_hb (s : State) (rest : List HostAct) : (withInbox s rest).hb = s.hb := rfl
@[simp] theorem withInbox_rb (s : State) (rest : List HostAct) : (withInbox s rest).rb = s.rb := rfl
@[simp] theorem withInbox_cd (s : State) (rest : List HostAct) : (withInbox s rest).cd = s.cd := rfl
@[simp] theorem withInbox_ln (s : State) (rest : List HostAct) : (withInbox s rest).ln = s.ln := rfl
@[simp] theorem withInbox_stage (s : State) (rest : List HostAct) : (withInbox s rest).stage = s.stage := rfl
@[simp] theorem withInbox_chst (s : State) (rest : List HostAct) : (withInbox s rest).chst = s.chst := rfl
@[simp] theorem withInbox_hdr (s : State) (rest : List HostAct) : (withInbox s rest).hdr = s.hdr := rfl
@[simp] theorem withInbox_tgt (s : State) (rest : List HostAct) : (withInbox s rest).tgt = s.tgt := rfl
@[simp] theorem withInbox_first (s : State) (rest : List HostAct) : (withInbox s rest).first = s.first := rfl
@[simp] theorem withInbox_max (s : State) (rest : List HostAct) : (withInbox s rest).max = s.max := rfl
@[simp] theorem withInbox_cancel (s : State) (rest : List HostAct) : (withInbox s rest).cancel = s.cancel := rfl
@[simp] theorem withInbox_nonce (s : State) (rest : List HostAct) : (withInbox s rest).nonce = s.nonce := rfl
@[simp] theorem withInbox_attempts (s : State) (rest : List HostAct) : (withInbox s rest).attempts = s.attempts := rfl
@[simp] theorem withInbox_scanst (s : State) (rest : List HostAct) : (withInbox s rest).scanst = s.scanst := rfl
@[simp] theorem withInbox_qual (s : State) (rest : List HostAct) : (withInbox s rest).qual = s.qual := rfl
@[simp] theorem withInbox_subq (s : State) (rest : List HostAct) : (withInbox s rest).subq = s.subq := rfl
@[simp] theorem withInbox_fault (s : State) (rest : List HostAct) : (withInbox s rest).fault = s.fault := rfl
@[simp] theorem withInbox_halted (s : State) (rest : List HostAct) : (withInbox s rest).halted = s.halted := rfl
@[simp] theorem withInbox_cmd (s : State) (rest : List HostAct) : (withInbox s rest).cmd = s.cmd := rfl
@[simp] theorem withInbox_conf (s : State) (rest : List HostAct) : (withInbox s rest).conf = s.conf := rfl
@[simp] theorem withInbox_inbox (s : State) (rest : List HostAct) : (withInbox s rest).inbox = rest := rfl
@[simp] theorem withInbox_polls (s : State) (rest : List HostAct) : (withInbox s rest).polls = s.polls := rfl

/-! ## `takeEvent` -/

@[simp] theorem takeEvent_a (s : State) : (takeEvent s).a = s.a := rfl
@[simp] theorem takeEvent_b (s : State) : (takeEvent s).b = s.b := rfl
@[simp] theorem takeEvent_bk (s : State) : (takeEvent s).bk = s.bk := rfl
@[simp] theorem takeEvent_k (s : State) : (takeEvent s).k = s.k := rfl
@[simp] theorem takeEvent_k1 (s : State) : (takeEvent s).k1 = s.k1 := rfl
@[simp] theorem takeEvent_cfg (s : State) : (takeEvent s).cfg = s.cfg := rfl
@[simp] theorem takeEvent_buf (s : State) : (takeEvent s).buf = s.buf := rfl
@[simp] theorem takeEvent_msg (s : State) : (takeEvent s).msg = s.msg := rfl
@[simp] theorem takeEvent_pbits (s : State) : (takeEvent s).pbits = s.pbits := rfl
@[simp] theorem takeEvent_rem (s : State) : (takeEvent s).rem = s.rem := rfl
@[simp] theorem takeEvent_dg (s : State) : (takeEvent s).dg = s.dg := rfl
@[simp] theorem takeEvent_ctxst (s : State) : (takeEvent s).ctxst = s.ctxst := rfl
@[simp] theorem takeEvent_hb (s : State) : (takeEvent s).hb = s.hb := rfl
@[simp] theorem takeEvent_rb (s : State) : (takeEvent s).rb = s.rb := rfl
@[simp] theorem takeEvent_cd (s : State) : (takeEvent s).cd = s.cd := rfl
@[simp] theorem takeEvent_ln (s : State) : (takeEvent s).ln = s.ln := rfl
@[simp] theorem takeEvent_stage (s : State) : (takeEvent s).stage = s.stage := rfl
@[simp] theorem takeEvent_chst (s : State) : (takeEvent s).chst = s.chst := rfl
@[simp] theorem takeEvent_hdr (s : State) : (takeEvent s).hdr = s.hdr := rfl
@[simp] theorem takeEvent_tgt (s : State) : (takeEvent s).tgt = s.tgt := rfl
@[simp] theorem takeEvent_first (s : State) : (takeEvent s).first = s.first := rfl
@[simp] theorem takeEvent_max (s : State) : (takeEvent s).max = s.max := rfl
@[simp] theorem takeEvent_cancel (s : State) : (takeEvent s).cancel = s.cancel := rfl
@[simp] theorem takeEvent_nonce (s : State) : (takeEvent s).nonce = s.nonce := rfl
@[simp] theorem takeEvent_attempts (s : State) : (takeEvent s).attempts = s.attempts := rfl
@[simp] theorem takeEvent_scanst (s : State) : (takeEvent s).scanst = s.scanst := rfl
@[simp] theorem takeEvent_qual (s : State) : (takeEvent s).qual = s.qual := rfl
@[simp] theorem takeEvent_subq (s : State) : (takeEvent s).subq = s.subq.tail := rfl
@[simp] theorem takeEvent_fault (s : State) : (takeEvent s).fault = s.fault := rfl
@[simp] theorem takeEvent_halted (s : State) : (takeEvent s).halted = s.halted := rfl
@[simp] theorem takeEvent_cmd (s : State) : (takeEvent s).cmd = s.cmd := rfl
@[simp] theorem takeEvent_conf (s : State) : (takeEvent s).conf = s.conf := rfl
@[simp] theorem takeEvent_inbox (s : State) : (takeEvent s).inbox = s.inbox := rfl
@[simp] theorem takeEvent_polls (s : State) : (takeEvent s).polls = s.polls := rfl

/-! ## `padState` -/

@[simp] theorem padState_a (h : Hs) (n : BitVec 16) (s : State) : (padState h n s).a = s.a := rfl
@[simp] theorem padState_b (h : Hs) (n : BitVec 16) (s : State) : (padState h n s).b = s.b := rfl
@[simp] theorem padState_bk (h : Hs) (n : BitVec 16) (s : State) : (padState h n s).bk = s.bk := rfl
@[simp] theorem padState_k (h : Hs) (n : BitVec 16) (s : State) : (padState h n s).k = s.k := rfl
@[simp] theorem padState_k1 (h : Hs) (n : BitVec 16) (s : State) : (padState h n s).k1 = s.k1 := rfl
@[simp] theorem padState_cfg (h : Hs) (n : BitVec 16) (s : State) : (padState h n s).cfg = s.cfg := rfl
@[simp] theorem padState_buf (h : Hs) (n : BitVec 16) (s : State) : (padState h n s).buf = terminalBlock s.conf.lenHi h n (padPbits n s.pbits) s.msg s.buf := rfl
@[simp] theorem padState_msg (h : Hs) (n : BitVec 16) (s : State) : (padState h n s).msg = s.msg := rfl
@[simp] theorem padState_pbits (h : Hs) (n : BitVec 16) (s : State) : (padState h n s).pbits = padPbits n s.pbits := rfl
@[simp] theorem padState_rem (h : Hs) (n : BitVec 16) (s : State) : (padState h n s).rem = padRem h n := rfl
@[simp] theorem padState_dg (h : Hs) (n : BitVec 16) (s : State) : (padState h n s).dg = s.dg := rfl
@[simp] theorem padState_ctxst (h : Hs) (n : BitVec 16) (s : State) : (padState h n s).ctxst = s.ctxst := rfl
@[simp] theorem padState_hb (h : Hs) (n : BitVec 16) (s : State) : (padState h n s).hb = s.hb := rfl
@[simp] theorem padState_rb (h : Hs) (n : BitVec 16) (s : State) : (padState h n s).rb = s.rb := rfl
@[simp] theorem padState_cd (h : Hs) (n : BitVec 16) (s : State) : (padState h n s).cd = s.cd := rfl
@[simp] theorem padState_ln (h : Hs) (n : BitVec 16) (s : State) : (padState h n s).ln = s.ln := rfl
@[simp] theorem padState_stage (h : Hs) (n : BitVec 16) (s : State) : (padState h n s).stage = s.stage := rfl
@[simp] theorem padState_chst (h : Hs) (n : BitVec 16) (s : State) : (padState h n s).chst = s.chst := rfl
@[simp] theorem padState_hdr (h : Hs) (n : BitVec 16) (s : State) : (padState h n s).hdr = s.hdr := rfl
@[simp] theorem padState_tgt (h : Hs) (n : BitVec 16) (s : State) : (padState h n s).tgt = s.tgt := rfl
@[simp] theorem padState_first (h : Hs) (n : BitVec 16) (s : State) : (padState h n s).first = s.first := rfl
@[simp] theorem padState_max (h : Hs) (n : BitVec 16) (s : State) : (padState h n s).max = s.max := rfl
@[simp] theorem padState_cancel (h : Hs) (n : BitVec 16) (s : State) : (padState h n s).cancel = s.cancel := rfl
@[simp] theorem padState_nonce (h : Hs) (n : BitVec 16) (s : State) : (padState h n s).nonce = s.nonce := rfl
@[simp] theorem padState_attempts (h : Hs) (n : BitVec 16) (s : State) : (padState h n s).attempts = s.attempts := rfl
@[simp] theorem padState_scanst (h : Hs) (n : BitVec 16) (s : State) : (padState h n s).scanst = s.scanst := rfl
@[simp] theorem padState_qual (h : Hs) (n : BitVec 16) (s : State) : (padState h n s).qual = s.qual := rfl
@[simp] theorem padState_subq (h : Hs) (n : BitVec 16) (s : State) : (padState h n s).subq = s.subq := rfl
@[simp] theorem padState_fault (h : Hs) (n : BitVec 16) (s : State) : (padState h n s).fault = s.fault := rfl
@[simp] theorem padState_halted (h : Hs) (n : BitVec 16) (s : State) : (padState h n s).halted = s.halted := rfl
@[simp] theorem padState_cmd (h : Hs) (n : BitVec 16) (s : State) : (padState h n s).cmd = s.cmd := rfl
@[simp] theorem padState_conf (h : Hs) (n : BitVec 16) (s : State) : (padState h n s).conf = s.conf := rfl
@[simp] theorem padState_inbox (h : Hs) (n : BitVec 16) (s : State) : (padState h n s).inbox = s.inbox := rfl
@[simp] theorem padState_polls (h : Hs) (n : BitVec 16) (s : State) : (padState h n s).polls = s.polls := rfl

/-! ## `scBegun` -/

@[simp] theorem scBegun_a (s : State) : (scBegun s).a = s.a := rfl
@[simp] theorem scBegun_b (s : State) : (scBegun s).b = s.b := rfl
@[simp] theorem scBegun_bk (s : State) : (scBegun s).bk = s.bk := rfl
@[simp] theorem scBegun_k (s : State) : (scBegun s).k = s.k := rfl
@[simp] theorem scBegun_k1 (s : State) : (scBegun s).k1 = s.k1 := rfl
@[simp] theorem scBegun_cfg (s : State) : (scBegun s).cfg = s.cfg := rfl
@[simp] theorem scBegun_buf (s : State) : (scBegun s).buf = s.buf := rfl
@[simp] theorem scBegun_msg (s : State) : (scBegun s).msg = s.msg := rfl
@[simp] theorem scBegun_pbits (s : State) : (scBegun s).pbits = s.pbits := rfl
@[simp] theorem scBegun_rem (s : State) : (scBegun s).rem = s.rem := rfl
@[simp] theorem scBegun_dg (s : State) : (scBegun s).dg = s.dg := rfl
@[simp] theorem scBegun_ctxst (s : State) : (scBegun s).ctxst = s.ctxst := rfl
@[simp] theorem scBegun_hb (s : State) : (scBegun s).hb = s.hb := rfl
@[simp] theorem scBegun_rb (s : State) : (scBegun s).rb = s.rb := rfl
@[simp] theorem scBegun_cd (s : State) : (scBegun s).cd = s.cd := rfl
@[simp] theorem scBegun_ln (s : State) : (scBegun s).ln = s.ln := rfl
@[simp] theorem scBegun_stage (s : State) : (scBegun s).stage = s.stage := rfl
@[simp] theorem scBegun_chst (s : State) : (scBegun s).chst = s.chst := rfl
@[simp] theorem scBegun_hdr (s : State) : (scBegun s).hdr = s.hdr := rfl
@[simp] theorem scBegun_tgt (s : State) : (scBegun s).tgt = s.tgt := rfl
@[simp] theorem scBegun_first (s : State) : (scBegun s).first = s.first := rfl
@[simp] theorem scBegun_max (s : State) : (scBegun s).max = s.max := rfl
@[simp] theorem scBegun_cancel (s : State) : (scBegun s).cancel = s.cancel := rfl
@[simp] theorem scBegun_nonce (s : State) : (scBegun s).nonce = s.first := rfl
@[simp] theorem scBegun_attempts (s : State) : (scBegun s).attempts = 0 := rfl
@[simp] theorem scBegun_scanst (s : State) : (scBegun s).scanst = .run := rfl
@[simp] theorem scBegun_qual (s : State) : (scBegun s).qual = s.qual := rfl
@[simp] theorem scBegun_subq (s : State) : (scBegun s).subq = s.subq := rfl
@[simp] theorem scBegun_fault (s : State) : (scBegun s).fault = s.fault := rfl
@[simp] theorem scBegun_halted (s : State) : (scBegun s).halted = s.halted := rfl
@[simp] theorem scBegun_cmd (s : State) : (scBegun s).cmd = s.cmd := rfl
@[simp] theorem scBegun_conf (s : State) : (scBegun s).conf = s.conf := rfl
@[simp] theorem scBegun_inbox (s : State) : (scBegun s).inbox = s.inbox := rfl
@[simp] theorem scBegun_polls (s : State) : (scBegun s).polls = s.polls := rfl

/-! ## `scPrepare` -/

@[simp] theorem scPrepare_a (s : State) : (scPrepare s).a = s.a := rfl
@[simp] theorem scPrepare_b (s : State) : (scPrepare s).b = s.b := rfl
@[simp] theorem scPrepare_bk (s : State) : (scPrepare s).bk = s.bk := rfl
@[simp] theorem scPrepare_k (s : State) : (scPrepare s).k = s.k := rfl
@[simp] theorem scPrepare_k1 (s : State) : (scPrepare s).k1 = s.k1 := rfl
@[simp] theorem scPrepare_cfg (s : State) : (scPrepare s).cfg = s.cfg := rfl
@[simp] theorem scPrepare_buf (s : State) : (scPrepare s).buf = s.buf := rfl
@[simp] theorem scPrepare_msg (s : State) : (scPrepare s).msg = s.msg := rfl
@[simp] theorem scPrepare_pbits (s : State) : (scPrepare s).pbits = s.pbits := rfl
@[simp] theorem scPrepare_rem (s : State) : (scPrepare s).rem = s.rem := rfl
@[simp] theorem scPrepare_dg (s : State) : (scPrepare s).dg = s.dg := rfl
@[simp] theorem scPrepare_ctxst (s : State) : (scPrepare s).ctxst = s.ctxst := rfl
@[simp] theorem scPrepare_hb (s : State) : (scPrepare s).hb = s.hb := rfl
@[simp] theorem scPrepare_rb (s : State) : (scPrepare s).rb = s.rb := rfl
@[simp] theorem scPrepare_cd (s : State) : (scPrepare s).cd = s.cd := rfl
@[simp] theorem scPrepare_ln (s : State) : (scPrepare s).ln = Vector.ofFn fun l => laneNonce s.nonce (activeCount s) l := rfl
@[simp] theorem scPrepare_stage (s : State) : (scPrepare s).stage = s.stage := rfl
@[simp] theorem scPrepare_chst (s : State) : (scPrepare s).chst = s.chst := rfl
@[simp] theorem scPrepare_hdr (s : State) : (scPrepare s).hdr = s.hdr.set 19 s.nonce := rfl
@[simp] theorem scPrepare_tgt (s : State) : (scPrepare s).tgt = s.tgt := rfl
@[simp] theorem scPrepare_first (s : State) : (scPrepare s).first = s.first := rfl
@[simp] theorem scPrepare_max (s : State) : (scPrepare s).max = s.max := rfl
@[simp] theorem scPrepare_cancel (s : State) : (scPrepare s).cancel = s.cancel := rfl
@[simp] theorem scPrepare_nonce (s : State) : (scPrepare s).nonce = s.nonce := rfl
@[simp] theorem scPrepare_attempts (s : State) : (scPrepare s).attempts = s.attempts := rfl
@[simp] theorem scPrepare_scanst (s : State) : (scPrepare s).scanst = s.scanst := rfl
@[simp] theorem scPrepare_qual (s : State) : (scPrepare s).qual = s.qual := rfl
@[simp] theorem scPrepare_subq (s : State) : (scPrepare s).subq = s.subq := rfl
@[simp] theorem scPrepare_fault (s : State) : (scPrepare s).fault = s.fault := rfl
@[simp] theorem scPrepare_halted (s : State) : (scPrepare s).halted = s.halted := rfl
@[simp] theorem scPrepare_cmd (s : State) : (scPrepare s).cmd = s.cmd := rfl
@[simp] theorem scPrepare_conf (s : State) : (scPrepare s).conf = s.conf := rfl
@[simp] theorem scPrepare_inbox (s : State) : (scPrepare s).inbox = s.inbox := rfl
@[simp] theorem scPrepare_polls (s : State) : (scPrepare s).polls = s.polls := rfl

/-! ## `State.setGrid` and `State.setSpace` -/

@[simp] theorem setGrid_bk (s : State) (g : GridSel) (x : Grid) : (s.setGrid g x).bk = s.bk := by cases g <;> rfl
@[simp] theorem setGrid_k (s : State) (g : GridSel) (x : Grid) : (s.setGrid g x).k = s.k := by cases g <;> rfl
@[simp] theorem setGrid_k1 (s : State) (g : GridSel) (x : Grid) : (s.setGrid g x).k1 = s.k1 := by cases g <;> rfl
@[simp] theorem setGrid_cfg (s : State) (g : GridSel) (x : Grid) : (s.setGrid g x).cfg = s.cfg := by cases g <;> rfl
@[simp] theorem setGrid_buf (s : State) (g : GridSel) (x : Grid) : (s.setGrid g x).buf = s.buf := by cases g <;> rfl
@[simp] theorem setGrid_msg (s : State) (g : GridSel) (x : Grid) : (s.setGrid g x).msg = s.msg := by cases g <;> rfl
@[simp] theorem setGrid_pbits (s : State) (g : GridSel) (x : Grid) : (s.setGrid g x).pbits = s.pbits := by cases g <;> rfl
@[simp] theorem setGrid_rem (s : State) (g : GridSel) (x : Grid) : (s.setGrid g x).rem = s.rem := by cases g <;> rfl
@[simp] theorem setGrid_dg (s : State) (g : GridSel) (x : Grid) : (s.setGrid g x).dg = s.dg := by cases g <;> rfl
@[simp] theorem setGrid_ctxst (s : State) (g : GridSel) (x : Grid) : (s.setGrid g x).ctxst = s.ctxst := by cases g <;> rfl
@[simp] theorem setGrid_hb (s : State) (g : GridSel) (x : Grid) : (s.setGrid g x).hb = s.hb := by cases g <;> rfl
@[simp] theorem setGrid_rb (s : State) (g : GridSel) (x : Grid) : (s.setGrid g x).rb = s.rb := by cases g <;> rfl
@[simp] theorem setGrid_cd (s : State) (g : GridSel) (x : Grid) : (s.setGrid g x).cd = s.cd := by cases g <;> rfl
@[simp] theorem setGrid_ln (s : State) (g : GridSel) (x : Grid) : (s.setGrid g x).ln = s.ln := by cases g <;> rfl
@[simp] theorem setGrid_stage (s : State) (g : GridSel) (x : Grid) : (s.setGrid g x).stage = s.stage := by cases g <;> rfl
@[simp] theorem setGrid_chst (s : State) (g : GridSel) (x : Grid) : (s.setGrid g x).chst = s.chst := by cases g <;> rfl
@[simp] theorem setGrid_hdr (s : State) (g : GridSel) (x : Grid) : (s.setGrid g x).hdr = s.hdr := by cases g <;> rfl
@[simp] theorem setGrid_tgt (s : State) (g : GridSel) (x : Grid) : (s.setGrid g x).tgt = s.tgt := by cases g <;> rfl
@[simp] theorem setGrid_first (s : State) (g : GridSel) (x : Grid) : (s.setGrid g x).first = s.first := by cases g <;> rfl
@[simp] theorem setGrid_max (s : State) (g : GridSel) (x : Grid) : (s.setGrid g x).max = s.max := by cases g <;> rfl
@[simp] theorem setGrid_cancel (s : State) (g : GridSel) (x : Grid) : (s.setGrid g x).cancel = s.cancel := by cases g <;> rfl
@[simp] theorem setGrid_nonce (s : State) (g : GridSel) (x : Grid) : (s.setGrid g x).nonce = s.nonce := by cases g <;> rfl
@[simp] theorem setGrid_attempts (s : State) (g : GridSel) (x : Grid) : (s.setGrid g x).attempts = s.attempts := by cases g <;> rfl
@[simp] theorem setGrid_scanst (s : State) (g : GridSel) (x : Grid) : (s.setGrid g x).scanst = s.scanst := by cases g <;> rfl
@[simp] theorem setGrid_qual (s : State) (g : GridSel) (x : Grid) : (s.setGrid g x).qual = s.qual := by cases g <;> rfl
@[simp] theorem setGrid_subq (s : State) (g : GridSel) (x : Grid) : (s.setGrid g x).subq = s.subq := by cases g <;> rfl
@[simp] theorem setGrid_fault (s : State) (g : GridSel) (x : Grid) : (s.setGrid g x).fault = s.fault := by cases g <;> rfl
@[simp] theorem setGrid_halted (s : State) (g : GridSel) (x : Grid) : (s.setGrid g x).halted = s.halted := by cases g <;> rfl
@[simp] theorem setGrid_cmd (s : State) (g : GridSel) (x : Grid) : (s.setGrid g x).cmd = s.cmd := by cases g <;> rfl
@[simp] theorem setGrid_conf (s : State) (g : GridSel) (x : Grid) : (s.setGrid g x).conf = s.conf := by cases g <;> rfl
@[simp] theorem setGrid_inbox (s : State) (g : GridSel) (x : Grid) : (s.setGrid g x).inbox = s.inbox := by cases g <;> rfl
@[simp] theorem setGrid_polls (s : State) (g : GridSel) (x : Grid) : (s.setGrid g x).polls = s.polls := by cases g <;> rfl
@[simp] theorem setGrid_gridOf (s : State) (g : GridSel) (x : Grid) : (s.setGrid g x).gridOf g = x := by cases g <;> rfl
@[simp] theorem setGrid_gridOf_other (s : State) (g : GridSel) (x : Grid) :
    (s.setGrid g x).gridOf (otherGrid g) = s.gridOf (otherGrid g) := by cases g <;> rfl
@[simp] theorem setGrid_a_a (s : State) (x : Grid) : (s.setGrid .a x).a = x := rfl
@[simp] theorem setGrid_a_b (s : State) (x : Grid) : (s.setGrid .a x).b = s.b := rfl
@[simp] theorem setGrid_b_a (s : State) (x : Grid) : (s.setGrid .b x).a = s.a := rfl
@[simp] theorem setGrid_b_b (s : State) (x : Grid) : (s.setGrid .b x).b = x := rfl

@[simp] theorem setSpace_a (s : State) (sp : Space) (m : Vector Memory 4) : (s.setSpace sp m).a = s.a := by cases sp <;> rfl
@[simp] theorem setSpace_b (s : State) (sp : Space) (m : Vector Memory 4) : (s.setSpace sp m).b = s.b := by cases sp <;> rfl
@[simp] theorem setSpace_bk (s : State) (sp : Space) (m : Vector Memory 4) : (s.setSpace sp m).bk = s.bk := by cases sp <;> rfl
@[simp] theorem setSpace_k (s : State) (sp : Space) (m : Vector Memory 4) : (s.setSpace sp m).k = s.k := by cases sp <;> rfl
@[simp] theorem setSpace_k1 (s : State) (sp : Space) (m : Vector Memory 4) : (s.setSpace sp m).k1 = s.k1 := by cases sp <;> rfl
@[simp] theorem setSpace_cfg (s : State) (sp : Space) (m : Vector Memory 4) : (s.setSpace sp m).cfg = s.cfg := by cases sp <;> rfl
@[simp] theorem setSpace_buf (s : State) (sp : Space) (m : Vector Memory 4) : (s.setSpace sp m).buf = s.buf := by cases sp <;> rfl
@[simp] theorem setSpace_msg (s : State) (sp : Space) (m : Vector Memory 4) : (s.setSpace sp m).msg = s.msg := by cases sp <;> rfl
@[simp] theorem setSpace_pbits (s : State) (sp : Space) (m : Vector Memory 4) : (s.setSpace sp m).pbits = s.pbits := by cases sp <;> rfl
@[simp] theorem setSpace_rem (s : State) (sp : Space) (m : Vector Memory 4) : (s.setSpace sp m).rem = s.rem := by cases sp <;> rfl
@[simp] theorem setSpace_dg (s : State) (sp : Space) (m : Vector Memory 4) : (s.setSpace sp m).dg = s.dg := by cases sp <;> rfl
@[simp] theorem setSpace_ctxst (s : State) (sp : Space) (m : Vector Memory 4) : (s.setSpace sp m).ctxst = s.ctxst := by cases sp <;> rfl
@[simp] theorem setSpace_ln (s : State) (sp : Space) (m : Vector Memory 4) : (s.setSpace sp m).ln = s.ln := by cases sp <;> rfl
@[simp] theorem setSpace_stage (s : State) (sp : Space) (m : Vector Memory 4) : (s.setSpace sp m).stage = s.stage := by cases sp <;> rfl
@[simp] theorem setSpace_chst (s : State) (sp : Space) (m : Vector Memory 4) : (s.setSpace sp m).chst = s.chst := by cases sp <;> rfl
@[simp] theorem setSpace_hdr (s : State) (sp : Space) (m : Vector Memory 4) : (s.setSpace sp m).hdr = s.hdr := by cases sp <;> rfl
@[simp] theorem setSpace_tgt (s : State) (sp : Space) (m : Vector Memory 4) : (s.setSpace sp m).tgt = s.tgt := by cases sp <;> rfl
@[simp] theorem setSpace_first (s : State) (sp : Space) (m : Vector Memory 4) : (s.setSpace sp m).first = s.first := by cases sp <;> rfl
@[simp] theorem setSpace_max (s : State) (sp : Space) (m : Vector Memory 4) : (s.setSpace sp m).max = s.max := by cases sp <;> rfl
@[simp] theorem setSpace_cancel (s : State) (sp : Space) (m : Vector Memory 4) : (s.setSpace sp m).cancel = s.cancel := by cases sp <;> rfl
@[simp] theorem setSpace_nonce (s : State) (sp : Space) (m : Vector Memory 4) : (s.setSpace sp m).nonce = s.nonce := by cases sp <;> rfl
@[simp] theorem setSpace_attempts (s : State) (sp : Space) (m : Vector Memory 4) : (s.setSpace sp m).attempts = s.attempts := by cases sp <;> rfl
@[simp] theorem setSpace_scanst (s : State) (sp : Space) (m : Vector Memory 4) : (s.setSpace sp m).scanst = s.scanst := by cases sp <;> rfl
@[simp] theorem setSpace_qual (s : State) (sp : Space) (m : Vector Memory 4) : (s.setSpace sp m).qual = s.qual := by cases sp <;> rfl
@[simp] theorem setSpace_subq (s : State) (sp : Space) (m : Vector Memory 4) : (s.setSpace sp m).subq = s.subq := by cases sp <;> rfl
@[simp] theorem setSpace_fault (s : State) (sp : Space) (m : Vector Memory 4) : (s.setSpace sp m).fault = s.fault := by cases sp <;> rfl
@[simp] theorem setSpace_halted (s : State) (sp : Space) (m : Vector Memory 4) : (s.setSpace sp m).halted = s.halted := by cases sp <;> rfl
@[simp] theorem setSpace_cmd (s : State) (sp : Space) (m : Vector Memory 4) : (s.setSpace sp m).cmd = s.cmd := by cases sp <;> rfl
@[simp] theorem setSpace_conf (s : State) (sp : Space) (m : Vector Memory 4) : (s.setSpace sp m).conf = s.conf := by cases sp <;> rfl
@[simp] theorem setSpace_inbox (s : State) (sp : Space) (m : Vector Memory 4) : (s.setSpace sp m).inbox = s.inbox := by cases sp <;> rfl
@[simp] theorem setSpace_polls (s : State) (sp : Space) (m : Vector Memory 4) : (s.setSpace sp m).polls = s.polls := by cases sp <;> rfl
@[simp] theorem setSpace_space (s : State) (sp : Space) (m : Vector Memory 4) : (s.setSpace sp m).space sp = m := by
  cases sp <;> rfl
theorem setSpace_space_other (s : State) (sp sq : Space) (m : Vector Memory 4) (h : sq ≠ sp) :
    (s.setSpace sp m).space sq = s.space sq := by
  cases sp <;> cases sq <;> first | rfl | exact absurd rfl h

/-! ## `memWrite`, `pollCancel`, `scanGoesOn` -/

@[simp] theorem memWrite_a (s : State) (sp : Space) (n : Nat) (v : Lane → List Byte) : (memWrite s sp n v).a = s.a := setSpace_a s sp _
@[simp] theorem memWrite_b (s : State) (sp : Space) (n : Nat) (v : Lane → List Byte) : (memWrite s sp n v).b = s.b := setSpace_b s sp _
@[simp] theorem memWrite_bk (s : State) (sp : Space) (n : Nat) (v : Lane → List Byte) : (memWrite s sp n v).bk = s.bk := setSpace_bk s sp _
@[simp] theorem memWrite_k (s : State) (sp : Space) (n : Nat) (v : Lane → List Byte) : (memWrite s sp n v).k = s.k := setSpace_k s sp _
@[simp] theorem memWrite_k1 (s : State) (sp : Space) (n : Nat) (v : Lane → List Byte) : (memWrite s sp n v).k1 = s.k1 := setSpace_k1 s sp _
@[simp] theorem memWrite_cfg (s : State) (sp : Space) (n : Nat) (v : Lane → List Byte) : (memWrite s sp n v).cfg = s.cfg := setSpace_cfg s sp _
@[simp] theorem memWrite_buf (s : State) (sp : Space) (n : Nat) (v : Lane → List Byte) : (memWrite s sp n v).buf = s.buf := setSpace_buf s sp _
@[simp] theorem memWrite_msg (s : State) (sp : Space) (n : Nat) (v : Lane → List Byte) : (memWrite s sp n v).msg = s.msg := setSpace_msg s sp _
@[simp] theorem memWrite_pbits (s : State) (sp : Space) (n : Nat) (v : Lane → List Byte) : (memWrite s sp n v).pbits = s.pbits := setSpace_pbits s sp _
@[simp] theorem memWrite_rem (s : State) (sp : Space) (n : Nat) (v : Lane → List Byte) : (memWrite s sp n v).rem = s.rem := setSpace_rem s sp _
@[simp] theorem memWrite_dg (s : State) (sp : Space) (n : Nat) (v : Lane → List Byte) : (memWrite s sp n v).dg = s.dg := setSpace_dg s sp _
@[simp] theorem memWrite_ctxst (s : State) (sp : Space) (n : Nat) (v : Lane → List Byte) : (memWrite s sp n v).ctxst = s.ctxst := setSpace_ctxst s sp _
@[simp] theorem memWrite_ln (s : State) (sp : Space) (n : Nat) (v : Lane → List Byte) : (memWrite s sp n v).ln = s.ln := setSpace_ln s sp _
@[simp] theorem memWrite_stage (s : State) (sp : Space) (n : Nat) (v : Lane → List Byte) : (memWrite s sp n v).stage = s.stage := setSpace_stage s sp _
@[simp] theorem memWrite_chst (s : State) (sp : Space) (n : Nat) (v : Lane → List Byte) : (memWrite s sp n v).chst = s.chst := setSpace_chst s sp _
@[simp] theorem memWrite_hdr (s : State) (sp : Space) (n : Nat) (v : Lane → List Byte) : (memWrite s sp n v).hdr = s.hdr := setSpace_hdr s sp _
@[simp] theorem memWrite_tgt (s : State) (sp : Space) (n : Nat) (v : Lane → List Byte) : (memWrite s sp n v).tgt = s.tgt := setSpace_tgt s sp _
@[simp] theorem memWrite_first (s : State) (sp : Space) (n : Nat) (v : Lane → List Byte) : (memWrite s sp n v).first = s.first := setSpace_first s sp _
@[simp] theorem memWrite_max (s : State) (sp : Space) (n : Nat) (v : Lane → List Byte) : (memWrite s sp n v).max = s.max := setSpace_max s sp _
@[simp] theorem memWrite_cancel (s : State) (sp : Space) (n : Nat) (v : Lane → List Byte) : (memWrite s sp n v).cancel = s.cancel := setSpace_cancel s sp _
@[simp] theorem memWrite_nonce (s : State) (sp : Space) (n : Nat) (v : Lane → List Byte) : (memWrite s sp n v).nonce = s.nonce := setSpace_nonce s sp _
@[simp] theorem memWrite_attempts (s : State) (sp : Space) (n : Nat) (v : Lane → List Byte) : (memWrite s sp n v).attempts = s.attempts := setSpace_attempts s sp _
@[simp] theorem memWrite_scanst (s : State) (sp : Space) (n : Nat) (v : Lane → List Byte) : (memWrite s sp n v).scanst = s.scanst := setSpace_scanst s sp _
@[simp] theorem memWrite_qual (s : State) (sp : Space) (n : Nat) (v : Lane → List Byte) : (memWrite s sp n v).qual = s.qual := setSpace_qual s sp _
@[simp] theorem memWrite_subq (s : State) (sp : Space) (n : Nat) (v : Lane → List Byte) : (memWrite s sp n v).subq = s.subq := setSpace_subq s sp _
@[simp] theorem memWrite_fault (s : State) (sp : Space) (n : Nat) (v : Lane → List Byte) : (memWrite s sp n v).fault = s.fault := setSpace_fault s sp _
@[simp] theorem memWrite_halted (s : State) (sp : Space) (n : Nat) (v : Lane → List Byte) : (memWrite s sp n v).halted = s.halted := setSpace_halted s sp _
@[simp] theorem memWrite_cmd (s : State) (sp : Space) (n : Nat) (v : Lane → List Byte) : (memWrite s sp n v).cmd = s.cmd := setSpace_cmd s sp _
@[simp] theorem memWrite_conf (s : State) (sp : Space) (n : Nat) (v : Lane → List Byte) : (memWrite s sp n v).conf = s.conf := setSpace_conf s sp _
@[simp] theorem memWrite_inbox (s : State) (sp : Space) (n : Nat) (v : Lane → List Byte) : (memWrite s sp n v).inbox = s.inbox := setSpace_inbox s sp _
@[simp] theorem memWrite_polls (s : State) (sp : Space) (n : Nat) (v : Lane → List Byte) : (memWrite s sp n v).polls = s.polls := setSpace_polls s sp _
@[simp] theorem pollCancel_a (s : State) : (pollCancel s).2.a = s.a := by unfold pollCancel; split <;> rfl
@[simp] theorem pollCancel_b (s : State) : (pollCancel s).2.b = s.b := by unfold pollCancel; split <;> rfl
@[simp] theorem pollCancel_bk (s : State) : (pollCancel s).2.bk = s.bk := by unfold pollCancel; split <;> rfl
@[simp] theorem pollCancel_k (s : State) : (pollCancel s).2.k = s.k := by unfold pollCancel; split <;> rfl
@[simp] theorem pollCancel_k1 (s : State) : (pollCancel s).2.k1 = s.k1 := by unfold pollCancel; split <;> rfl
@[simp] theorem pollCancel_cfg (s : State) : (pollCancel s).2.cfg = s.cfg := by unfold pollCancel; split <;> rfl
@[simp] theorem pollCancel_buf (s : State) : (pollCancel s).2.buf = s.buf := by unfold pollCancel; split <;> rfl
@[simp] theorem pollCancel_msg (s : State) : (pollCancel s).2.msg = s.msg := by unfold pollCancel; split <;> rfl
@[simp] theorem pollCancel_pbits (s : State) : (pollCancel s).2.pbits = s.pbits := by unfold pollCancel; split <;> rfl
@[simp] theorem pollCancel_rem (s : State) : (pollCancel s).2.rem = s.rem := by unfold pollCancel; split <;> rfl
@[simp] theorem pollCancel_dg (s : State) : (pollCancel s).2.dg = s.dg := by unfold pollCancel; split <;> rfl
@[simp] theorem pollCancel_ctxst (s : State) : (pollCancel s).2.ctxst = s.ctxst := by unfold pollCancel; split <;> rfl
@[simp] theorem pollCancel_hb (s : State) : (pollCancel s).2.hb = s.hb := by unfold pollCancel; split <;> rfl
@[simp] theorem pollCancel_rb (s : State) : (pollCancel s).2.rb = s.rb := by unfold pollCancel; split <;> rfl
@[simp] theorem pollCancel_cd (s : State) : (pollCancel s).2.cd = s.cd := by unfold pollCancel; split <;> rfl
@[simp] theorem pollCancel_ln (s : State) : (pollCancel s).2.ln = s.ln := by unfold pollCancel; split <;> rfl
@[simp] theorem pollCancel_stage (s : State) : (pollCancel s).2.stage = s.stage := by unfold pollCancel; split <;> rfl
@[simp] theorem pollCancel_chst (s : State) : (pollCancel s).2.chst = s.chst := by unfold pollCancel; split <;> rfl
@[simp] theorem pollCancel_hdr (s : State) : (pollCancel s).2.hdr = s.hdr := by unfold pollCancel; split <;> rfl
@[simp] theorem pollCancel_tgt (s : State) : (pollCancel s).2.tgt = s.tgt := by unfold pollCancel; split <;> rfl
@[simp] theorem pollCancel_first (s : State) : (pollCancel s).2.first = s.first := by unfold pollCancel; split <;> rfl
@[simp] theorem pollCancel_max (s : State) : (pollCancel s).2.max = s.max := by unfold pollCancel; split <;> rfl
@[simp] theorem pollCancel_nonce (s : State) : (pollCancel s).2.nonce = s.nonce := by unfold pollCancel; split <;> rfl
@[simp] theorem pollCancel_attempts (s : State) : (pollCancel s).2.attempts = s.attempts := by unfold pollCancel; split <;> rfl
@[simp] theorem pollCancel_scanst (s : State) : (pollCancel s).2.scanst = s.scanst := by unfold pollCancel; split <;> rfl
@[simp] theorem pollCancel_qual (s : State) : (pollCancel s).2.qual = s.qual := by unfold pollCancel; split <;> rfl
@[simp] theorem pollCancel_subq (s : State) : (pollCancel s).2.subq = s.subq := by unfold pollCancel; split <;> rfl
@[simp] theorem pollCancel_fault (s : State) : (pollCancel s).2.fault = s.fault := by unfold pollCancel; split <;> rfl
@[simp] theorem pollCancel_halted (s : State) : (pollCancel s).2.halted = s.halted := by unfold pollCancel; split <;> rfl
@[simp] theorem pollCancel_cmd (s : State) : (pollCancel s).2.cmd = s.cmd := by unfold pollCancel; split <;> rfl
@[simp] theorem pollCancel_conf (s : State) : (pollCancel s).2.conf = s.conf := by unfold pollCancel; split <;> rfl
@[simp] theorem pollCancel_inbox (s : State) : (pollCancel s).2.inbox = s.inbox := by unfold pollCancel; split <;> rfl
@[simp] theorem scanGoesOn_a (s : State) : (scanGoesOn s).a = s.a := by unfold scanGoesOn; split <;> rfl
@[simp] theorem scanGoesOn_b (s : State) : (scanGoesOn s).b = s.b := by unfold scanGoesOn; split <;> rfl
@[simp] theorem scanGoesOn_bk (s : State) : (scanGoesOn s).bk = s.bk := by unfold scanGoesOn; split <;> rfl
@[simp] theorem scanGoesOn_k (s : State) : (scanGoesOn s).k = s.k := by unfold scanGoesOn; split <;> rfl
@[simp] theorem scanGoesOn_k1 (s : State) : (scanGoesOn s).k1 = s.k1 := by unfold scanGoesOn; split <;> rfl
@[simp] theorem scanGoesOn_cfg (s : State) : (scanGoesOn s).cfg = s.cfg := by unfold scanGoesOn; split <;> rfl
@[simp] theorem scanGoesOn_buf (s : State) : (scanGoesOn s).buf = s.buf := by unfold scanGoesOn; split <;> rfl
@[simp] theorem scanGoesOn_msg (s : State) : (scanGoesOn s).msg = s.msg := by unfold scanGoesOn; split <;> rfl
@[simp] theorem scanGoesOn_pbits (s : State) : (scanGoesOn s).pbits = s.pbits := by unfold scanGoesOn; split <;> rfl
@[simp] theorem scanGoesOn_rem (s : State) : (scanGoesOn s).rem = s.rem := by unfold scanGoesOn; split <;> rfl
@[simp] theorem scanGoesOn_dg (s : State) : (scanGoesOn s).dg = s.dg := by unfold scanGoesOn; split <;> rfl
@[simp] theorem scanGoesOn_ctxst (s : State) : (scanGoesOn s).ctxst = s.ctxst := by unfold scanGoesOn; split <;> rfl
@[simp] theorem scanGoesOn_hb (s : State) : (scanGoesOn s).hb = s.hb := by unfold scanGoesOn; split <;> rfl
@[simp] theorem scanGoesOn_rb (s : State) : (scanGoesOn s).rb = s.rb := by unfold scanGoesOn; split <;> rfl
@[simp] theorem scanGoesOn_cd (s : State) : (scanGoesOn s).cd = s.cd := by unfold scanGoesOn; split <;> rfl
@[simp] theorem scanGoesOn_ln (s : State) : (scanGoesOn s).ln = s.ln := by unfold scanGoesOn; split <;> rfl
@[simp] theorem scanGoesOn_stage (s : State) : (scanGoesOn s).stage = s.stage := by unfold scanGoesOn; split <;> rfl
@[simp] theorem scanGoesOn_chst (s : State) : (scanGoesOn s).chst = s.chst := by unfold scanGoesOn; split <;> rfl
@[simp] theorem scanGoesOn_hdr (s : State) : (scanGoesOn s).hdr = s.hdr := by unfold scanGoesOn; split <;> rfl
@[simp] theorem scanGoesOn_tgt (s : State) : (scanGoesOn s).tgt = s.tgt := by unfold scanGoesOn; split <;> rfl
@[simp] theorem scanGoesOn_first (s : State) : (scanGoesOn s).first = s.first := by unfold scanGoesOn; split <;> rfl
@[simp] theorem scanGoesOn_max (s : State) : (scanGoesOn s).max = s.max := by unfold scanGoesOn; split <;> rfl
@[simp] theorem scanGoesOn_cancel (s : State) : (scanGoesOn s).cancel = s.cancel := by unfold scanGoesOn; split <;> rfl
@[simp] theorem scanGoesOn_nonce (s : State) : (scanGoesOn s).nonce = s.nonce := by unfold scanGoesOn; split <;> rfl
@[simp] theorem scanGoesOn_attempts (s : State) : (scanGoesOn s).attempts = s.attempts := by unfold scanGoesOn; split <;> rfl
@[simp] theorem scanGoesOn_scanst (s : State) : (scanGoesOn s).scanst = s.scanst := by unfold scanGoesOn; split <;> rfl
@[simp] theorem scanGoesOn_qual (s : State) : (scanGoesOn s).qual = s.qual := by unfold scanGoesOn; split <;> rfl
@[simp] theorem scanGoesOn_fault (s : State) : (scanGoesOn s).fault = s.fault := by unfold scanGoesOn; split <;> rfl
@[simp] theorem scanGoesOn_halted (s : State) : (scanGoesOn s).halted = s.halted := by unfold scanGoesOn; split <;> rfl
@[simp] theorem scanGoesOn_subq (s : State) : (scanGoesOn s).subq = s.subq := by unfold scanGoesOn; split <;> rfl
@[simp] theorem scanGoesOn_cmd (s : State) : (scanGoesOn s).cmd = if s.scanst = .run then .scan else s.cmd := by
  unfold scanGoesOn; split <;> rfl
@[simp] theorem scanGoesOn_conf (s : State) : (scanGoesOn s).conf = s.conf := by unfold scanGoesOn; split <;> rfl
@[simp] theorem scanGoesOn_inbox (s : State) : (scanGoesOn s).inbox = s.inbox := by unfold scanGoesOn; split <;> rfl
@[simp] theorem scanGoesOn_polls (s : State) : (scanGoesOn s).polls = s.polls := by unfold scanGoesOn; split <;> rfl
@[simp] theorem stageClear_a (d : StageFields) (s : State) : (stageClear d s).a = s.a := by unfold stageClear; split <;> simp
@[simp] theorem stageClear_b (d : StageFields) (s : State) : (stageClear d s).b = s.b := by unfold stageClear; split <;> simp
@[simp] theorem stageClear_bk (d : StageFields) (s : State) : (stageClear d s).bk = s.bk := by unfold stageClear; split <;> simp
@[simp] theorem stageClear_k (d : StageFields) (s : State) : (stageClear d s).k = s.k := by unfold stageClear; split <;> simp
@[simp] theorem stageClear_k1 (d : StageFields) (s : State) : (stageClear d s).k1 = s.k1 := by unfold stageClear; split <;> simp
@[simp] theorem stageClear_cfg (d : StageFields) (s : State) : (stageClear d s).cfg = s.cfg := by unfold stageClear; split <;> simp
@[simp] theorem stageClear_buf (d : StageFields) (s : State) : (stageClear d s).buf = s.buf := by unfold stageClear; split <;> simp
@[simp] theorem stageClear_msg (d : StageFields) (s : State) : (stageClear d s).msg = s.msg := by unfold stageClear; split <;> simp
@[simp] theorem stageClear_pbits (d : StageFields) (s : State) : (stageClear d s).pbits = s.pbits := by unfold stageClear; split <;> simp
@[simp] theorem stageClear_rem (d : StageFields) (s : State) : (stageClear d s).rem = s.rem := by unfold stageClear; split <;> simp
@[simp] theorem stageClear_dg (d : StageFields) (s : State) : (stageClear d s).dg = s.dg := by unfold stageClear; split <;> simp
@[simp] theorem stageClear_ctxst (d : StageFields) (s : State) : (stageClear d s).ctxst = s.ctxst := by unfold stageClear; split <;> simp
@[simp] theorem stageClear_hb (d : StageFields) (s : State) : (stageClear d s).hb = s.hb := by unfold stageClear; split <;> rfl
@[simp] theorem stageClear_cd (d : StageFields) (s : State) : (stageClear d s).cd = s.cd := by unfold stageClear; split <;> rfl
@[simp] theorem stageClear_ln (d : StageFields) (s : State) : (stageClear d s).ln = s.ln := by unfold stageClear; split <;> simp
@[simp] theorem stageClear_stage (d : StageFields) (s : State) : (stageClear d s).stage = s.stage := by unfold stageClear; split <;> simp
@[simp] theorem stageClear_chst (d : StageFields) (s : State) : (stageClear d s).chst = s.chst := by unfold stageClear; split <;> simp
@[simp] theorem stageClear_hdr (d : StageFields) (s : State) : (stageClear d s).hdr = s.hdr := by unfold stageClear; split <;> simp
@[simp] theorem stageClear_tgt (d : StageFields) (s : State) : (stageClear d s).tgt = s.tgt := by unfold stageClear; split <;> simp
@[simp] theorem stageClear_first (d : StageFields) (s : State) : (stageClear d s).first = s.first := by unfold stageClear; split <;> simp
@[simp] theorem stageClear_max (d : StageFields) (s : State) : (stageClear d s).max = s.max := by unfold stageClear; split <;> simp
@[simp] theorem stageClear_cancel (d : StageFields) (s : State) : (stageClear d s).cancel = s.cancel := by unfold stageClear; split <;> simp
@[simp] theorem stageClear_nonce (d : StageFields) (s : State) : (stageClear d s).nonce = s.nonce := by unfold stageClear; split <;> simp
@[simp] theorem stageClear_attempts (d : StageFields) (s : State) : (stageClear d s).attempts = s.attempts := by unfold stageClear; split <;> simp
@[simp] theorem stageClear_scanst (d : StageFields) (s : State) : (stageClear d s).scanst = s.scanst := by unfold stageClear; split <;> simp
@[simp] theorem stageClear_qual (d : StageFields) (s : State) : (stageClear d s).qual = s.qual := by unfold stageClear; split <;> simp
@[simp] theorem stageClear_subq (d : StageFields) (s : State) : (stageClear d s).subq = s.subq := by unfold stageClear; split <;> simp
@[simp] theorem stageClear_fault (d : StageFields) (s : State) : (stageClear d s).fault = s.fault := by unfold stageClear; split <;> simp
@[simp] theorem stageClear_halted (d : StageFields) (s : State) : (stageClear d s).halted = s.halted := by unfold stageClear; split <;> simp
@[simp] theorem stageClear_cmd (d : StageFields) (s : State) : (stageClear d s).cmd = s.cmd := by unfold stageClear; split <;> simp
@[simp] theorem stageClear_conf (d : StageFields) (s : State) : (stageClear d s).conf = s.conf := by unfold stageClear; split <;> simp
@[simp] theorem stageClear_inbox (d : StageFields) (s : State) : (stageClear d s).inbox = s.inbox := by unfold stageClear; split <;> simp
@[simp] theorem stageClear_polls (d : StageFields) (s : State) : (stageClear d s).polls = s.polls := by unfold stageClear; split <;> simp

end Sys2Proof.Machine
end

