-- ==== Sys2Proof/Laws/Results.lean ====
section
/-! SUPPORT. What the outcome of a micro-operation, a sequence of them, the context check and a step can be. -/

namespace Sys2Proof.Machine

@[simp] theorem outcome_ok (d : Done) : outcome (.ok d) = .next d.st := rfl
@[simp] theorem outcome_error (e : Fault) : outcome (.error e) = .fault e := rfl
@[simp] theorem ran_st (s : State) : (ran s).st = s := rfl
@[simp] theorem ran_raised (s : State) : (ran s).raised = none := rfl
@[simp] theorem raise_st (h : HwFault) (s : State) : (raise h s).st = recordFault h s := rfl
@[simp] theorem raise_raised (h : HwFault) (s : State) : (raise h s).raised = some h := rfl

/-- A micro-operation answers a next state exactly when it has run. -/
theorem outcome_next_iff (r : Res) (t : State) : outcome r = .next t ↔ ∃ h, r = .ok ⟨t, h⟩ := by
  cases r with
  | error e => simp [outcome]
  | ok d => cases d; simp [outcome]

/-- No micro-operation is refused. -/
theorem outcome_ne_refused (r : Res) (x : Refusal) : outcome r ≠ .refused x := by
  cases r <;> simp [outcome]

@[simp] theorem andThen_error (e : Fault) (f : State → Res) : andThen (.error e) f = .error e := rfl
@[simp] theorem andThen_ran (s : State) (f : State → Res) : andThen (.ok (ran s)) f = f s := rfl
@[simp] theorem andThen_raise (h : HwFault) (s : State) (f : State → Res) :
    andThen (.ok (raise h s)) f = .ok (raise h s) := rfl
@[simp] theorem andThen_none (s : State) (f : State → Res) : andThen (.ok ⟨s, none⟩) f = f s := rfl
@[simp] theorem andThen_some (h : HwFault) (s : State) (f : State → Res) :
    andThen (.ok ⟨s, some h⟩) f = .ok ⟨s, some h⟩ := rfl

/-- A sequence has run exactly when its first part raised a fault, or ran and its second part has run. -/
theorem andThen_ok_iff (r : Res) (f : State → Res) (d : Done) :
    andThen r f = .ok d ↔ (∃ s, r = .ok (ran s) ∧ f s = .ok d) ∨ (∃ h, d.raised = some h ∧ r = .ok d) := by
  rcases r with e | ⟨s, _ | h⟩
  · simp
  · constructor
    · exact fun hf => .inl ⟨s, rfl, hf⟩
    · rintro (⟨u, hu, hf⟩ | ⟨h, hd, hr⟩)
      · cases hu; exact hf
      · cases hr; cases hd
  · constructor
    · rintro hf; cases hf; exact .inr ⟨h, rfl, rfl⟩
    · rintro (⟨u, hu, hf⟩ | ⟨g, hd, hr⟩)
      · cases hu
      · cases hr; rfl

/-- Sequencing is associative. -/
theorem andThen_assoc (r : Res) (f g : State → Res) :
    andThen (andThen r f) g = andThen r (fun s => andThen (f s) g) := by
  rcases r with e | ⟨s, _ | h⟩ <;> rfl

@[simp] theorem hsOfCfg_cfgWord (h : Hs) : hsOfCfg h.cfgWord = some h := by cases h <;> rfl

/-- CFG holds a configuration exactly when it is that configuration's word. -/
theorem hsOfCfg_eq_some (cfg : Word32) (h : Hs) : hsOfCfg cfg = some h ↔ cfg = h.cfgWord := by
  constructor
  · unfold hsOfCfg
    intro hh
    split at hh
    · cases hh; assumption
    · split at hh
      · cases hh; assumption
      · cases hh
  · rintro rfl; exact hsOfCfg_cfgWord h

@[simp] theorem cfgHS_cfgWord (h : Hs) : cfgHS h.cfgWord = h.bits := by cases h <;> rfl
@[simp] theorem cfgBLKW_cfgWord (h : Hs) : cfgBLKW h.cfgWord = h.blkw := by cases h <;> rfl
@[simp] theorem cfgROUNDS_cfgWord (h : Hs) : cfgROUNDS h.cfgWord = h.rounds := by cases h <;> rfl
@[simp] theorem cfgCC_cfgWord (h : Hs) : cfgCC h.cfgWord = h.cc := by cases h <;> rfl

/-- The context check in a `READY` context of width `h`. -/
theorem inContext_of_ready {s : State} {h : Hs} (hc : s.ctxst = .ready) (hw : s.cfg = h.cfgWord) (f : Hs → Done) :
    inContext s f = .ok (f h) := by
  simp [inContext, hc, hw]

/-- The context check without a `READY` context. -/
theorem inContext_of_not_ready {s : State} (hc : s.ctxst ≠ .ready) (f : Hs → Done) :
    inContext s f = .ok (raise .ctxState s) := by
  simp [inContext, hc]

/-- Everything the context check can do. -/
theorem inContext_cases (s : State) (f : Hs → Done) :
    (∃ h, s.ctxst = .ready ∧ s.cfg = h.cfgWord ∧ inContext s f = .ok (f h))
    ∨ (s.ctxst ≠ .ready ∧ inContext s f = .ok (raise .ctxState s))
    ∨ (s.ctxst = .ready ∧ (∀ h : Hs, s.cfg ≠ h.cfgWord) ∧ inContext s f = .error .configuration) := by
  by_cases hc : s.ctxst = .ready
  · cases hh : hsOfCfg s.cfg with
    | some h =>
      have hw := (hsOfCfg_eq_some _ _).1 hh
      exact .inl ⟨h, hc, hw, inContext_of_ready hc hw f⟩
    | none =>
      refine .inr (.inr ⟨hc, fun h hw => ?_, by simp [inContext, hc, hh]⟩)
      rw [hw, hsOfCfg_cfgWord] at hh
      cases hh
  · exact .inr (.inl ⟨hc, inContext_of_not_ready hc f⟩)

@[simp] theorem repeated_zero (f : State → Res) (s : State) : repeated f 0 s = .ok (ran s) := rfl
theorem repeated_succ (f : State → Res) (n : Nat) (s : State) :
    repeated f (n + 1) s = andThen (f s) (repeated f n) := rfl

/-- What a micro-operation keeps, a repetition keeps. -/
theorem repeated_keeps {P : State → Prop} {f : State → Res}
    (hf : ∀ s d, P s → f s = .ok d → P d.st) (n : Nat) :
    ∀ s d, P s → repeated f n s = .ok d → P d.st := by
  induction n with
  | zero => intro s d hs h; cases h; exact hs
  | succ n ih =>
    intro s d hs h
    rcases (andThen_ok_iff _ _ _).1 h with ⟨u, hu, hd⟩ | ⟨_, _, hd⟩
    · exact ih u d (hf s _ hs hu) hd
    · exact hf s d hs hd

/-- What both parts keep, a sequence keeps. -/
theorem andThen_keeps {P : State → Prop} {r : Res} {f : State → Res} {d : Done}
    (hr : ∀ e, r = .ok e → P e.st) (hf : ∀ s, P s → ∀ e, f s = .ok e → P e.st)
    (h : andThen r f = .ok d) : P d.st := by
  rcases (andThen_ok_iff _ _ _).1 h with ⟨u, hu, hd⟩ | ⟨_, _, hd⟩
  · exact hf u (hr _ hu) d hd
  · exact hr d hd

/-- Everything the issue of a word can do. -/
theorem issue_cases (cw : Word32) (s : State) :
    (s.halted = true ∧ issue cw s = .next s)
    ∨ (s.halted = false ∧ ∃ i, decodeCommand cw = .ok i ∧ issue cw s = exec i s)
    ∨ (s.halted = false ∧ ∃ e, decodeCommand cw = .error e ∧
        issue cw s = .next (recordFault (.illegalCmd cw) s)) := by
  unfold issue
  cases s.halted with
  | true => exact .inl ⟨rfl, rfl⟩
  | false =>
    cases hd : decodeCommand cw with
    | ok i => exact .inr (.inl ⟨rfl, i, rfl, rfl⟩)
    | error e => exact .inr (.inr ⟨rfl, e, rfl, rfl⟩)

/-- Everything a step can do: RESET abandons the command in hand, the word in CMD is issued, or the turn of a running
`SCAN` or of the host comes. -/
theorem step_cases (s : State) :
    (∃ rest, s.inbox = .reset :: rest ∧ step s = .next (resetSignal (withInbox s rest)))
    ∨ (s.inbox.head? ≠ some .reset ∧ ∃ cw, s.cmd = .word cw ∧ step s = issue cw (emptyCmd s))
    ∨ (s.inbox.head? ≠ some .reset ∧ s.cmd = .scan ∧ step s = scanStep s)
    ∨ (s.inbox.head? ≠ some .reset ∧ s.cmd = .idle ∧ step s = idleStep s) := by
  by_cases hr : s.inbox.head? = some .reset
  · obtain ⟨rest, hi⟩ : ∃ rest, s.inbox = .reset :: rest := List.head?_eq_some_iff.1 hr
    exact .inl ⟨rest, hi, by simp [step, advance, hi, hostAct]⟩
  · have hw : step s = workStep s := by
      unfold step advance
      split
      · rename_i rest hi; simp [hi] at hr
      · rfl
    right
    rw [hw]
    unfold workStep
    cases s.cmd with
    | word cw => exact .inl ⟨hr, cw, rfl, rfl⟩
    | scan => exact .inr (.inl ⟨hr, rfl, rfl⟩)
    | idle => exact .inr (.inr ⟨hr, rfl, rfl⟩)

/-- Everything a step with no command in hand can do. -/
theorem idleStep_cases (s : State) :
    (s.inbox = [] ∧ idleStep s = .next s)
    ∨ (∃ a rest, s.inbox = a :: rest ∧ idleStep s = .next (hostAct a (withInbox s rest))) := by
  unfold idleStep
  cases h : s.inbox with
  | nil => exact .inl ⟨rfl, rfl⟩
  | cons a rest => exact .inr ⟨a, rest, rfl, rfl⟩

/-- Everything a step between two iterations of `SCAN` can do. -/
theorem scanStep_cases (s : State) :
    (∃ a rest, s.inbox = a :: rest ∧ allowedInScan a = true ∧ scanStep s = .next (hostAct a (withInbox s rest)))
    ∨ (∃ rest, s.inbox = .wait :: rest ∧ scanStep s = nextIteration (withInbox s rest))
    ∨ ((∀ a ∈ s.inbox.head?, a ≠ .wait ∧ allowedInScan a = false) ∧ scanStep s = nextIteration s) := by
  unfold scanStep
  split
  · rename_i h; exact .inr (.inr ⟨by simp [h], rfl⟩)
  · rename_i rest h; exact .inr (.inl ⟨rest, h, rfl⟩)
  · rename_i a rest hw h
    by_cases ha : allowedInScan a = true
    · exact .inl ⟨a, rest, h, ha, by simp [ha]⟩
    · refine .inr (.inr ⟨?_, by simp [ha]⟩)
      intro b hb
      simp only [h, List.head?_cons, Option.mem_def, Option.some.injEq] at hb
      subst hb
      exact ⟨hw, by simpa using ha⟩

/-- Everything a poll can do (log 8). -/
theorem pollCancel_cases (s : State) :
    (s.polls = [] ∧ pollCancel s = (s.cancel, s))
    ∨ (∃ b rest, s.polls = b :: rest ∧ pollCancel s = (b, { s with cancel := b, polls := rest })) := by
  unfold pollCancel
  cases h : s.polls with
  | nil => exact .inl ⟨rfl, rfl⟩
  | cons b rest => exact .inr ⟨b, rest, rfl, rfl⟩

end Sys2Proof.Machine
end

