-- ==== Sys2Proof/Laws/Bytes.lean ====
section
/-! SUPPORT. Byte strings and integers (spec/00_scope.md R15), wide registers and grids read word by word. -/

namespace Sys2Proof.Machine

@[simp] theorem leBytes_length (n v : Nat) : (leBytes n v).length = n := by
  induction n generalizing v with
  | zero => rfl
  | succ n ih => simp [leBytes, ih]

@[simp] theorem beBytes_length (n v : Nat) : (beBytes n v).length = n := by simp [beBytes]

@[simp] theorem bytesOf_length (w : Word128) : (bytesOf w).length = 16 := by simp [bytesOf]

theorem leNat_lt (bs : List Byte) : leNat bs < 256 ^ bs.length := by
  induction bs with
  | nil => simp [leNat]
  | cons b bs ih =>
    have hb := b.isLt
    simp only [leNat, List.length_cons, Nat.pow_succ]
    omega

/-- `le` after `LE` is the value modulo `256^n`. -/
theorem leNat_leBytes (n v : Nat) : leNat (leBytes n v) = v % 256 ^ n := by
  induction n generalizing v with
  | zero => simp [leBytes, leNat, Nat.mod_one]
  | succ n ih =>
    have h8 : (BitVec.ofNat 8 v).toNat = v % 256 := rfl
    simp only [leBytes, leNat, ih, h8]
    rw [Nat.pow_succ, Nat.mul_comm (256 ^ n) 256, Nat.mod_mul]

/-- `LE` after `le` gives the bytes back. -/
theorem leBytes_leNat (bs : List Byte) : leBytes bs.length (leNat bs) = bs := by
  induction bs with
  | nil => rfl
  | cons b bs ih =>
    have hb := b.isLt
    have h1 : BitVec.ofNat 8 (b.toNat + 256 * leNat bs) = b := by
      apply BitVec.eq_of_toNat_eq; simp [Nat.add_mul_mod_self_left]; omega
    have h2 : (b.toNat + 256 * leNat bs) / 256 = leNat bs := by omega
    simp only [List.length_cons, leBytes, leNat, h1, h2, ih]

/-- `wordsOf` after `bytesOf`, for one word. -/
theorem wordAt_bytesOf (w : Word128) : wordAt (bytesOf w) 0 = w := by
  have h : (leBytes 16 w.toNat).take 16 = leBytes 16 w.toNat := List.take_of_length_le (by simp)
  apply BitVec.eq_of_toNat_eq
  have hw := w.isLt
  simp only [wordAt, bytesOf, Nat.mul_zero, List.drop_zero, h, leNat_leBytes, BitVec.toNat_ofNat]
  omega

/-- `bytesOf` after reading a word of 16 bytes. -/
theorem bytesOf_wordAt (bs : List Byte) (h : bs.length = 16) : bytesOf (wordAt bs 0) = bs := by
  have ht : bs.take 16 = bs := List.take_of_length_le (by omega)
  have hl := leNat_lt bs
  rw [h] at hl
  simp only [wordAt, Nat.mul_zero, List.drop_zero, ht, bytesOf, BitVec.toNat_ofNat]
  rw [Nat.mod_eq_of_lt (by omega), ← h, leBytes_leNat]

/-- Byte `k` of the integer a byte string stands for. -/
theorem leNat_div_mod (bs : List Byte) : ∀ k : Nat, leNat bs / 256 ^ k % 256 = (bs.getD k 0).toNat := by
  induction bs with
  | nil => intro k; simp [leNat]
  | cons b bs ih =>
    intro k
    have hb := b.isLt
    cases k with
    | zero => simp only [leNat, Nat.pow_zero, Nat.div_one, List.getD_cons_zero]; omega
    | succ k =>
      have h : (b.toNat + 256 * leNat bs) / 256 = leNat bs := by omega
      rw [leNat, Nat.pow_succ', ← Nat.div_div_eq_div_mul, h, ih k, List.getD_cons_succ]

/-- Byte `k` of word `w` of a byte string is byte `16w + k` of the string (00_scope.md R15). -/
theorem byteOf_wordAt (bs : List Byte) (w k : Nat) (hk : k < 16) :
    byteOf (wordAt bs w) k = bs.getD (16 * w + k) 0 := by
  have hlt : leNat ((bs.drop (16 * w)).take 16) < 2 ^ 128 := by
    refine Nat.lt_of_lt_of_le (leNat_lt _) ?_
    have : ((bs.drop (16 * w)).take 16).length ≤ 16 := by simp
    exact (Nat.pow_le_pow_right (by decide) this).trans (by decide)
  have hg : ((bs.drop (16 * w)).take 16).getD k 0 = bs.getD (16 * w + k) 0 := by
    simp [List.getD_eq_getElem?_getD, hk, List.getElem?_drop]
  apply BitVec.eq_of_toNat_eq
  rw [← hg, ← leNat_div_mod, byteOf, wordAt, BitVec.extractLsb'_toNat, BitVec.toNat_ofNat, Nat.mod_eq_of_lt hlt,
    Nat.shiftRight_eq_div_pow, Nat.pow_mul]

/-- Word `w` of two concatenated strings of whole words lies in the second from the first's length on. -/
theorem wordAt_append_right (xs ys : List Byte) (n w : Nat) (h : xs.length = 16 * n) (hw : n ≤ w) :
    wordAt (xs ++ ys) w = wordAt ys (w - n) := by
  unfold wordAt
  rw [List.drop_append, List.drop_eq_nil_of_le (by omega), List.nil_append,
    show 16 * w - xs.length = 16 * (w - n) by omega]

/-- Word `w` of a concatenation lies in the first string below its length. -/
theorem wordAt_append_left (xs ys : List Byte) (w : Nat) (h : 16 * w + 16 ≤ xs.length) :
    wordAt (xs ++ ys) w = wordAt xs w := by
  unfold wordAt
  rw [List.drop_append_of_le_length (by omega), List.take_append_of_le_length (by simp; omega)]

@[simp] theorem wide_getElem (f : Lane → Word128) (l : Lane) : (wide f)[l] = f l := by simp [wide]
@[simp] theorem wide_getElem_nat (f : Lane → Word128) (l : Nat) (h : l < 4) : (wide f)[l] = f ⟨l, h⟩ := by
  simp [wide]
@[simp] theorem splat_getElem (w : Word128) (l : Lane) : (splat w)[l] = w := by simp [splat]
@[simp] theorem splat_getElem_nat (w : Word128) (l : Nat) (h : l < 4) : (splat w)[l] = w := by simp [splat]
@[simp] theorem grid_getElem (f : Fin 4 → Fin 4 → Wide) (r c : Fin 4) : (grid f)[r][c] = f r c := by simp [grid]
@[simp] theorem grid_getElem_nat (f : Fin 4 → Fin 4 → Wide) (r c : Nat) (hr : r < 4) (hc : c < 4) :
    (grid f)[r][c] = f ⟨r, hr⟩ ⟨c, hc⟩ := by simp [grid]

end Sys2Proof.Machine
end

