-- ==== Sys2Proof/Laws/Context.lean ====
section
/-! SUPPORT. What each micro-operation of the context does, with and without a `READY` context, and what the
instructions call. -/

namespace Sys2Proof.Machine

/-! ## What an instruction calls -/

theorem exec_nop (s : State) : exec .nop s = outcome (.ok (ran s)) := rfl
theorem exec_ctxInit (imm : BitVec 16) (s : State) : exec (.ctxInit imm) s = outcome (ctxInit imm s) := rfl
theorem exec_ctrAdv (s : State) : exec .ctrAdv s = outcome (ctrAdv s) := rfl
theorem exec_ldm (src : BlockSrc) (s : State) : exec (.ldm src) s = outcome (ldm src s) := rfl
theorem exec_save (s : State) : exec .save s = outcome (save s) := rfl
theorem exec_subw (g : GridSel) (s : State) : exec (.subw g) s = outcome (subw g s) := rfl
theorem exec_mixb (g : GridSel) (s : State) : exec (.mixb g) s = outcome (mixb g s) := rfl
theorem exec_ffwd (s : State) : exec .ffwd s = outcome (ffwd s) := rfl
theorem exec_compress (src : BlockSrc) (s : State) : exec (.compress src) s = outcome (compress src s) := rfl
theorem exec_pad (n : BitVec 16) (s : State) : exec (.pad n) s = outcome (pad n s) := rfl
theorem exec_ctrFix (s : State) : exec .ctrFix s = outcome (ctrFix s) := rfl
theorem exec_xtract (s : State) : exec .xtract s = outcome (xtract s) := rfl
theorem exec_finalize (n : BitVec 16) (s : State) : exec (.finalize n) s = outcome (finalize n s) := rfl
theorem exec_chain (s : State) : exec .chain s = outcome (chain s) := rfl
theorem exec_chBegin (s : State) : exec .chBegin s = outcome (chBegin s) := rfl
theorem exec_chStep (s : State) : exec .chStep s = outcome (chStep s) := rfl
theorem exec_chEnd (s : State) : exec .chEnd s = outcome (chEnd s) := rfl
theorem exec_cmp (l : Lane) (s : State) : exec (.cmp l) s = outcome (cmp l s) := rfl
theorem exec_scan (s : State) : exec .scan s = outcome (scan s) := rfl
theorem exec_scBegin (s : State) : exec .scBegin s = outcome (scBegin s) := rfl
theorem exec_scIter (s : State) : exec .scIter s = outcome (scIter s) := rfl
theorem exec_stgOrd (d : StageFields) (s : State) : exec (.stgOrd d) s = outcome (externalStage d s) := rfl
theorem exec_stgAes (d : StageFields) (s : State) : exec (.stgAes d) s = outcome (aesStage d s) := rfl
theorem exec_stgLat (d : StageFields) (s : State) : exec (.stgLat d) s = outcome (externalStage d s) := rfl
theorem exec_stgMh (d : StageFields) (s : State) : exec (.stgMh d) s = outcome (externalStage d s) := rfl

/-! ## What a fault leaves -/

theorem recordFault_ctxState (s : State) : recordFault .ctxState s = faulted 2 s := by
  simp [recordFault, faulted, HwFault.bit, HwFault.code, HwFault.halting]
theorem recordFault_cfgError (imm : BitVec 16) (s : State) : recordFault (.cfgError imm) s = faulted 1 s := by
  simp [recordFault, faulted, HwFault.bit, HwFault.code, HwFault.halting]
theorem recordFault_badLength (n : BitVec 16) (s : State) : recordFault (.badLength n) s = faulted 3 s := by
  simp [recordFault, faulted, HwFault.bit, HwFault.code, HwFault.halting]
theorem recordFault_seqError (s : State) : recordFault .seqError s = faulted 6 s := by
  simp [recordFault, faulted, HwFault.bit, HwFault.code, HwFault.halting]
theorem recordFault_chainFatal (g : BitVec 5) (s : State) : recordFault (.chainFatal g) s = faultedHalt 4 s := by
  simp [recordFault, faultedHalt, HwFault.bit, HwFault.code, HwFault.halting]
theorem recordFault_illegalCmd (w : Word32) (s : State) : recordFault (.illegalCmd w) s = faultedHalt 5 s := by
  simp [recordFault, faultedHalt, HwFault.bit, HwFault.code, HwFault.halting]

/-! ## In a `READY` context -/

variable {h : Hs} {s : State}

theorem Ready.inContext (hr : Ready h s) (f : Hs → Done) : inContext s f = .ok (f h) := inContext_of_ready hr.1 hr.2 f

theorem ctrAdv_ready (hr : Ready h s) :
    ctrAdv s = .ok (ran { s with k := wide fun l => s.k[l] + BitVec.ofNat 128 h.blockInc }) := hr.inContext _
theorem ldm_ready (src : BlockSrc) (hr : Ready h s) :
    ldm src s = .ok (ran { s with a := loadedGrid h s.a (s.blockOf src) }) := hr.inContext _
theorem save_ready (hr : Ready h s) : save s = .ok (ran { s with bk := s.a, k1 := s.k }) := hr.inContext _
theorem subw_a_ready (hr : Ready h s) :
    subw .a s = .ok (ran { s with a := subGrid s.a s.k1, k1 := wide fun l => s.k1[l] + 16 }) := hr.inContext _
theorem subw_b_ready (hr : Ready h s) :
    subw .b s = .ok (ran { s with b := subGrid s.b s.k1, k1 := wide fun l => s.k1[l] + 16 }) := hr.inContext _
theorem mixb_a_ready (hr : Ready h s) : mixb .a s = .ok (ran { s with b := mixGrid s.a }) := hr.inContext _
theorem mixb_b_ready (hr : Ready h s) : mixb .b s = .ok (ran { s with a := mixGrid s.b }) := hr.inContext _
theorem ffwd_ready (hr : Ready h s) : ffwd s = .ok (ran { s with a := feedForward h s.a s.bk }) := hr.inContext _
theorem ctrFix_ready (hr : Ready h s) :
    ctrFix s = .ok (ran { s with k := wide fun l => s.k[l] + s.rem - BitVec.ofNat 128 h.blockInc }) :=
  hr.inContext _
theorem xtract_ready (hr : Ready h s) :
    xtract s = .ok (ran { s with dg := digestRegisters h s.a, ctxst := .done }) := hr.inContext _
theorem checkLength_ready (hr : Ready h s) (n : BitVec 16) :
    checkLength n s = .ok (if legalLength h n then ran s else raise (.badLength n) s) := hr.inContext _
theorem pad_ready (hr : Ready h s) (n : BitVec 16) :
    pad n s = .ok (if legalLength h n then ran (padState h n s) else raise (.badLength n) s) := hr.inContext _

/-! ## Without one -/

theorem ctrAdv_not_ready (hr : s.ctxst ≠ .ready) : ctrAdv s = .ok (raise .ctxState s) := inContext_of_not_ready hr _
theorem ldm_not_ready (src : BlockSrc) (hr : s.ctxst ≠ .ready) : ldm src s = .ok (raise .ctxState s) :=
  inContext_of_not_ready hr _
theorem save_not_ready (hr : s.ctxst ≠ .ready) : save s = .ok (raise .ctxState s) := inContext_of_not_ready hr _
theorem subw_not_ready (g : GridSel) (hr : s.ctxst ≠ .ready) : subw g s = .ok (raise .ctxState s) :=
  inContext_of_not_ready hr _
theorem mixb_not_ready (g : GridSel) (hr : s.ctxst ≠ .ready) : mixb g s = .ok (raise .ctxState s) :=
  inContext_of_not_ready hr _
theorem ffwd_not_ready (hr : s.ctxst ≠ .ready) : ffwd s = .ok (raise .ctxState s) := inContext_of_not_ready hr _
theorem ctrFix_not_ready (hr : s.ctxst ≠ .ready) : ctrFix s = .ok (raise .ctxState s) := inContext_of_not_ready hr _
theorem xtract_not_ready (hr : s.ctxst ≠ .ready) : xtract s = .ok (raise .ctxState s) := inContext_of_not_ready hr _
theorem checkLength_not_ready (n : BitVec 16) (hr : s.ctxst ≠ .ready) :
    checkLength n s = .ok (raise .ctxState s) := inContext_of_not_ready hr _
theorem pad_not_ready (n : BitVec 16) (hr : s.ctxst ≠ .ready) : pad n s = .ok (raise .ctxState s) :=
  inContext_of_not_ready hr _
theorem compress_not_ready (src : BlockSrc) (hr : s.ctxst ≠ .ready) : compress src s = .ok (raise .ctxState s) := by
  simp [compress, ctrAdv_not_ready hr]
theorem finalize_not_ready (n : BitVec 16) (hr : s.ctxst ≠ .ready) : finalize n s = .ok (raise .ctxState s) := by
  simp [finalize, checkLength_not_ready n hr]

/-! ## Construction -/

/-- A legal width constructs a `READY` context of that width. -/
theorem ctxInit_legal {imm : BitVec 16} {h : Hs} (hi : hsOfImm imm = some h) (s : State) :
    ctxInit imm s = .ok (ran { s with
      cfg := h.cfgWord, a := initialGrid h, k := splat 0, pbits := 0, rem := 0, ctxst := .ready }) := by
  simp [ctxInit, hi]

/-- Any other width leaves a dead context. -/
theorem ctxInit_illegal {imm : BitVec 16} (hi : hsOfImm imm = none) (s : State) :
    ctxInit imm s = .ok (raise (.cfgError imm) { s with cfg := 0, ctxst := .dead }) := by
  simp [ctxInit, hi]

@[simp] theorem hsOfImm_bits (h : Hs) : hsOfImm (BitVec.ofNat 16 h.bits) = some h := by cases h <;> rfl

end Sys2Proof.Machine
end

