-- ==== Sys2Proof/Laws/Memory.lean ====
section
/-! SUPPORT. The byte spaces: reads after writes, and the canonical form is kept by every operation. -/

namespace Sys2Proof.Machine

@[simp] theorem Memory.read_nil (a : Nat) : Memory.read [] a = 0 := rfl

theorem Memory.read_cons (k : Nat) (v : Byte) (m : Memory) (a : Nat) :
    Memory.read ((k, v) :: m) a = if k = a then v else Memory.read m a := rfl

theorem Memory.wfFrom_cons (lo k : Nat) (v : Byte) (m : Memory) :
    Memory.wfFrom lo ((k, v) :: m) = true ↔ lo ≤ k ∧ v ≠ 0 ∧ Memory.wfFrom (k + 1) m = true := by
  simp [Memory.wfFrom, and_assoc]

theorem Memory.wfFrom_mono {lo lo' : Nat} (h : lo' ≤ lo) :
    ∀ {m : Memory}, Memory.wfFrom lo m = true → Memory.wfFrom lo' m = true
  | [], _ => rfl
  | (k, v) :: m, hm => by
    rw [Memory.wfFrom_cons] at hm ⊢
    exact ⟨h.trans hm.1, hm.2⟩

/-- Below its first address a memory reads as zero. -/
theorem Memory.read_of_lt {lo a : Nat} (h : a < lo) :
    ∀ {m : Memory}, Memory.wfFrom lo m = true → Memory.read m a = 0
  | [], _ => rfl
  | (k, v) :: m, hm => by
    rw [Memory.wfFrom_cons] at hm
    have hk : k ≠ a := by omega
    rw [Memory.read_cons, if_neg hk]
    exact Memory.read_of_lt (by omega) hm.2.2

/-- Writing a byte keeps the canonical form. -/
theorem Memory.wfFrom_write {lo a : Nat} {b : Byte} (ha : lo ≤ a) :
    ∀ {m : Memory}, Memory.wfFrom lo m = true → Memory.wfFrom lo (Memory.write m a b) = true
  | [], _ => by
    unfold Memory.write
    split
    · rfl
    · rw [Memory.wfFrom_cons]; exact ⟨ha, by assumption, rfl⟩
  | (k, v) :: m, hm => by
    have hm' := (Memory.wfFrom_cons lo k v m).1 hm
    unfold Memory.write
    split
    · split
      · exact hm
      · rw [Memory.wfFrom_cons, Memory.wfFrom_cons]
        exact ⟨ha, by assumption, by omega, hm'.2⟩
    · split
      · subst a
        split
        · exact Memory.wfFrom_mono (by omega) hm'.2.2
        · rw [Memory.wfFrom_cons]; exact ⟨ha, by assumption, hm'.2.2⟩
      · rw [Memory.wfFrom_cons]
        exact ⟨hm'.1, hm'.2.1, Memory.wfFrom_write (by omega) hm'.2.2⟩

theorem Memory.wf_write {m : Memory} (h : Memory.wf m = true) (a : Nat) (b : Byte) :
    Memory.wf (Memory.write m a b) = true := Memory.wfFrom_write (Nat.zero_le a) h

/-- A byte read where it was written. -/
theorem Memory.read_write_same {lo a : Nat} {b : Byte} :
    ∀ {m : Memory}, Memory.wfFrom lo m = true → Memory.read (Memory.write m a b) a = b
  | [], _ => by
    unfold Memory.write
    split <;> simp_all [Memory.read]
  | (k, v) :: m, hm => by
    have hm' := (Memory.wfFrom_cons lo k v m).1 hm
    unfold Memory.write
    split
    · have hk : k ≠ a := by omega
      split
      · subst b
        rw [Memory.read_cons, if_neg hk]
        exact Memory.read_of_lt (by omega) hm'.2.2
      · simp [Memory.read]
    · split
      · subst a
        split
        · subst b; exact Memory.read_of_lt (by omega) hm'.2.2
        · simp [Memory.read]
      · have hk : k ≠ a := by omega
        rw [Memory.read_cons, if_neg hk]
        exact Memory.read_write_same hm'.2.2

/-- A byte read elsewhere is as before. -/
theorem Memory.read_write_other {a x : Nat} {b : Byte} (hx : x ≠ a) :
    ∀ (m : Memory), Memory.read (Memory.write m a b) x = Memory.read m x
  | [] => by
    unfold Memory.write
    split
    · rfl
    · rw [Memory.read_cons, if_neg (Ne.symm hx)]
  | (k, v) :: m => by
    unfold Memory.write
    split
    · split
      · rfl
      · rw [Memory.read_cons, if_neg (Ne.symm hx)]
    · split
      · subst a
        split
        · rw [Memory.read_cons, if_neg (Ne.symm hx)]
        · rw [Memory.read_cons, Memory.read_cons, if_neg (Ne.symm hx), if_neg (Ne.symm hx)]
      · rw [Memory.read_cons, Memory.read_cons, Memory.read_write_other hx m]

/-- The canonical form is unique: memories in it that read alike are equal. -/
theorem Memory.ext_of_wfFrom {lo : Nat} :
    ∀ {m n : Memory}, Memory.wfFrom lo m = true → Memory.wfFrom lo n = true →
      (∀ a, Memory.read m a = Memory.read n a) → m = n
  | [], [], _, _, _ => rfl
  | [], (k, v) :: n, _, hn, h => by
    have hv := ((Memory.wfFrom_cons _ _ _ _).1 hn).2.1
    have := h k
    simp [Memory.read] at this
    exact absurd this.symm hv
  | (k, v) :: m, [], hm, _, h => by
    have hv := ((Memory.wfFrom_cons _ _ _ _).1 hm).2.1
    have := h k
    simp [Memory.read] at this
    exact absurd this hv
  | (k, v) :: m, (j, w) :: n, hm, hn, h => by
    have hm' := (Memory.wfFrom_cons _ _ _ _).1 hm
    have hn' := (Memory.wfFrom_cons _ _ _ _).1 hn
    have hkj : k = j := by
      rcases Nat.lt_trichotomy k j with hlt | heq | hgt
      · have hk := h k
        rw [Memory.read_cons, if_pos rfl, Memory.read_cons, if_neg (by omega),
          Memory.read_of_lt (by omega) hn'.2.2] at hk
        exact absurd hk hm'.2.1
      · exact heq
      · have hj := h j
        rw [Memory.read_cons, if_neg (by omega), Memory.read_of_lt (by omega) hm'.2.2,
          Memory.read_cons, if_pos rfl] at hj
        exact absurd hj.symm hn'.2.1
    subst hkj
    have hvw : v = w := by simpa [Memory.read] using h k
    subst hvw
    have hrest : m = n := by
      refine Memory.ext_of_wfFrom hm'.2.2 hn'.2.2 fun a => ?_
      by_cases ha : k = a
      · subst ha
        rw [Memory.read_of_lt (by omega) hm'.2.2, Memory.read_of_lt (by omega) hn'.2.2]
      · simpa [Memory.read, ha] using h a
    rw [hrest]

theorem Memory.below_nil (n : Nat) : Memory.below n [] = true := rfl

theorem Memory.below_cons (n k : Nat) (v : Byte) (m : Memory) :
    Memory.below n ((k, v) :: m) = true ↔ k < n ∧ Memory.below n m = true := by
  unfold Memory.below
  rw [List.all_cons, Bool.and_eq_true, decide_eq_true_iff]

theorem Memory.below_write {n a : Nat} {b : Byte} (ha : a < n) :
    ∀ {m : Memory}, Memory.below n m = true → Memory.below n (Memory.write m a b) = true
  | [], _ => by
    unfold Memory.write
    split
    · rfl
    · rw [Memory.below_cons]; exact ⟨ha, rfl⟩
  | (k, v) :: m, hm => by
    have hk := (Memory.below_cons n k v m).1 hm
    unfold Memory.write
    split
    · split
      · exact hm
      · rw [Memory.below_cons]; exact ⟨ha, hm⟩
    · split
      · split
        · exact hk.2
        · rw [Memory.below_cons]; exact ⟨ha, hk.2⟩
      · rw [Memory.below_cons]; exact ⟨hk.1, Memory.below_write ha hk.2⟩

theorem Memory.wf_store (bs : List Byte) :
    ∀ {m : Memory} (a : Nat), Memory.wf m = true → Memory.wf (Memory.store m a bs) = true := by
  induction bs with
  | nil => exact fun _ h => h
  | cons b bs ih => exact fun a h => ih (a + 1) (Memory.wf_write h a b)

theorem Memory.below_store {n : Nat} (bs : List Byte) :
    ∀ {m : Memory} (a : Nat), a + bs.length ≤ n → Memory.below n m = true →
      Memory.below n (Memory.store m a bs) = true := by
  induction bs with
  | nil => exact fun _ _ h => h
  | cons b bs ih =>
    intro m a ha h
    rw [List.length_cons] at ha
    exact ih (a + 1) (by omega) (Memory.below_write (by omega) h)

/-- What a byte reads after a byte string was written. -/
theorem Memory.read_store (bs : List Byte) :
    ∀ {m : Memory} (a x : Nat), Memory.wf m = true →
      Memory.read (Memory.store m a bs) x =
        if a ≤ x ∧ x < a + bs.length then bs.getD (x - a) 0 else Memory.read m x := by
  induction bs with
  | nil =>
    intro m a x _
    rw [if_neg (by simp only [List.length_nil]; omega)]
    rfl
  | cons b bs ih =>
    intro m a x h
    show Memory.read (Memory.store (Memory.write m a b) (a + 1) bs) x = _
    rw [ih (a + 1) x (Memory.wf_write h a b), List.length_cons]
    by_cases hx : x = a
    · subst hx
      rw [if_neg (by omega), if_pos (by omega), Memory.read_write_same h]
      simp
    · rw [Memory.read_write_other hx]
      by_cases hin : a + 1 ≤ x ∧ x < a + 1 + bs.length
      · rw [if_pos hin, if_pos (by omega)]
        have : x - a = (x - (a + 1)) + 1 := by omega
        rw [this, List.getD_cons_succ]
      · rw [if_neg hin, if_neg (by omega)]

@[simp] theorem Memory.load_length (m : Memory) (a n : Nat) : (Memory.load m a n).length = n := by
  simp [Memory.load]

theorem Memory.load_getD (m : Memory) (a n i : Nat) (h : i < n) :
    (Memory.load m a n).getD i 0 = Memory.read m (a + i) := by
  simp [Memory.load, List.getD, h]

/-- Reading back what was written. -/
theorem Memory.load_store_same {m : Memory} (h : Memory.wf m = true) (a : Nat) (bs : List Byte) :
    Memory.load (Memory.store m a bs) a bs.length = bs := by
  apply List.ext_getElem
  · simp
  · intro i h1 h2
    simp [Memory.load, Memory.read_store bs a (a + i) h, h2]

/-- Two loads agree when every byte does. -/
theorem Memory.load_congr {m n : Memory} {a b k : Nat}
    (h : ∀ i, i < k → Memory.read m (a + i) = Memory.read n (b + i)) :
    Memory.load m a k = Memory.load n b k := by
  unfold Memory.load
  exact List.map_congr_left fun i hi => h i (List.mem_range.1 hi)

/-- `MemWrite`: what every byte of every space reads afterwards. -/
theorem memWrite_byteAt {s : State} {sp : Space} (hwf : ∀ l : Lane, Memory.wf (s.space sp)[l] = true)
    (a : Nat) (v : Lane → List Byte) (sq : Space) (l : Lane) (x : Nat) :
    (memWrite s sp a v).byteAt sq l x =
      if sq = sp ∧ a ≤ x ∧ x < a + (v l).length then (v l).getD (x - a) 0 else s.byteAt sq l x := by
  by_cases hq : sq = sp
  · subst hq
    simp only [State.byteAt, memWrite, setSpace_space, true_and, Fin.getElem_fin, Vector.getElem_ofFn]
    exact Memory.read_store (v l) a x (hwf l)
  · rw [if_neg (fun h => hq h.1)]
    simp only [State.byteAt, memWrite, setSpace_space_other _ _ _ _ hq]

/-- `MemWrite` keeps every space canonical and inside its bounds. -/
theorem memWrite_wf {s : State} {sp : Space} {a n : Nat} {v : Lane → List Byte}
    (hv : ∀ l, (v l).length = n) (hin : a + n ≤ sp.size)
    (h : ∀ (sq : Space) (l : Lane), Memory.wf (s.space sq)[l] = true ∧ Memory.below sq.size (s.space sq)[l] = true)
    (sq : Space) (l : Lane) :
    Memory.wf ((memWrite s sp a v).space sq)[l] = true
      ∧ Memory.below sq.size ((memWrite s sp a v).space sq)[l] = true := by
  by_cases hq : sq = sp
  · subst hq
    simp only [memWrite, setSpace_space, Fin.getElem_fin, Vector.getElem_ofFn]
    exact ⟨Memory.wf_store _ _ (h sq l).1, Memory.below_store _ _ (by rw [hv l]; exact hin) (h sq l).2⟩
  · simp only [memWrite, setSpace_space_other _ _ _ _ hq]
    exact h sq l

@[simp] theorem memRead_length (s : State) (sp : Space) (l : Lane) (a n : Nat) :
    (memRead s sp l a n).length = n := Memory.load_length _ a n

/-- The memory of `State.reset` is canonical and lies inside its bounds. -/
theorem reset_memory_wf (sp : Space) (l : Lane) :
    Memory.wf (State.reset.space sp)[l] = true ∧ Memory.below sp.size (State.reset.space sp)[l] = true := by
  cases sp <;> simp [State.space, State.reset, Memory.wf, Memory.wfFrom, Memory.below]

end Sys2Proof.Machine
end

