-- ==== Sys2Proof/Laws/StageTable.lean ====
section
/-! SUPPORT. What a verified stage table gives each of its entries (spec/43_chain_orchestrator.md R196), and the length
of a primitive's answer (R204). -/

namespace Sys2Proof.Machine

theorem everyEntry_iff (p : Fin 19 → Bool) : everyEntry p = true ↔ ∀ i, p i = true := by
  simp [everyEntry]

/-- The ten conditions, one by one. -/
theorem wfTable_iff (t : StageTable) :
    wfTable t = true ↔ wfW1 t = true ∧ wfW2 t = true ∧ wfW3 t = true ∧ wfW4 t = true ∧ wfW5 t = true
      ∧ wfW6 t = true ∧ wfW7 t = true ∧ wfW8 t = true ∧ wfW9 t = true ∧ wfW10 t = true := by
  simp only [wfTable, Bool.and_eq_true, and_assoc]

variable {t : StageTable}

/-- W5. -/
theorem wfTable_inOff (h : wfTable t = true) (i : Fin 19) : (fieldsAt t i).inOff = 0 := by
  have := (everyEntry_iff _).1 ((wfTable_iff t).1 h).2.2.2.2.1 i
  simpa using this

/-- W1. -/
theorem wfTable_reserved (h : wfTable t = true) (i : Fin 19) : descriptorReserved t[i] = 0 := by
  have := (everyEntry_iff _).1 ((wfTable_iff t).1 h).1 i
  rw [Bool.and_eq_true] at this
  simpa using this.1

/-- W3: the first entry reads the header. -/
theorem wfTable_first (h : wfTable t = true) : (fieldsAt t 0).src = .hb ∧ (fieldsAt t 0).inLen = 80 := by
  have := ((wfTable_iff t).1 h).2.2.1
  simp only [wfW3, Bool.and_eq_true, beq_iff_eq] at this
  exact ⟨this.1.1.1, this.1.2⟩

/-- W3: every other entry reads RB. -/
theorem wfTable_src (h : wfTable t = true) {i : Fin 19} (hi : i ≠ 0) : (fieldsAt t i).src = .rb := by
  have := ((wfTable_iff t).1 h).2.2.1
  simp only [wfW3, Bool.and_eq_true] at this
  simpa [hi] using (everyEntry_iff _).1 this.2 i

/-- W6. -/
theorem wfTable_inLen (h : wfTable t = true) {i : Fin 19} (hi : i ≠ 0) :
    (fieldsAt t i).inLen = if i.val ≤ kindIndex t .mh then 64 else 32 := by
  simpa [hi] using (everyEntry_iff _).1 ((wfTable_iff t).1 h).2.2.2.2.2.1 i

/-- W7. -/
theorem wfTable_outLen (h : wfTable t = true) (i : Fin 19) :
    (fieldsAt t i).outLen = if i.val < kindIndex t .mh then 64 else 32 := by
  simpa using (everyEntry_iff _).1 ((wfTable_iff t).1 h).2.2.2.2.2.2.1 i

/-- W8. -/
theorem wfTable_outOff (h : wfTable t = true) (i : Fin 19) :
    (fieldsAt t i).outOff = if i.val = kindIndex t .lat then 64 else 0 := by
  simpa using (everyEntry_iff _).1 ((wfTable_iff t).1 h).2.2.2.2.2.2.2.1 i

/-- W9. -/
theorem wfTable_aes (h : wfTable t = true) {i : Fin 19} (hk : kindAt t i = .aes) :
    ∃ w : Hs, hsOfLength (fieldsAt t i).outLen.toNat = some w
      ∧ legalBits w (8 * (fieldsAt t i).inLen.toNat) = true := by
  have := (everyEntry_iff _).1 ((wfTable_iff t).1 h).2.2.2.2.2.2.2.2.1 i
  simp only [hk, Bool.or_eq_true, Bool.and_eq_true] at this
  rcases this with h1 | ⟨_, h1⟩
  · simp at h1
  · cases hw : hsOfLength (fieldsAt t i).outLen.toNat with
    | none => simp [hw] at h1
    | some w => exact ⟨w, rfl, by simpa [hw] using h1⟩

/-- W10. -/
theorem wfTable_clr (h : wfTable t = true) (i : Fin 19) :
    (fieldsAt t i).clrOff.toNat + (fieldsAt t i).clrLen.toNat ≤ 128 := by
  simpa using (everyEntry_iff _).1 ((wfTable_iff t).1 h).2.2.2.2.2.2.2.2.2 i

/-- The width of an entry's input. -/
theorem wfTable_inLen_cases (h : wfTable t = true) (i : Fin 19) :
    (i = 0 ∧ (fieldsAt t i).inLen = 80) ∨ (i ≠ 0 ∧ ((fieldsAt t i).inLen = 64 ∨ (fieldsAt t i).inLen = 32)) := by
  by_cases hi : i = 0
  · subst hi; exact .inl ⟨rfl, (wfTable_first h).2⟩
  · refine .inr ⟨hi, ?_⟩
    have := wfTable_inLen h hi
    split at this
    · exact .inl this
    · exact .inr this

/-- The width of an entry's output. -/
theorem wfTable_outLen_cases (h : wfTable t = true) (i : Fin 19) :
    (fieldsAt t i).outLen = 64 ∨ (fieldsAt t i).outLen = 32 := by
  have := wfTable_outLen h i
  split at this
  · exact .inl this
  · exact .inr this

/-- The place of an entry's output. -/
theorem wfTable_outOff_cases (h : wfTable t = true) (i : Fin 19) :
    (fieldsAt t i).outOff = 64 ∨ (fieldsAt t i).outOff = 0 := by
  have := wfTable_outOff h i
  split at this
  · exact .inl this
  · exact .inr this

/-- Every byte a stage of a verified table touches exists. -/
theorem wfTable_inSpace (h : wfTable t = true) (i : Fin 19) : stageInSpace (fieldsAt t i) = true := by
  have hout : (fieldsAt t i).outOff.toNat + (fieldsAt t i).outLen.toNat ≤ 128 := by
    rcases wfTable_outOff_cases h i with ho | ho <;> rcases wfTable_outLen_cases h i with hl | hl <;>
      simp [ho, hl]
  have hclr := wfTable_clr h i
  have hin : inSpace (srcSpace (fieldsAt t i).src) (fieldsAt t i).inOff.toNat (fieldsAt t i).inLen.toNat = true := by
    rw [wfTable_inOff h i]
    rcases wfTable_inLen_cases h i with ⟨rfl, hl⟩ | ⟨hi, hl | hl⟩
    · rw [(wfTable_first h).1, hl]; rfl
    · rw [wfTable_src h hi, hl]; rfl
    · rw [wfTable_src h hi, hl]; rfl
  have hrb : inSpace .rb (fieldsAt t i).outOff.toNat (fieldsAt t i).outLen.toNat = true := decide_eq_true hout
  have hcl : inSpace .rb (fieldsAt t i).clrOff.toNat (fieldsAt t i).clrLen.toNat = true := decide_eq_true hclr
  simp only [stageInSpace, hin, hrb, hcl, Bool.or_true, Bool.and_self]

/-- The AES stage of a verified table fills registers that exist. -/
theorem wfTable_words (h : wfTable t = true) (i : Fin 19) : (fieldsAt t i).inLen.toNat / 16 ≤ 12 := by
  rcases wfTable_inLen_cases h i with ⟨_, hl⟩ | ⟨_, hl | hl⟩ <;> rw [hl] <;> decide

/-- The result of the last stage of a verified table lies inside RB. -/
theorem wfTable_lastOutOff {c : Conf} (h : wfTable c.stages = true) : inSpace .rb (lastOutOff c) 32 = true := by
  have : lastOutOff c = (fieldsAt c.stages 18).outOff.toNat := rfl
  rcases wfTable_outOff_cases h 18 with ho | ho <;> rw [this, ho] <;> rfl

/-- A length in bytes is legal in bits exactly when the operand of `FINALIZE` it becomes is. -/
theorem legalLength_ofNat {h : Hs} {n : Nat} (hn : legalBits h n = true) :
    legalLength h (BitVec.ofNat 16 n) = true := by
  have hlt : n < 2 ^ 16 := by
    simp only [legalBits, Bool.and_eq_true, Bool.or_eq_true, decide_eq_true_eq, beq_iff_eq] at hn
    cases h <;> simp only [Hs.blkw, Hs.blockBits] at hn <;> omega
  simpa only [legalLength, legalBits, BitVec.toNat_ofNat, Nat.mod_eq_of_lt hlt] using hn

/-- A primitive that does not misbehave answers as many bytes as it is asked for (R204). -/
theorem primCall_length {c : Conf} (h : primsOk c = true) (p : BitVec 5) (outBits : Nat) (data : List Byte) :
    (primCall c p outBits data).length = outBits / 8 := by
  unfold primCall
  split
  · rename_i x hx
    have hm := List.mem_of_find?_eq_some hx
    have hp := List.find?_some hx
    simp only [Bool.and_eq_true, beq_iff_eq] at hp
    have := List.all_eq_true.1 h x hm
    rw [beq_iff_eq] at this
    rw [this, hp.1.2]
  · simp

end Sys2Proof.Machine
end

