-- ==== Sys2Proof/Laws/Stages.lean ====
section
/-! SUPPORT. Everything the operations of the chain, the comparator and the scan can do, one lemma each. -/

namespace Sys2Proof.Machine

/-- Everything the check of a stage can do. -/
theorem inStage_cases (s : State) (f : Res) :
    (InChain s ∧ inStage s f = f) ∨ (¬ InChain s ∧ inStage s f = .ok (raise .seqError s)) := by
  unfold inStage InChain
  split
  · exact .inl ⟨by assumption, rfl⟩
  · exact .inr ⟨by assumption, rfl⟩

/-- Everything `CH.BEGIN` can do. -/
theorem chBegin_cases (s : State) :
    (wfTable s.conf.stages = true ∧ chBegin s = .ok (ran (chBeginState s)))
    ∨ (wfTable s.conf.stages = false ∧ chBegin s = .ok (raise (.chainFatal 0) s)) := by
  unfold chBegin
  cases wfTable s.conf.stages with
  | true => exact .inl ⟨rfl, rfl⟩
  | false => exact .inr ⟨rfl, rfl⟩

/-- Everything a stage of an external primitive can do. -/
theorem externalStage_cases (d : StageFields) (s : State) :
    (¬ InChain s ∧ externalStage d s = .ok (raise .seqError s))
    ∨ (InChain s ∧ stageInSpace d = false ∧ externalStage d s = .error .noSuchByte)
    ∨ (InChain s ∧ stageInSpace d = true ∧ outputsFit d s = true
        ∧ externalStage d s = .ok (ran (stageWrite d (externalOutput d s) s)))
    ∨ (InChain s ∧ stageInSpace d = true ∧ outputsFit d s = false
        ∧ externalStage d s = .ok (raise (.chainFatal s.stage) s)) := by
  unfold externalStage
  rcases inStage_cases s (if stageInSpace d then
      .ok (if outputsFit d s then ran (stageWrite d (externalOutput d s) s) else raise (.chainFatal s.stage) s)
    else .error .noSuchByte) with ⟨hc, h⟩ | ⟨hc, h⟩
  · rw [h]
    cases stageInSpace d with
    | false => exact .inr (.inl ⟨hc, rfl, rfl⟩)
    | true =>
      cases outputsFit d s with
      | true => exact .inr (.inr (.inl ⟨hc, rfl, rfl, rfl⟩))
      | false => exact .inr (.inr (.inr ⟨hc, rfl, rfl, rfl⟩))
  · exact .inl ⟨hc, h⟩

/-- The outputs fit exactly when every lane's digest has the length asked for. -/
theorem outputsFit_iff (d : StageFields) (s : State) :
    outputsFit d s = true ↔ ∀ l : Lane, (externalOutput d s l).length = d.outLen.toNat := by
  simp [outputsFit]

/-- `CH.STEP` runs the stage of the descriptor at STAGE, or raises `SEQ_ERROR`. -/
theorem chStep_cases (s : State) :
    (¬ InChain s ∧ chStep s = .ok (raise .seqError s))
    ∨ (∃ hst : s.stage.toNat < 19, s.chst = .run
        ∧ chStep s = stageOf (kindAt s.conf.stages ⟨s.stage.toNat, hst⟩)
            (fieldsAt s.conf.stages ⟨s.stage.toNat, hst⟩) s) := by
  by_cases hc : InChain s
  · obtain ⟨hr, hst⟩ := hc
    refine .inr ⟨hst, hr, ?_⟩
    have hd : currentDescriptor s = some s.conf.stages[s.stage.toNat] := by
      simp only [currentDescriptor, hst, getElem?_pos]
    unfold chStep inStage
    rw [if_pos ⟨hr, hst⟩, hd]
    rfl
  · refine .inl ⟨hc, ?_⟩
    exact if_neg hc

/-- Everything `CH.END` can do. -/
theorem chEnd_cases (s : State) :
    (¬ (s.chst = .run ∧ s.stage = 19) ∧ chEnd s = .ok (raise .seqError s))
    ∨ (s.chst = .run ∧ s.stage = 19 ∧ inSpace .rb (lastOutOff s.conf) 32 = false ∧ chEnd s = .error .noSuchByte)
    ∨ (s.chst = .run ∧ s.stage = 19 ∧ inSpace .rb (lastOutOff s.conf) 32 = true
        ∧ chEnd s = .ok (ran
            { memWrite s .cd 0 (fun l => memRead s .rb l (lastOutOff s.conf) 32) with chst := .done })) := by
  unfold chEnd
  split
  · rename_i h
    cases inSpace .rb (lastOutOff s.conf) 32 with
    | true => exact .inr (.inr ⟨h.1, h.2, rfl, rfl⟩)
    | false => exact .inr (.inl ⟨h.1, h.2, rfl, rfl⟩)
  · rename_i h
    exact .inl ⟨h, rfl⟩

/-- Everything `CMP` can do. -/
theorem cmp_cases (l : Lane) (s : State) :
    (s.chst = .done ∧ cmp l s = .ok (ran { s with qual := setQual s.qual l (acceptLane s l) }))
    ∨ (s.chst ≠ .done ∧ cmp l s = .ok (raise .seqError s)) := by
  unfold cmp
  split
  · exact .inl ⟨by assumption, rfl⟩
  · exact .inr ⟨by assumption, rfl⟩

/-- Everything `SC.ITER` can do. -/
theorem scIter_cases (s : State) :
    (s.scanst = .run ∧ scIter s =
        andThen (chain (scPrepare s)) fun t => .ok (ran (scFinish s.nonce (activeCount s) t)))
    ∨ (s.scanst ≠ .run ∧ scIter s = .ok (raise .seqError s)) := by
  unfold scIter
  split
  · exact .inl ⟨by assumption, rfl⟩
  · exact .inr ⟨by assumption, rfl⟩

/-- Everything one turn of the loop of `SCAN` can do: a running scan makes an iteration, and stays in hand exactly
where the iteration ran and leaves SCANST at `RUN`; a scan that is not running has ended. -/
theorem scanTurn_cases (s : State) :
    (s.scanst = .run ∧ scanTurn s = andThen (scIter s) fun t => .ok (ran (scanGoesOn t)))
    ∨ (s.scanst ≠ .run ∧ scanTurn s = .ok (ran s)) := by
  unfold scanTurn
  split
  · exact .inl ⟨by assumption, rfl⟩
  · exact .inr ⟨by assumption, rfl⟩

/-- What one turn keeps, given what an iteration and the command in hand keep. -/
theorem scanTurn_keeps {P : State → Prop} (hi : ∀ s d, P s → scIter s = .ok d → P d.st)
    (hg : ∀ s, P s → P (scanGoesOn s)) {s : State} {d : Done} (hs : P s) (h : scanTurn s = .ok d) : P d.st := by
  rcases scanTurn_cases s with ⟨_, ht⟩ | ⟨_, ht⟩ <;> rw [ht] at h
  · refine andThen_keeps (fun e he => hi s e hs he) (fun u hu e he => ?_) h
    injection he with he
    exact he ▸ hg u hu
  · injection h with h
    exact h ▸ hs

/-- `SCAN` is the first turn from the state `SC.BEGIN` leaves. -/
theorem scan_eq (s : State) :
    scan s = scanTurn (scBegun s) := by
  rw [scan, scBegin, andThen_ran]

end Sys2Proof.Machine
end

