-- ==== Sys2Proof/Laws/Completion.lean ====
section
/-! SUPPORT. That the commands run to their end: the context commands in a `READY` context, a chain evaluation on a
verified table with primitives that behave, one iteration of the scan. What each leaves alone is said by erasing what it
may write. -/

namespace Sys2Proof.Machine

/-- The state with the registers of the context erased. -/
def outsideContext (s : State) : State :=
  { s with
    a := zeroGrid, b := zeroGrid, bk := zeroGrid, k := zeroWide, k1 := zeroWide, cfg := 0
    buf := Vector.replicate 12 zeroWide, msg := Vector.replicate 12 zeroWide, pbits := 0, rem := 0
    dg := Vector.replicate 4 zeroWide, ctxst := .none }

/-- The state with the registers of the context and of the chain evaluation erased. -/
def outsideChain (s : State) : State :=
  { outsideContext s with
    hb := Vector.replicate 4 [], rb := Vector.replicate 4 [], cd := Vector.replicate 4 [], stage := 0, chst := .idle }

theorem outsideChain_of_outsideContext {s t : State} (h : outsideContext t = outsideContext s) :
    outsideChain t = outsideChain s := by
  unfold outsideChain
  rw [h]

/-- A field the erasure of the context leaves alone. -/
theorem field_of_outsideContext {α : Type} {s t : State} (f : State → α) (ho : outsideContext t = outsideContext s)
    (hf : ∀ x, f (outsideContext x) = f x := by intro; rfl) : f t = f s := by
  rw [← hf t, ho, hf s]

/-- A field the erasure of the chain leaves alone. -/
theorem field_of_outsideChain {α : Type} {s t : State} (f : State → α) (ho : outsideChain t = outsideChain s)
    (hf : ∀ x, f (outsideChain x) = f x := by intro; rfl) : f t = f s := by
  rw [← hf t, ho, hf s]

theorem outsideChain_memWrite (s : State) (sp : Space) (n : Nat) (v : Lane → List Byte) :
    outsideChain (memWrite s sp n v) = outsideChain s := by
  cases sp <;> rfl

/-! ## The context -/

/-- A micro-operation that runs in every `READY` context of width `h`, leaves it `READY`, and writes nothing outside the
context. -/
def RunsIn (h : Hs) (f : State → Res) : Prop :=
  ∀ s, Ready h s → ∃ t, f s = .ok (ran t) ∧ Ready h t ∧ outsideContext t = outsideContext s

variable {h : Hs}

theorem RunsIn.andThen {f g : State → Res} (hf : RunsIn h f) (hg : RunsIn h g) :
    RunsIn h fun s => Machine.andThen (f s) g := by
  intro s hs
  obtain ⟨t, ht, hrt, hot⟩ := hf s hs
  obtain ⟨u, hu, hru, hou⟩ := hg t hrt
  exact ⟨u, by simp only [ht, andThen_ran, hu], hru, hou.trans hot⟩

theorem RunsIn.repeated {f : State → Res} (hf : RunsIn h f) : ∀ n, RunsIn h (Machine.repeated f n)
  | 0 => fun s hs => ⟨s, rfl, hs, rfl⟩
  | n + 1 => hf.andThen (RunsIn.repeated hf n)

theorem runsIn_ctrAdv : RunsIn h ctrAdv := fun _ hs => ⟨_, ctrAdv_ready hs, hs, rfl⟩
theorem runsIn_ldm (src : BlockSrc) : RunsIn h (ldm src) := fun _ hs => ⟨_, ldm_ready src hs, hs, rfl⟩
theorem runsIn_save : RunsIn h save := fun _ hs => ⟨_, save_ready hs, hs, rfl⟩
theorem runsIn_ffwd : RunsIn h ffwd := fun _ hs => ⟨_, ffwd_ready hs, hs, rfl⟩
theorem runsIn_ctrFix : RunsIn h ctrFix := fun _ hs => ⟨_, ctrFix_ready hs, hs, rfl⟩

theorem runsIn_subw (g : GridSel) : RunsIn h (subw g) := fun s hs => by
  cases g with
  | a => exact ⟨_, subw_a_ready hs, hs, rfl⟩
  | b => exact ⟨_, subw_b_ready hs, hs, rfl⟩

theorem runsIn_mixb (g : GridSel) : RunsIn h (mixb g) := fun s hs => by
  cases g with
  | a => exact ⟨_, mixb_a_ready hs, hs, rfl⟩
  | b => exact ⟨_, mixb_b_ready hs, hs, rfl⟩

theorem runsIn_roundPair : RunsIn h roundPair :=
  (((runsIn_subw .a).andThen (runsIn_mixb .a)).andThen (runsIn_subw .b)).andThen (runsIn_mixb .b)

theorem runsIn_roundPairs : RunsIn h roundPairs := fun s hs => runsIn_roundPair.repeated (cfgROUNDS s.cfg / 2) s hs

/-- `COMPRESS` runs in every `READY` context. -/
theorem runsIn_compress (src : BlockSrc) : RunsIn h (compress src) :=
  (((runsIn_ctrAdv.andThen (runsIn_ldm src)).andThen runsIn_save).andThen runsIn_roundPairs).andThen runsIn_ffwd

theorem runsIn_fullBlock (n : BitVec 16) : RunsIn h (fullBlock n) := by
  intro s hs
  unfold fullBlock
  split
  · exact runsIn_compress .msg s hs
  · exact ⟨s, rfl, hs, rfl⟩

theorem runsIn_checkLength {n : BitVec 16} (hn : legalLength h n = true) : RunsIn h (checkLength n) :=
  fun s hs => ⟨s, by rw [checkLength_ready hs, if_pos hn], hs, rfl⟩

theorem runsIn_pad {n : BitVec 16} (hn : legalLength h n = true) : RunsIn h (pad n) :=
  fun s hs => ⟨padState h n s, by rw [pad_ready hs, if_pos hn], hs, rfl⟩

/-- `FINALIZE` of a legal length runs in every `READY` context, and consumes it. -/
theorem finalize_runs {n : BitVec 16} (hn : legalLength h n = true) {s : State} (hs : Ready h s) :
    ∃ t, finalize n s = .ok (ran t) ∧ t.ctxst = .done ∧ outsideContext t = outsideContext s := by
  obtain ⟨t, ht, hrt, hot⟩ :=
    ((((runsIn_checkLength hn).andThen (runsIn_fullBlock n)).andThen (runsIn_pad hn)).andThen runsIn_ctrFix).andThen
      (runsIn_compress .buf) s hs
  refine ⟨_, ?_, rfl, (rfl : outsideContext { t with dg := digestRegisters h t.a, ctxst := .done } = _).trans hot⟩
  have : finalize n s = andThen (.ok (ran t)) xtract := congrArg (fun r => andThen r xtract) ht
  rw [this, andThen_ran, xtract_ready hrt]

/-! ## The chain -/

theorem stageWrite_chst (d : StageFields) (out : Lane → List Byte) (s : State) :
    (stageWrite d out s).chst = s.chst := by simp [stageWrite]

theorem stageWrite_stage (d : StageFields) (out : Lane → List Byte) (s : State) :
    (stageWrite d out s).stage = s.stage + 1 := rfl

theorem outsideChain_stageWrite (d : StageFields) (out : Lane → List Byte) (s : State) :
    outsideChain (stageWrite d out s) = outsideChain s := by
  have hc : outsideChain (stageClear d (memWrite s .rb d.outOff.toNat out)) = outsideChain s := by
    unfold stageClear
    split
    · exact outsideChain_memWrite ..
    · exact (outsideChain_memWrite ..).trans (outsideChain_memWrite ..)
  exact hc

/-- What a stage that has run leaves: the next stage is due, and nothing outside the chain and the context is written. -/
def StageRan (s t : State) : Prop :=
  t.chst = .run ∧ t.stage.toNat = s.stage.toNat + 1 ∧ outsideChain t = outsideChain s

theorem stageRan_stageWrite {s u : State} (hc : InChain s) (hu : u.chst = s.chst) (hst : u.stage = s.stage)
    (ho : outsideChain u = outsideChain s) (d : StageFields) (out : Lane → List Byte) :
    StageRan s (stageWrite d out u) := by
  refine ⟨(stageWrite_chst ..).trans (hu.trans hc.1), ?_, (outsideChain_stageWrite ..).trans ho⟩
  rw [stageWrite_stage, hst]
  have := hc.2
  bv_omega

theorem hsOfLength_eq {n : Nat} (hn : hsOfLength n = some h) : 8 * n = h.bits := by
  unfold hsOfLength at hn
  split at hn
  · cases hn; simp_all [Hs.bits]
  · split at hn
    · cases hn; simp_all [Hs.bits]
    · cases hn

/-- The AES stage of a verified table runs. -/
theorem aesStage_runs {d : StageFields} {s : State} (hc : InChain s) (hsp : stageInSpace d = true)
    (hw : d.inLen.toNat / 16 ≤ 12) (ho : hsOfLength d.outLen.toNat = some h)
    (hl : legalBits h (8 * d.inLen.toNat) = true) : ∃ t, aesStage d s = .ok (ran t) ∧ StageRan s t := by
  have hi : hsOfImm (BitVec.ofNat 16 (8 * d.outLen.toNat)) = some h := by rw [hsOfLength_eq ho, hsOfImm_bits]
  let u : State := loadMessage d (stageInput d s) { s with
    cfg := h.cfgWord, a := initialGrid h, k := splat 0, pbits := 0, rem := 0, ctxst := .ready }
  obtain ⟨t, ht, _, hot⟩ := finalize_runs (legalLength_ofNat hl) (s := u) ⟨rfl, rfl⟩
  have hts : outsideContext t = outsideContext s := hot.trans rfl
  refine ⟨stageWrite d (digestBytes t d.outLen.toNat) t, ?_, stageRan_stageWrite hc
    (field_of_outsideContext State.chst hts) (field_of_outsideContext State.stage hts) (outsideChain_of_outsideContext hts) ..⟩
  unfold aesStage
  rw [inStage, if_pos ⟨hc.1, hc.2⟩, if_pos hsp, if_pos hw, ctxInit_legal hi, andThen_ran, andThen_ran, ht, andThen_ran]

/-- A stage of a verified table runs, where the primitives behave. -/
theorem chStep_runs {s : State} (hc : InChain s) (hw : wfTable s.conf.stages = true) (hp : primsOk s.conf = true) :
    ∃ t, chStep s = .ok (ran t) ∧ StageRan s t := by
  rcases chStep_cases s with ⟨hn, _⟩ | ⟨hst, _, heq⟩
  · exact absurd hc hn
  · rw [heq]
    have hsp := wfTable_inSpace hw ⟨s.stage.toNat, hst⟩
    have hext : ∃ t, externalStage (fieldsAt s.conf.stages ⟨s.stage.toNat, hst⟩) s = .ok (ran t) ∧ StageRan s t := by
      have hfit : outputsFit (fieldsAt s.conf.stages ⟨s.stage.toNat, hst⟩) s = true := by
        refine (outputsFit_iff _ _).2 fun l => ?_
        rw [externalOutput, primCall_length hp]
        omega
      rcases externalStage_cases (fieldsAt s.conf.stages ⟨s.stage.toNat, hst⟩) s with
        ⟨hn, _⟩ | ⟨_, hsp', _⟩ | ⟨_, _, _, he⟩ | ⟨_, _, hf, _⟩
      · exact absurd hc hn
      · rw [hsp] at hsp'; cases hsp'
      · exact ⟨_, he, stageRan_stageWrite hc rfl rfl rfl ..⟩
      · rw [hfit] at hf; cases hf
    cases hk : kindAt s.conf.stages ⟨s.stage.toNat, hst⟩ with
    | aes =>
      obtain ⟨h, ho, hl⟩ := wfTable_aes hw hk
      exact aesStage_runs hc hsp (wfTable_words hw _) ho hl
    | ord => exact hext
    | lat => exact hext
    | mh => exact hext

/-- The stages left run one after another. -/
theorem stages_run : ∀ (n : Nat) {s : State}, s.chst = .run → s.stage.toNat + n ≤ 19 → wfTable s.conf.stages = true →
    primsOk s.conf = true → ∃ t, repeated chStep n s = .ok (ran t) ∧ t.chst = .run
      ∧ t.stage.toNat = s.stage.toNat + n ∧ outsideChain t = outsideChain s
  | 0, s, hr, _, _, _ => ⟨s, rfl, hr, rfl, rfl⟩
  | n + 1, s, hr, hn, hw, hp => by
    obtain ⟨t, ht, htr, hts, hto⟩ := chStep_runs (s := s) ⟨hr, by omega⟩ hw hp
    have hconf : t.conf = s.conf := field_of_outsideChain State.conf hto
    obtain ⟨u, hu, hur, hus, huo⟩ := stages_run n (s := t) htr (by omega) (by rwa [hconf]) (by rwa [hconf])
    exact ⟨u, by rw [repeated_succ, ht, andThen_ran, hu], hur, by omega, huo.trans hto⟩

/-- `CHAIN` runs to its end on a verified table with primitives that behave (R206). -/
theorem chain_runs {s : State} (hw : wfTable s.conf.stages = true) (hp : primsOk s.conf = true) :
    ∃ t, chain s = .ok (ran t) ∧ t.chst = .done ∧ outsideChain t = outsideChain s := by
  have hbo : outsideChain (chBeginState s) = outsideChain s :=
    (outsideChain_memWrite (memWrite s .hb 0 (headerBytes s)) .rb 0 fun _ => List.replicate 128 0).trans
      (outsideChain_memWrite ..)
  have hbc : (chBeginState s).conf = s.conf := field_of_outsideChain State.conf hbo
  obtain ⟨t, ht, htr, hts, hto⟩ := stages_run 19 (s := chBeginState s) rfl (Nat.le_refl 19) (by rwa [hbc]) (by rwa [hbc])
  have hs19 : t.stage = 19 := BitVec.eq_of_toNat_eq hts
  have htc : t.conf = s.conf := (field_of_outsideChain State.conf hto).trans hbc
  have hcd := outsideChain_memWrite t .cd 0 fun l => memRead t .rb l (lastOutOff t.conf) 32
  refine ⟨{ memWrite t .cd 0 (fun l => memRead t .rb l (lastOutOff t.conf) 32) with chst := .done }, ?_, rfl,
    hcd.trans (hto.trans hbo)⟩
  rw [chain, chBegin, if_pos hw, andThen_ran, ht, andThen_ran, chEnd, if_pos ⟨htr, hs19⟩,
    if_pos (wfTable_lastOutOff (by rwa [htc]))]

/-! ## The scan -/

/-- What a poll gives and leaves (log 8). -/
theorem pollCancel_eq (s : State) :
    pollCancel s = (polled s, { s with cancel := polled s, polls := s.polls.tail }) := by
  rcases pollCancel_cases s with ⟨hp, h⟩ | ⟨b, rest, hp, h⟩
  · rw [h]; cases s; simp_all [polled]
  · rw [h]; simp [polled, hp]

/-- One iteration of a running scan runs to its end on a verified table with primitives that behave (R227); what it
leaves in the registers that decide whether the scan goes on. -/
theorem scIter_runs {s : State} (hr : s.scanst = .run) (hw : wfTable s.conf.stages = true)
    (hp : primsOk s.conf = true) :
    ∃ t, scIter s = .ok (ran t)
      ∧ t.nonce = BitVec.ofNat 32 (s.nonce.toNat + activeCount s)
      ∧ t.scanst = scanStateAfter (s.nonce.toNat + activeCount s) s.max (polled s)
      ∧ t.cancel = polled s ∧ t.polls = s.polls.tail
      ∧ t.first = s.first ∧ t.max = s.max ∧ t.conf = s.conf ∧ t.inbox = s.inbox
      ∧ t.fault = s.fault ∧ t.halted = s.halted ∧ t.cmd = s.cmd := by
  obtain ⟨u, hu, _, huo⟩ := chain_runs (s := scPrepare s) hw hp
  have heq : scIter s = .ok (ran (scFinish s.nonce (activeCount s) u)) := by
    rw [scIter, if_pos hr, hu, andThen_ran]
  have field : ∀ {α : Type} (f : State → α), (∀ x, f (outsideChain x) = f x) → f u = f (scPrepare s) :=
    fun f hf => field_of_outsideChain f huo hf
  have hmax : u.max = s.max := field State.max fun _ => rfl
  have hpoll : polled u = polled s := field polled fun _ => rfl
  refine ⟨_, heq, rfl, ?_⟩
  rw [scFinish, pollCancel_eq u, hmax, hpoll]
  exact ⟨rfl, rfl, field (·.polls.tail) fun _ => rfl, field State.first fun _ => rfl, rfl, field State.conf fun _ => rfl,
    field State.inbox fun _ => rfl, field State.fault fun _ => rfl, field State.halted fun _ => rfl,
    field State.cmd fun _ => rfl⟩

/-- One turn of the loop of `SCAN` is that iteration, and the scan stays in hand while SCANST is `RUN` (R233). -/
theorem scanTurn_runs {s t : State} (hr : s.scanst = .run) (h : scIter s = .ok (ran t)) :
    scanTurn s = .ok (ran (scanGoesOn t)) := by
  rw [scanTurn, if_pos hr, h, andThen_ran]

/-- `SCAN` makes the iteration from the state `SC.BEGIN` leaves. -/
theorem exec_scan_of_scIter {s t : State} (h : scIter (scBegun s) = .ok (ran t)) :
    exec .scan s = .next (scanGoesOn t) := by
  rw [exec_scan, scan_eq, scanTurn_runs rfl h, outcome_ok, ran_st]

/-- A step of a scan the host leaves alone makes one iteration. -/
theorem step_of_scIter {s t : State} (hc : s.cmd = .scan) (hi : s.inbox = []) (hr : s.scanst = .run)
    (h : scIter (emptyCmd s) = .ok (ran t)) : step s = .next (scanGoesOn t) := by
  have : step s = nextIteration s := by simp only [step, advance, workStep, scanStep, hc, hi]
  rw [this, nextIteration, scanTurn_runs (s := emptyCmd s) hr h, outcome_ok, ran_st]

end Sys2Proof.Machine
end

