-- ==== Sys2Proof/Laws/PerInstr.lean ====
section
/-! SUPPORT. One law per instruction: its encoding lies in its row of the opcode table (spec/30_encoding.md R99, R104). -/

namespace Sys2Proof.Laws

/-- The encoding of `i` has the length, the match and the mask of its row. -/
def RowMatch.Statement (i : Instr) : Prop := i.row.covers (encode i) = true

/-- Masking as a number is masking as a word. -/
theorem toNat_and_mask {n : Nat} (w : BitVec n) (m : Nat) (hm : m < 2 ^ n) :
    w.toNat &&& m = (w &&& BitVec.ofNat n m).toNat := by
  rw [BitVec.toNat_and, BitVec.toNat_ofNat, Nat.mod_eq_of_lt hm]

/-- A command word covered by a row whose mask takes the opcode and `m` of the operand field. -/
theorem covers_command (op : Byte) (x m : BitVec 24) (h : x &&& m = 0) :
    (Row.mk 32 ((op ++ (0 : BitVec 24) : Word32).toNat) (((0xFF : Byte) ++ m : Word32).toNat)).covers
      (.command (commandWord op x)) = true := by
  have hop : op &&& (0xFF : Byte) = op := by
    have : (0xFF : Byte) = BitVec.allOnes 8 := rfl
    rw [this, BitVec.and_allOnes]
  have hw : (op ++ x : Word32) &&& ((0xFF : Byte) ++ m : Word32) = op ++ (0 : BitVec 24) := by
    rw [BitVec.and_append, hop, h]
  simp only [Row.covers, Encoded.bits, commandWord, Bool.and_eq_true, beq_iff_eq, true_and]
  rw [← hw, BitVec.toNat_and]

/-- A 16-bit immediate leaves the bits above it zero. -/
theorem setWidth_and_high (imm : BitVec 16) : imm.setWidth 24 &&& (0xFF0000 : BitVec 24) = 0 := by
  apply BitVec.eq_of_getLsbD_eq
  intro i hi
  simp only [BitVec.getLsbD_and, BitVec.getLsbD_setWidth]
  by_cases h : i < 16
  · have hm : (0xFF0000 : BitVec 24).getLsbD i = false := by interval_cases i <;> rfl
    rw [hm, Bool.and_false]
    simp
  · rw [BitVec.getLsbD_of_ge imm i (by omega)]
    simp

/-- A stage descriptor is covered by the row of its kind. -/
theorem covers_descriptor (k : StageKind) (d : StageFields) :
    (Row.mk 64 ((k.code.setWidth 64 <<< 5).toNat) 0xFF00000000000060).covers
      (.descriptor (descriptorWord k d)) = true := by
  simp only [Row.covers, Encoded.bits, Bool.and_eq_true, beq_iff_eq, true_and]
  rw [toNat_and_mask _ _ (by decide)]
  congr 1
  apply BitVec.eq_of_getLsbD_eq
  intro i hi
  have hm : (BitVec.ofNat 64 0xFF00000000000060).getLsbD i = decide (i = 5 ∨ i = 6 ∨ 56 ≤ i) := by
    interval_cases i <;> rfl
  have hz : ∀ j, (0 : Byte).getLsbD j = false := fun j => by simp
  simp only [BitVec.getLsbD_and, hm, descriptorWord, BitVec.getLsbD_append, BitVec.getLsbD_shiftLeft,
    BitVec.getLsbD_setWidth]
  by_cases h5 : i = 5
  · subst h5; simp
  by_cases h6 : i = 6
  · subst h6; simp
  by_cases hh : 56 ≤ i
  · have hk : k.code.getLsbD (i - 5) = false := BitVec.getLsbD_of_ge _ _ (by omega)
    have h1 : ¬ i < 5 := by omega
    have h2 : ¬ i - 5 < 2 := by omega
    simp only [hk, h5, h6, hh]
    have h3 : ∀ m, m ≤ 56 → ¬ i < m := by intro m hm; omega
    simp [h1, h2, show ¬ i - 5 - 2 < 1 by omega, show ¬ i - 5 - 2 - 1 < 8 by omega,
      show ¬ i - 5 - 2 - 1 - 8 < 8 by omega, show ¬ i - 5 - 2 - 1 - 8 - 8 < 8 by omega,
      show ¬ i - 5 - 2 - 1 - 8 - 8 - 8 < 8 by omega, show ¬ i - 5 - 2 - 1 - 8 - 8 - 8 - 8 < 8 by omega,
      show ¬ i - 5 - 2 - 1 - 8 - 8 - 8 - 8 - 8 < 8 by omega]
  · have hd : decide (i = 5 ∨ i = 6 ∨ 56 ≤ i) = false := by simp [h5, h6, hh]
    rw [hd, Bool.and_false]
    by_cases h1 : i < 5
    · simp [h1]
    · have hk : k.code.getLsbD (i - 5) = false := BitVec.getLsbD_of_ge _ _ (by omega)
      simp [hk]

theorem RowMatch.nop : RowMatch.Statement .nop := rfl
theorem RowMatch.ctxInit (imm : BitVec 16) : RowMatch.Statement (.ctxInit imm) :=
  covers_command 0x01 _ 0xFF0000 (setWidth_and_high imm)
theorem RowMatch.ctrAdv : RowMatch.Statement .ctrAdv := rfl
theorem RowMatch.ldm (src : BlockSrc) : RowMatch.Statement (.ldm src) := by cases src <;> rfl
theorem RowMatch.save : RowMatch.Statement .save := rfl
theorem RowMatch.subw (g : GridSel) : RowMatch.Statement (.subw g) := by cases g <;> rfl
theorem RowMatch.mixb (g : GridSel) : RowMatch.Statement (.mixb g) := by cases g <;> rfl
theorem RowMatch.ffwd : RowMatch.Statement .ffwd := rfl
theorem RowMatch.compress (src : BlockSrc) : RowMatch.Statement (.compress src) := by cases src <;> rfl
theorem RowMatch.pad (imm : BitVec 16) : RowMatch.Statement (.pad imm) :=
  covers_command 0x20 _ 0xFF0000 (setWidth_and_high imm)
theorem RowMatch.ctrFix : RowMatch.Statement .ctrFix := rfl
theorem RowMatch.xtract : RowMatch.Statement .xtract := rfl
theorem RowMatch.finalize (imm : BitVec 16) : RowMatch.Statement (.finalize imm) :=
  covers_command 0x28 _ 0xFF0000 (setWidth_and_high imm)
theorem RowMatch.chain : RowMatch.Statement .chain := rfl
theorem RowMatch.chBegin : RowMatch.Statement .chBegin := rfl
theorem RowMatch.chStep : RowMatch.Statement .chStep := rfl
theorem RowMatch.chEnd : RowMatch.Statement .chEnd := rfl
theorem RowMatch.cmp (lane : Lane) : RowMatch.Statement (.cmp lane) := by
  revert lane; unfold RowMatch.Statement; decide
theorem RowMatch.scan : RowMatch.Statement .scan := rfl
theorem RowMatch.scBegin : RowMatch.Statement .scBegin := rfl
theorem RowMatch.scIter : RowMatch.Statement .scIter := rfl
theorem RowMatch.stgOrd (d : StageFields) : RowMatch.Statement (.stgOrd d) := covers_descriptor .ord d
theorem RowMatch.stgAes (d : StageFields) : RowMatch.Statement (.stgAes d) := covers_descriptor .aes d
theorem RowMatch.stgLat (d : StageFields) : RowMatch.Statement (.stgLat d) := covers_descriptor .lat d
theorem RowMatch.stgMh (d : StageFields) : RowMatch.Statement (.stgMh d) := covers_descriptor .mh d

end Sys2Proof.Laws
end

