-- ==== Sys2Proof/Tests/Slice0.lean ====
section
/-! SUPPORT. Tests: ill-formed terms, words written out from the spec's encodings, vectors of spec/95_test_vectors.md, and
for every statement with hypotheses a state and operands that meet them all. -/

namespace Sys2Proof.Tests

open Sys2Proof Sys2Proof.Machine

/-! ## Ill-formed descriptors, one for each check (spec/43_chain_orchestrator.md R196) -/

/-- A well-formed lattice-based descriptor, the example of spec/30_encoding.md R112. -/
def lat : StageFields :=
  { prim := 16, src := .rb, inOff := 0, inLen := 64, outOff := 64, outLen := 64, clrOff := 0, clrLen := 0 }

/-- A well-formed AES descriptor, entry 10 of table EX1 (spec/95_test_vectors.md section 6). -/
def aes : StageFields := { lat with prim := 0, outOff := 0 }

/-- A well-formed memory-hard descriptor, entry 16 of table EX1. -/
def mh : StageFields := { lat with prim := 17, outOff := 0, outLen := 32, clrOff := 32, clrLen := 32 }

/-- A well-formed ordinary descriptor, entry 0 of table EX1. -/
def first : StageFields := { lat with prim := 1, src := .hb, inLen := 80, outOff := 0 }

theorem test_wf_accepts :
    (Instr.stgLat lat).wf && (Instr.stgAes aes).wf && (Instr.stgMh mh).wf && (Instr.stgOrd first).wf = true := by
  decide
theorem test_wf_aes_with_prim : (Instr.stgAes { aes with prim := 1 }).wf = false := by decide
theorem test_wf_input_offset : (Instr.stgOrd { first with inOff := 16 }).wf = false := by decide
theorem test_wf_header_length : (Instr.stgOrd { first with inLen := 64 }).wf = false := by decide
theorem test_wf_buffer_length : (Instr.stgLat { lat with inLen := 48 }).wf = false := by decide
theorem test_wf_lat_reads_header : (Instr.stgLat { lat with src := .hb, inLen := 80 }).wf = false := by decide
theorem test_wf_mh_narrow_input : (Instr.stgMh { mh with inLen := 32 }).wf = false := by decide
theorem test_wf_output_length : (Instr.stgOrd { first with outLen := 32 }).wf = false := by decide
theorem test_wf_output_offset : (Instr.stgLat { lat with outOff := 0 }).wf = false := by decide
theorem test_wf_clear_range : (Instr.stgLat { lat with clrOff := 65, clrLen := 64 }).wf = false := by decide
theorem test_wf_clear_range_end : (Instr.stgLat { lat with clrOff := 64, clrLen := 64 }).wf = true := by decide

/-! ## Words written out from the encodings (R93 to R98, R103, R112): opcode byte, then the operand field -/

theorem test_decode_nop : decodeCommand 0b00000000_000000000000000000000000 = .ok .nop := rfl
theorem test_decode_ctxInit : decodeCommand 0b00000001_00000000_0000001000000000 = .ok (.ctxInit 512) := rfl
theorem test_decode_ctrAdv : decodeCommand 0b00010000_000000000000000000000000 = .ok .ctrAdv := rfl
theorem test_decode_ldm : decodeCommand 0b00010001_00000000000000000000000_1 = .ok (.ldm .buf) := rfl
theorem test_decode_save : decodeCommand 0b00010010_000000000000000000000000 = .ok .save := rfl
theorem test_decode_subw : decodeCommand 0b00010011_00000000000000000000000_1 = .ok (.subw .b) := rfl
theorem test_decode_mixb : decodeCommand 0b00010100_00000000000000000000000_0 = .ok (.mixb .a) := rfl
theorem test_decode_ffwd : decodeCommand 0b00010101_000000000000000000000000 = .ok .ffwd := rfl
theorem test_decode_compress : decodeCommand 0b00011000_00000000000000000000000_0 = .ok (.compress .msg) := rfl
theorem test_decode_pad : decodeCommand 0b00100000_00000000_1111111111111111 = .ok (.pad 65535) := rfl
theorem test_decode_ctrFix : decodeCommand 0b00100001_000000000000000000000000 = .ok .ctrFix := rfl
theorem test_decode_xtract : decodeCommand 0b00100010_000000000000000000000000 = .ok .xtract := rfl
theorem test_decode_finalize : decodeCommand 0b00101000_00000000_0000001010000000 = .ok (.finalize 640) := rfl
theorem test_decode_chain : decodeCommand 0b00110000_000000000000000000000000 = .ok .chain := rfl
theorem test_decode_chBegin : decodeCommand 0b00110001_000000000000000000000000 = .ok .chBegin := rfl
theorem test_decode_chStep : decodeCommand 0b00110010_000000000000000000000000 = .ok .chStep := rfl
theorem test_decode_chEnd : decodeCommand 0b00110011_000000000000000000000000 = .ok .chEnd := rfl
theorem test_decode_cmp : decodeCommand 0b01000000_0000000000000000000000_11 = .ok (.cmp 3) := rfl
theorem test_decode_scan : decodeCommand 0b01000001_000000000000000000000000 = .ok .scan := rfl
theorem test_decode_scBegin : decodeCommand 0b01000010_000000000000000000000000 = .ok .scBegin := rfl
theorem test_decode_scIter : decodeCommand 0b01000011_000000000000000000000000 = .ok .scIter := rfl

/-- R112: reserved, CLR_LEN, CLR_OFF, OUT_LEN, OUT_OFF, IN_LEN, IN_OFF, SRC, KIND, PRIM. -/
theorem test_decode_stgLat :
    decodeDescriptor 0b00000000_00000000_00000000_01000000_01000000_01000000_00000000_0_10_10000
      = .ok (.stgLat lat) := rfl
theorem test_decode_stgOrd :
    decodeDescriptor 0b00000000_00000000_00000000_01000000_00000000_01010000_00000000_1_00_00001
      = .ok (.stgOrd first) := rfl
theorem test_decode_stgAes :
    decodeDescriptor 0b00000000_00000000_00000000_01000000_00000000_01000000_00000000_0_01_00000
      = .ok (.stgAes aes) := rfl
theorem test_decode_stgMh :
    decodeDescriptor 0b00000000_00100000_00100000_00100000_00000000_01000000_00000000_0_11_10001
      = .ok (.stgMh mh) := rfl

theorem test_decode_unknown_opcode : decodeCommand 0x02000000 = .error .unknownOpcode := rfl
theorem test_decode_operand_bit_z : decodeCommand 0x30000001 = .error .operandBits := rfl
theorem test_decode_operand_bit_s : decodeCommand 0x11000002 = .error .operandBits := rfl
theorem test_decode_operand_bit_i : decodeCommand 0x01010100 = .error .operandBits := rfl
theorem test_decode_operand_bit_l : decodeCommand 0x40000004 = .error .operandBits := rfl
theorem test_decode_reserved_byte : decodeDescriptor 0x0100000000000000 = .error .reservedDescriptorBits := rfl
theorem test_table_word_command : decodeTableWord 32 0x28000280 = some (.finalize 640) := rfl
theorem test_table_word_descriptor : decodeTableWord 64 0x0000004040400050 = some (.stgLat lat) := rfl
theorem test_asm_command : asmText (.mixb .b) = "MIXB B" := rfl
theorem test_asm_descriptor :
    asmText (.stgLat lat) = "STG.LAT prim=16 src=RB in=0+64 out=64+64 clr=0+0" := by decide

/-! ## Vectors of spec/95_test_vectors.md -/

/-- 2.1 -/
theorem test_xtime : [0x00, 0x01, 0x7F, 0x80, 0xC3, 0xFF].map xtime = [0x00, 0x02, 0xFE, 0x1B, 0x9D, 0xE5] := by
  decide
/-- 2.1 -/
theorem test_mul3 : [0x80, 0xC3, 0xFF].map mul3 = [0x9B, 0x5E, 0x1A] := by decide
/-- 2.2 -/
theorem test_dbl128 :
    dbl128 0x80402010080402017F81FE1B00FF0180 = 0x1B80402010080402FE19E73600E5021B := by decide
/-- 2.3 -/
theorem test_sbox : [0x00, 0x01, 0x10, 0x53, 0x80, 0xFF].map sbox = [0x63, 0x7C, 0xCA, 0xED, 0xCD, 0x16] := by decide
/-- 2.4 -/
theorem test_aesRound :
    aesRound 0x7B5B54657374566563746F725D53475D 0x48692853686179295B477565726F6E5D
      = 0xA8311C2F9FDBA3C58B104B58DED7E595 := by decide
/-- 2.5 -/
theorem test_sub2 : sub2 0x200 0x400 = 0xD9B13311B3B36B23F5E7E9F5E7E9F5F5 := by decide

/-- A `READY` context of width `h`, everything else as after reset. -/
def ctx (h : Hs) : State := { State.reset with cfg := h.cfgWord, ctxst := .ready }

/-- A reading of the state after an instruction. -/
def after {α : Type} (i : Instr) (s : State) (f : State → α) : Option α :=
  match exec i s with
  | .next t => some (f t)
  | _ => none

/-- 3.1 -/
theorem test_ctxInit : after (.ctxInit 512) State.reset (fun t => (t.cfg, t.a[3][1][2], t.a[0][2][0]))
    = some (0x02A80200, 0x200, 0) := by decide
/-- 3.1 -/
theorem test_ctxInit_rejects : after (.ctxInit 384) (ctx .h256) (fun t => (t.cfg, t.ctxst, t.fault))
    = some (0, .dead, 2) := by decide
/-- 3.2: the wrap -/
theorem test_ctrAdv : after .ctrAdv { ctx .h512 with k := splat (0 - 1) } (fun t => t.k[3]) = some 0x3FF := by decide
/-- 3.3 -/
theorem test_ldm :
    after (.ldm .msg) { ctx .h512 with msg := Vector.ofFn fun w => splat (BitVec.ofNat 128 (w.val + 1)) }
      (fun t => (t.a[0][2][0], t.a[3][2][1], t.a[0][3][2], t.a[3][3][3])) = some (1, 4, 5, 8) := by decide
/-- R146, the example: the words of column 1 take keys 4 higher. -/
theorem test_subw : after (.subw .a) { ctx .h512 with a := initialGrid .h512, k1 := splat 0x400 }
    (fun t => (t.a[0][1][0], t.k1[3])) = some (0xD9B13311B3B36B23F5E7E9F565978B09, 0x410) := by decide
/-- R147, the example, byte 0 of column 0. -/
theorem test_mixb : after (.mixb .a)
    { ctx .h512 with a := grid fun r c => splat (BitVec.ofNat 128 (0x10 * r.val + c.val)) }
    (fun t => (t.b[0][0][0], t.b[1][0][1], t.b[2][0][2], t.b[3][0][3])) = some (0x22, 0x77, 0x00, 0x55) := by decide
/-- R148, the example, both widths. -/
theorem test_ffwd : [Hs.h512, Hs.h256].map (fun h => after .ffwd
    { ctx h with a := grid fun _ c => splat (1 <<< c.val), bk := grid fun _ c => splat (0x10 <<< c.val) }
    (fun t => (t.a[2][0][0], t.a[2][1][0]))) = [some (0x55, 0xAA), some (0xFF, 2)] := by decide
/-- R172, the example: the marker, the width word and the length word. -/
theorem test_pad : after (.pad 640) (ctx .h512) (fun t => (t.buf[5][0], t.buf[6][1], t.buf[7][2], t.pbits, t.rem))
    = some (0x80, 0x02000000000000000000000000000000, 0x00000000000002800000000000000280, 0x280, 0x280) := by decide
/-- R173: the full-block sentinel. -/
theorem test_pad_full : after (.pad 1536) (ctx .h256) (fun t => (t.buf[0][0], t.rem))
    = some (0x80, 0xFFFFFFFFFFFFFFFFFFFFFFFFFFFFFA00) := by decide
/-- R174, the example. -/
theorem test_ctrFix : after .ctrFix { ctx .h512 with rem := 640 } (fun t => t.k[0])
    = some 0xFFFFFFFFFFFFFFFFFFFFFFFFFFFFFE80 := by decide
/-- R175: right after `CTX.INIT 512`. -/
theorem test_xtract : after .xtract { ctx .h512 with a := initialGrid .h512 } (fun t => (t.dg[3][0], t.ctxst))
    = some (0x200, .done) := by decide
/-- R257. -/
theorem test_finalize_rejects : after (.finalize 1280) (ctx .h256) (fun t => (t.fault, t.ctxst)) = some (8, .ready) := by
  decide

/-- The words of the spec's table EX1 (section 6). -/
def ex1 : StageTable := Vector.ofFn fun i =>
  match i.val with
  | 0 => 0x0000004000500081
  | 10 => 0x0000004000400020
  | 14 => 0x000000404040004F
  | 15 => 0x0040404000400010
  | 16 => 0x0020202000400071
  | 17 => 0x0000002000200012
  | 18 => 0x0000002000200013
  | n => 0x0000004000400000 + BitVec.ofNat 64 (n + 1)

theorem test_ex1_wf : wfTable ex1 = true := by decide
/-- Section 6: two memory-hard stages; a wide input behind the memory-hard stage. -/
theorem test_ex1_w2_w6 :
    wfTable (ex1.set 17 0x0000002000200072) || wfTable (ex1.set 17 0x0000002000400012) = false := by decide
/-- Section 6: the lattice-based output at 0; the first stage from RB; an AES stage with a primitive. -/
theorem test_ex1_w8_w3_w1 :
    wfTable (ex1.set 14 0x000000400040004F) || wfTable (ex1.set 0 0x0000004000500001)
      || wfTable (ex1.set 10 0x0000004000400021) = false := by decide

/-- A CORE with table EX1. -/
def demo : State := { State.reset with conf := { State.reset.conf with stages := ex1 } }

/-- Vector 6.1. -/
theorem test_chBegin : after .chBegin { demo with ln := Vector.replicate 4 0x01020304, hdr := Vector.replicate 20 0x12 }
    (fun t => (memRead t .hb 0 72 8, t.stage, t.chst)) = some ([0, 0, 0, 0x12, 1, 2, 3, 4], 0, .run) := by decide
/-- R205, the example, one byte. -/
theorem test_chEnd :
    after .chEnd { demo with chst := .run, stage := 19, rb := Vector.replicate 4 [(31, 0x1F), (32, 0x20)] }
      (fun t => (t.cd[3], t.chst)) = some ([(31, 0x1F)], .done) := by decide
/-- R222, the examples. -/
theorem test_cmp : [(0x00001235, 0), (0x00001234, 0xFFFFFFFF)].map (fun x : Word32 × Word32 => after (.cmp 0)
    { demo with
      chst := .done, cd := Vector.replicate 4 [(28, 0x34), (29, 0x12)],
      tgt := (Vector.replicate 8 0).set 7 x.1 |>.set 6 x.2 } (fun t => t.qual)) = [some 1, some 0] := by decide
/-- R226, the example. -/
theorem test_scBegin : after .scBegin { demo with first := 0x10 } (fun t => (t.nonce, t.attempts, t.scanst))
    = some (0x10, 0, .run) := by decide
/-- R259. -/
theorem test_chStep_sequence : after .chStep demo (fun t => t.fault) = some 0x40 := by decide
/-- R259. -/
theorem test_scIter_sequence : after .scIter demo (fun t => t.fault) = some 0x40 := by decide

/-! ## States that meet the hypotheses of the statements -/

/-- The memory of a state whose byte spaces are empty is in order. -/
theorem memOk_of_empty {s : State} (h1 : s.hb = Vector.replicate 4 []) (h2 : s.rb = Vector.replicate 4 [])
    (h3 : s.cd = Vector.replicate 4 []) : MemOk s := by
  intro sp l
  cases sp <;> simp [State.space, h1, h2, h3, Memory.wf, Memory.wfFrom, Memory.below]

theorem witness_encode_of_decode : decode (.command 0x40000003) = .ok (.cmp 3) := rfl
theorem witness_rows : (Instr.pad 0).row.covers (.command 0x2000FFFF) = true
    ∧ (Instr.pad 7).row.covers (.command 0x2000FFFF) = true := by decide
theorem witness_step_command : ∃ (s : State) (w : Word32) (i : Instr), s.inbox.head? ≠ some .reset
    ∧ s.cmd = .word w ∧ s.halted = false ∧ decodeCommand w = .ok i :=
  ⟨{ demo with cmd := .word 0x41000000, inbox := [.take, .reset] }, _, .scan, by decide, rfl, rfl, rfl⟩
theorem witness_step_descriptor : ∃ (s : State) (i : Instr) (hst : s.stage.toNat < 19), s.inbox.head? ≠ some .reset
    ∧ s.cmd = .word 0x32000000 ∧ s.halted = false ∧ s.chst = .run
      ∧ decodeDescriptor s.conf.stages[s.stage.toNat] = .ok i :=
  ⟨{ demo with cmd := .word 0x32000000, chst := .run, stage := 14 }, .stgLat { lat with prim := 15 }, by decide,
    by decide, rfl, rfl, rfl, rfl⟩
theorem witness_idle : demo.cmd = .idle ∧ demo.inbox = [] := ⟨rfl, rfl⟩
theorem witness_host_acts : ∃ (s : State) (a : HostAct) (rest : List HostAct), s.cmd = .idle ∧ s.inbox = a :: rest :=
  ⟨{ demo with inbox := [.take] }, _, _, rfl, rfl⟩
/-- The four actions allowed between two iterations; the others wait. -/
theorem witness_host_acts_in_scan : ∀ a ∈ [HostAct.read .nonce, .readFront, .take, .write .cancel 1],
    allowedInScan a = true ∧ ∃ s : State, s.cmd = .scan ∧ s.inbox = a :: [.reset] := by
  intro a ha
  refine ⟨?_, { demo with cmd := .scan, inbox := a :: [.reset] }, rfl, rfl⟩
  simp only [List.mem_cons, List.not_mem_nil, or_false] at ha
  rcases ha with rfl | rfl | rfl | rfl <;> rfl
theorem witness_host_waits : HostReg.max ≠ .cancel ∧ HostReg.cmd ≠ .cancel
    ∧ { demo with cmd := .scan, inbox := [.write .max 3] }.inbox = .write .max 3 :: []
    ∧ { demo with cmd := .scan, inbox := [.wait] }.inbox = .wait :: [] ∧ { demo with cmd := .scan }.inbox = [] :=
  ⟨by decide, by decide, rfl, rfl, rfl⟩
theorem witness_front : ∃ (s : State) (e : Submit) (rest : List Submit), s.subq = e :: rest ∧ demo.subq = [] :=
  ⟨{ demo with subq := [⟨1, []⟩, ⟨2, []⟩] }, _, _, rfl, rfl⟩
/-- R290: RESET abandons a scan in hand. -/
theorem witness_reset_step : ∃ (s : State) (rest : List HostAct), s.cmd = .scan ∧ s.inbox = .reset :: rest :=
  ⟨{ demo with cmd := .scan, inbox := [.reset] }, _, rfl, rfl⟩
theorem witness_halted : ∃ (s : State) (w : Word32), s.inbox.head? ≠ some .reset ∧ s.halted = true ∧ s.cmd = .word w :=
  ⟨{ demo with halted := true, cmd := .word 0 }, _, by decide, rfl, rfl⟩
theorem witness_illegal_opcode : ∀ i : Instr, i.row.covers (.command 0x44000000) = false := by
  intro i; cases i <;> simp only [Instr.row] <;> decide
theorem witness_illegal_operand : ∃ s : State, s.inbox.head? ≠ some .reset ∧ s.halted = false
    ∧ s.cmd = .word 0x11000002 ∧ ∀ i : Instr, i.row.covers (.command 0x11000002) = false := by
  refine ⟨{ demo with cmd := .word 0x11000002 }, by decide, rfl, rfl, ?_⟩
  intro i; cases i <;> simp only [Instr.row] <;> decide
theorem witness_fault_kept : ∃ s t : State, step s = .next t ∧ s.inbox.head? ≠ some .reset
    ∧ s.fault.getLsbD 6 = true ∧ s.halted = true :=
  ⟨{ demo with fault := 0x50, halted := true }, _, rfl, by decide, by decide, rfl⟩
theorem witness_reset_values : ∃ s : State, ResetValues s ∧ MemOk s ∧ s.k[(0 : Lane)] ≠ s.k[(1 : Lane)] :=
  ⟨{ demo with k := wide fun l => if l = 0 then 1 else 2 }, ⟨rfl, rfl, rfl, rfl, rfl, rfl, rfl, rfl, rfl, rfl, rfl, rfl,
    rfl, rfl⟩, memOk_of_empty rfl rfl rfl, by decide⟩
theorem witness_host_write : (HostReg.status ≠ .first ∧ HostReg.status ≠ .max ∧ HostReg.status ≠ .cancel
    ∧ HostReg.status ≠ .cmd) ∧ HostReg.msg 0 0 ≠ .msg 11 3 := by decide
theorem witness_bytes : (0 : Nat) < 16 ∧ 15 < 16 ∧ 3 < 4 := by decide
theorem witness_not_halted : demo.halted = false := rfl
theorem witness_ready_h256 : Ready .h256 (ctx .h256) := ⟨rfl, rfl⟩
theorem witness_ready_h512 : Ready .h512 (ctx .h512) := ⟨rfl, rfl⟩
theorem witness_not_ready : demo.ctxst ≠ .ready := by decide
theorem witness_dead : { demo with ctxst := .dead }.ctxst = .dead ∧ needsReady (.ffwd) = true := ⟨rfl, rfl⟩
theorem witness_done : { demo with ctxst := .done }.ctxst = .done ∧ needsReady (.finalize 0) = true := ⟨rfl, rfl⟩
theorem witness_bad_width : (384 : BitVec 16) ≠ 256 ∧ (384 : BitVec 16) ≠ 512 := by decide
theorem witness_mixed_rows (x : Grid) : ∃ s0 : Word128, s0 = x[(0 : Fin 4)][(3 : Fin 4)][(0 : Lane)] := ⟨_, rfl⟩
theorem witness_expansion_ready : Ready .h512 (ctx .h512) ∧ (ctx .h512).halted = false := ⟨⟨rfl, rfl⟩, rfl⟩

/-- A context that differs from `ctx .h256` in lane 1 only. -/
def other : State := { ctx .h256 with k := wide fun l => if l = 1 then 7 else 0 }

theorem witness_chaining_columns : ∃ x y : LaneGrid, x ≠ y ∧ ∀ r c : Fin 4, c.val < Hs.h256.cc → x[r][c] = y[r][c] :=
  ⟨laneGrid fun _ _ => 0, laneGrid fun _ c => BitVec.ofNat 128 c.val, by decide, by decide⟩
theorem witness_lanes : ∃ (i : Instr) (s t s' : State), ofContext i = true ∧ s ≠ t ∧ LaneAgree 0 s t
    ∧ exec i s = .next s' := by
  refine ⟨.ctrAdv, ctx .h256, other, _, rfl, ?_, ?_, rfl⟩
  · intro h
    have : (ctx .h256).k[1] = other.k[1] := by rw [h]
    exact absurd this (by decide)
  · constructor <;> first | exact fun _ _ => rfl | exact fun _ => rfl | rfl
theorem witness_lengths_ready : Ready .h256 (ctx .h256) ∧ legalLength .h256 1152 = true ∧ legalLength .h256 1536 = true
    ∧ legalLength .h256 1280 = false ∧ (ctx .h256).halted = false := ⟨⟨rfl, rfl⟩, by decide, by decide, by decide, rfl⟩
theorem witness_lengths : legalLength .h256 1152 && legalLength .h256 1536 && legalLength .h512 640
    && legalLength .h512 1024 && legalLength .h512 0 = true := by decide
theorem witness_bad_lengths : legalLength .h256 1280 || legalLength .h256 1408 || legalLength .h512 768
    || legalLength .h512 641 = false := by decide
theorem witness_digest_end : (15 : Nat) < 16 ∧ 16 * (1 : Fin 4).val + 15 < Hs.h256.bits / 8
    ∧ 16 * (3 : Fin 4).val + 15 < Hs.h512.bits / 8 := by decide
/-- A message of zeros is in MSG after reset. -/
theorem zero_message (n w k : Nat) :
    byteOf (laneBlock demo.msg 2 w) k = (List.replicate n (0 : Byte)).getD (16 * w + k) 0 := by
  have hm : laneBlock demo.msg 2 w = 0 := by
    simp [laneBlock, demo, State.reset, zeroWide]
  rw [hm, List.getD_eq_getElem?_getD, List.getElem?_replicate]
  split <;> simp [byteOf]

theorem witness_hash_short : legalBits .h512 (8 * (List.replicate 80 (0 : Byte)).length) = true
    ∧ ∀ w k : Nat, w < (List.replicate 80 (0 : Byte)).length / 16 → k < 16 →
      byteOf (laneBlock demo.msg 2 w) k = (List.replicate 80 (0 : Byte)).getD (16 * w + k) 0 :=
  ⟨by rw [List.length_replicate]; decide, fun w k _ _ => zero_message _ w k⟩
theorem witness_hash_full : legalBits .h256 (8 * (List.replicate 192 (0 : Byte)).length) = true
    ∧ ∀ w k : Nat, w < (List.replicate 192 (0 : Byte)).length / 16 → k < 16 →
      byteOf (laneBlock demo.msg 2 w) k = (List.replicate 192 (0 : Byte)).getD (16 * w + k) 0 :=
  ⟨by rw [List.length_replicate]; decide, fun w k _ _ => zero_message _ w k⟩

theorem witness_table : wfTable demo.conf.stages = true ∧ primsOk demo.conf = true ∧ MemOk demo :=
  ⟨by decide, rfl, memOk_of_empty rfl rfl rfl⟩

/-- A CORE whose table is all zeros: no stage reads the header. -/
def badTable : State := { demo with conf := { demo.conf with stages := Vector.replicate 19 0 } }

theorem witness_bad_table : wfTable badTable.conf.stages = false := by decide

/-- A chain evaluation about to run stage `g`. -/
def running (g : BitVec 5) : State := { demo with chst := .run, stage := g }

theorem witness_running_first : InChain (running 0) ∧ MemOk (running 0) ∧ wfTable (running 0).conf.stages = true
    ∧ primsOk (running 0).conf = true :=
  ⟨⟨rfl, by decide⟩, memOk_of_empty rfl rfl rfl, by decide, rfl⟩
theorem witness_running_last : InChain (running 18) ∧ kindAt (running 18).conf.stages 18 ≠ .aes
    ∧ wfTable (running 18).conf.stages = true ∧ primsOk (running 18).conf = true :=
  ⟨⟨rfl, by decide⟩, by decide, by decide, rfl⟩
theorem witness_not_in_chain : ¬ InChain (running 19) ∧ ¬ InChain demo :=
  ⟨fun h => absurd h.2 (by decide), fun h => absurd h.1 (by decide)⟩
/-- The first stage of EX1 as an instruction, with a primitive that behaves. -/
theorem witness_external_stage : (Instr.stgOrd first).wf = true ∧ (Instr.stgLat lat).wf = true
    ∧ (Instr.stgMh mh).wf = true ∧ InChain (running 0) ∧ MemOk (running 0)
    ∧ ∀ l : Lane, (primCall (running 0).conf first.prim (8 * first.outLen.toNat) (stageInput first (running 0) l)).length
        = first.outLen.toNat :=
  ⟨rfl, rfl, rfl, ⟨rfl, by decide⟩, memOk_of_empty rfl rfl rfl, fun _ => primCall_length rfl _ _ _⟩

/-- A platform whose primitive 1 answers two bytes where 64 are asked for. -/
def misbehaving : State :=
  { running 0 with conf := { demo.conf with primAnswers := [⟨1, 512, List.replicate 80 0, [1, 2]⟩] } }

theorem witness_misbehaving : InChain misbehaving ∧ MemOk misbehaving ∧ wfTable misbehaving.conf.stages = true
    ∧ first = fieldsAt misbehaving.conf.stages ⟨misbehaving.stage.toNat, by decide⟩
    ∧ kindAt misbehaving.conf.stages ⟨misbehaving.stage.toNat, by decide⟩ ≠ .aes
    ∧ ∃ l : Lane, (primCall misbehaving.conf first.prim (8 * first.outLen.toNat)
        (stageInput first misbehaving l)).length ≠ first.outLen.toNat :=
  ⟨⟨rfl, by decide⟩, memOk_of_empty rfl rfl rfl, by decide, by decide, by decide, 0, by decide⟩
theorem witness_aes_stage : (Instr.stgAes aes).wf = true ∧ Hs.h512.bits = 8 * aes.outLen.toNat
    ∧ (Instr.stgAes { aes with inLen := 32, outLen := 32 }).wf = true ∧ Hs.h256.bits = 8 * (32 : Byte).toNat
    ∧ InChain (running 10) ∧ MemOk (running 10) :=
  ⟨rfl, rfl, rfl, rfl, ⟨rfl, by decide⟩, memOk_of_empty rfl rfl rfl⟩
theorem witness_chain_end : (running 19).chst = .run ∧ (running 19).stage = 19
    ∧ wfTable (running 19).conf.stages = true ∧ MemOk (running 19) :=
  ⟨rfl, rfl, by decide, memOk_of_empty rfl rfl rfl⟩
theorem witness_no_chain_end : demo.chst ≠ .run ∧ (running 18).stage ≠ 19 := by decide
theorem witness_sequence : demo.chst ≠ .run ∧ (running 19).stage = 19 ∧ demo.chst ≠ .done ∧ demo.scanst ≠ .run := by
  decide
theorem witness_chain_runs : ∃ t : State, exec .chain badTable = .next t := ⟨_, rfl⟩
/-- Eight zero words but for the top one. -/
def top (w : Word32) : Vector Word32 8 := (Vector.replicate 8 0).set 7 w

/-- Below the target and accepted; equal in the top word, below and rejected; a zero top word. -/
theorem witness_acceptance : topLess (top 1) (top 2) = true ∧ accept (top 1) (top 2) = true
    ∧ (bigValue (top 2) < bigValue ((top 2).set 0 1) ∧ accept (top 2) ((top 2).set 0 1) = false)
    ∧ (top 0)[7] = 0 := by decide
theorem witness_cmp : ∃ (s : State) (dw : Vector Word32 8), s.chst = .done
    ∧ ∀ i : Fin 8, dw[i] = s.byteAt .cd 3 (4 * i.val + 3) ++ s.byteAt .cd 3 (4 * i.val + 2)
      ++ s.byteAt .cd 3 (4 * i.val + 1) ++ s.byteAt .cd 3 (4 * i.val) :=
  ⟨{ demo with chst := .done }, Vector.replicate 8 0, rfl, by decide⟩

/-- A running scan of the nonces below 16. -/
def scanning : State := { demo with scanst := .run, max := 16 }

theorem witness_scIter : ∃ (s : State) (cnt : Nat) (dig : Lane → List Byte) (ok : Lane → Bool),
    s.scanst = .run ∧ wfTable s.conf.stages = true ∧ primsOk s.conf = true ∧ MemOk s ∧ cnt = activeCount s
      ∧ (∀ l : Lane, dig l =
          chainHash s.conf (headerWith s.hdr (if l.val < cnt then s.nonce + BitVec.ofNat 32 l.val else s.nonce)))
      ∧ ∀ l : Lane, ok l = (decide (l.val < cnt) && accept (wordsOfDigest (dig l)) s.tgt) :=
  ⟨scanning, _, _, _, rfl, by decide, rfl, memOk_of_empty rfl rfl rfl, rfl, fun _ => rfl, fun _ => rfl⟩
theorem witness_scIter_bad_table : { badTable with scanst := .run }.scanst = .run
    ∧ wfTable { badTable with scanst := .run }.conf.stages = false := ⟨rfl, by decide⟩
/-- The same on the platform whose primitive 1 misbehaves on the header of zeros: `CHAIN` halts in stage 0. -/
def scanMisbehaving : State := { scanning with conf := misbehaving.conf }

theorem witness_scIter_misbehaving : ∃ u : State, scanMisbehaving.scanst = .run ∧ scanMisbehaving.halted = false
    ∧ wfTable scanMisbehaving.conf.stages = true ∧ exec .chain (nonceWritten scanMisbehaving) = .next u
    ∧ u.halted = true := by
  have h : (after .chain (nonceWritten scanMisbehaving) fun u => u.halted) = some true := by decide
  unfold after at h
  split at h
  · rename_i u hu
    exact ⟨u, rfl, rfl, by decide, hu, by simpa using h⟩
  · cases h
theorem witness_scan : wfTable scanning.conf.stages = true ∧ primsOk scanning.conf = true ∧ MemOk scanning
    ∧ scanning.cmd = .idle ∧ scanning.halted = false ∧ HostAct.reset ∉ scanning.inbox ∧ scanning.inbox = []
    ∧ scanning.polls = [] ∧ scanning.cancel = false ∧ scanning.first < scanning.max
    ∧ 15 + 1 = (scanning.max.toNat - scanning.first.toNat + batchSize scanning.conf.batch - 1)
        / batchSize scanning.conf.batch :=
  ⟨by decide, rfl, memOk_of_empty rfl rfl rfl, rfl, rfl, by decide, rfl, rfl, rfl, by decide, by decide⟩
/-- A host that takes events, reads, cancels and tries to write MAX while the scan runs. -/
theorem witness_busy_host : HostAct.reset ∉ { scanning with
      inbox := [.take, .read .scanst, .wait, .write .cancel 1, .write .max 0] }.inbox
    ∧ HostAct.take ∉ { scanning with inbox := [.readFront, .wait] }.inbox := by decide

/-- The same with CANCEL set and four nonces to an iteration. -/
def cancelled : State := { scanning with cancel := true, conf := { scanning.conf with batch := .four } }

theorem witness_scan_cancelled : wfTable cancelled.conf.stages = true ∧ primsOk cancelled.conf = true
    ∧ MemOk cancelled ∧ cancelled.polls = [] ∧ cancelled.cancel = true
    ∧ cancelled.first.toNat + batchSize cancelled.conf.batch < cancelled.max.toNat
    ∧ { cancelled with max := 4 }.max.toNat ≤ cancelled.first.toNat + batchSize cancelled.conf.batch :=
  ⟨by decide, rfl, memOk_of_empty rfl rfl rfl, rfl, rfl, by decide, by decide⟩

/-- A scan of two nonces issued to a CORE that is ready for it. -/
def scanOfTwo : State := { demo with max := 2, cmd := .word 0x41000000 }

/-- A scan that runs to its end: between its two iterations SCANST reads `RUN` and the command is in hand; after the
second it has ended, with `EXHAUSTED` and without a fault. -/
theorem witness_scan_completes : ∃ v t : State,
    runSteps 1 scanOfTwo = .next v ∧ v.cmd = .scan ∧ v.inbox = [] ∧ v.scanst = .run ∧ v.halted = false
      ∧ hostRead v .scanst = some 1
      ∧ runSteps 2 scanOfTwo = .next t ∧ t.cmd = .idle ∧ t.scanst = .exhausted ∧ t.halted = false := by
  have hw : wfTable demo.conf.stages = true := by decide
  obtain ⟨u, hu, hn, hs, _, _, _, hm, hf, hi, _, hh, _⟩ := scIter_runs (s := scBegun (emptyCmd scanOfTwo)) rfl hw rfl
  have hs : u.scanst = .run := hs
  have hc : (scanGoesOn u).cmd = .scan := by rw [scanGoesOn_cmd, if_pos hs]
  have h1 : step scanOfTwo = .next (scanGoesOn u) := exec_scan_of_scIter hu
  generalize hv : scanGoesOn u = v at h1 hc
  have hv : v.nonce = 1 ∧ v.max = 2 ∧ v.conf = demo.conf ∧ v.inbox = [] ∧ v.scanst = .run ∧ v.halted = false := by
    rw [← hv]
    exact ⟨(scanGoesOn_nonce u).trans hn, (scanGoesOn_max u).trans hm, (scanGoesOn_conf u).trans hf,
      (scanGoesOn_inbox u).trans hi, (scanGoesOn_scanst u).trans hs, (scanGoesOn_halted u).trans hh⟩
  obtain ⟨hn, hm, hf, hi, hs, hh⟩ := hv
  obtain ⟨w, hw', _, hs', _, _, _, _, _, _, _, hh', hd'⟩ :=
    scIter_runs (s := emptyCmd v) hs (by rw [emptyCmd_conf, hf]; exact hw) (by rw [emptyCmd_conf, hf]; rfl)
  have hcnt : 0 < activeCount (emptyCmd v) := List.countP_pos_iff.2 ⟨0, List.mem_finRange 0, Bool.or_eq_true_iff.2 (.inl rfl)⟩
  have hs' : w.scanst = .exhausted := by
    rw [hs', emptyCmd_nonce, emptyCmd_max, hn, hm]
    exact if_pos (show 2 ≤ 1 + activeCount (emptyCmd v) by omega)
  have h2 : step v = .next w := by
    rw [step_of_scIter hc hi hs hw', scanGoesOn, if_neg (by rw [hs']; decide)]
  refine ⟨v, w, by simp only [runSteps, h1], hc, hi, hs, hh, ?_, by simp only [runSteps, h1, h2],
    hd', hs', hh'.trans hh⟩
  rw [hostRead, hs]
  rfl

theorem witness_scan_issued : scanOfTwo.cmd = .word 0x41000000 ∧ scanOfTwo.inbox = [] ∧ scanOfTwo.halted = false :=
  ⟨rfl, rfl, rfl⟩
theorem witness_scan_in_hand : ∃ s t : State, s.cmd = .scan ∧ s.inbox.head? ≠ some .reset ∧ step s = .next t
    ∧ t.subq = [] :=
  ⟨{ scanning with cmd := .scan, subq := [⟨1, []⟩], inbox := [.take] }, _, rfl, by decide, rfl, rfl⟩
theorem witness_next : ∃ t : State, exec .scBegin demo = .next t ∧ step demo = .next demo ∧ demo.polls = []
    ∧ t.chst = .idle := ⟨_, rfl, rfl, rfl, rfl⟩

/-- The invariant holds of a chain evaluation under way, and a step from it answers. -/
theorem witness_inv : Inv (running 3) ∧ ∃ t : State, step (running 3) = .next t := by
  refine ⟨⟨rfl, memOk_of_empty rfl rfl rfl, by decide, by decide, fun _ => by decide, by decide, ?_, rfl, ?_,
    fun h => absurd h (by decide)⟩, _, rfl⟩
  · intro i hi
    simp [running, demo, State.reset] at hi
  · intro e he
    simp [running, demo, State.reset] at he
theorem witness_wf_instruction : Inv (running 3) ∧ (Instr.stgMh mh).wf = true ∧ (Instr.finalize 3).wf = true :=
  ⟨witness_inv.1, rfl, rfl⟩

end Sys2Proof.Tests
end

section
/-! The AES round and the doubling (spec/40_aes_primitives.md R121 to R129): bytes of a word, doubling as arithmetic on
bytes, and the S-box by its algebraic definition. -/

namespace Sys2Proof.Machine

/-- Byte `k` of the word given byte by byte (R11). -/
@[simp] theorem byteOf_wordOfBytes (f : Nat → Byte) {k : Nat} (hk : k < 16) : byteOf (wordOfBytes f) k = f k := by
  have hword : wordOfBytes f = wordAt ((List.range 16).map f) 0 := by
    rw [wordAt, Nat.mul_zero, List.drop_zero, List.take_of_length_le (by simp), wordOfBytes]
  rw [hword, byteOf_wordAt _ _ _ hk]
  simp [List.getD_eq_getElem?_getD, hk]

/-- A word is determined by its 16 bytes (R11). -/
theorem word_eq_of_byteOf {x y : Word128} (h : ∀ k, k < 16 → byteOf x k = byteOf y k) : x = y := by
  apply BitVec.eq_of_getLsbD_eq
  intro i hi
  have hbyte := congrArg (·.getLsbD (i % 8)) (h (i / 8) (by omega))
  have hpos : 8 * (i / 8) + i % 8 = i := Nat.div_add_mod i 8
  simpa [byteOf, BitVec.getLsbD_extractLsb', Nat.mod_lt, hpos] using hbyte

theorem byteOf_dbl128 (w : Word128) {k : Nat} (hk : k < 16) : byteOf (dbl128 w) k = xtime (byteOf w k) :=
  byteOf_wordOfBytes _ hk

/-- `xtime` on numbers: the shifted-out bit is reduced by `GF_RED` (R121). -/
theorem xtime_toNat (b : Byte) :
    (xtime b).toNat = if b.toNat < 128 then 2 * b.toNat else (2 * b.toNat - 256) ^^^ 0x1B := by
  have hb := b.isLt
  have hmsb : b.msb = decide (128 ≤ b.toNat) := BitVec.msb_eq_decide b
  by_cases hlt : b.toNat < 128
  · have hm : b.msb = false := by rw [hmsb]; simpa using hlt
    have hshift : (b <<< 1).toNat = 2 * b.toNat := by
      rw [BitVec.toNat_shiftLeft, Nat.shiftLeft_eq]; omega
    simp [xtime, hm, hlt, hshift]
  · have hm : b.msb = true := by rw [hmsb]; simpa using hlt
    have hshift : (b <<< 1).toNat = 2 * b.toNat - 256 := by
      rw [BitVec.toNat_shiftLeft, Nat.shiftLeft_eq]; omega
    simp [xtime, hm, hlt, hshift, gfRed]

theorem gfMul_two (b : Byte) : gfMul b 2 = xtime b := by simp [gfMul, List.range, List.range.loop]

theorem gfMul_three (b : Byte) : gfMul b 3 = b ^^^ xtime b := by simp [gfMul, List.range, List.range.loop]

/-- The affine map of the S-box (R122). -/
def sboxAffine (b : Byte) : Byte :=
  b ^^^ b.rotateLeft 1 ^^^ b.rotateLeft 2 ^^^ b.rotateLeft 3 ^^^ b.rotateLeft 4 ^^^ 0x63

/-- The inverse of the affine map: it takes a table entry back to the field inverse it was made from. -/
def sboxAffineInv (y : Byte) : Byte := y.rotateLeft 1 ^^^ y.rotateLeft 3 ^^^ y.rotateLeft 6 ^^^ 0x05

theorem sboxAffine_inv : ∀ y : Byte, sboxAffine (sboxAffineInv y) = y := by decide

/-- The byte an S-box entry was made from is the field inverse of its index: a check of the 255 entries of the table. -/
theorem gfMul_sboxAffineInv_sbox : ∀ x : Byte, x ≠ 0 → gfMul x (sboxAffineInv (sbox x)) = 1 := by decide

theorem sboxAffineInv_sbox_zero : sboxAffineInv (sbox 0) = 0 := by decide

/-- Settles O14: the S-box byte is the affine image of `sboxAffineInv (sbox x)`, the inverse of `x`. -/
theorem doublingActsOnEachByte : Obligations.DoublingActsOnEachByte := by
  refine ⟨xtime_toNat, fun b => ⟨(gfMul_two b).symm, ?_⟩, fun x => ⟨sboxAffineInv (sbox x), ?_, ?_⟩,
    fun _ _ _ => rfl, fun w _ hk => byteOf_dbl128 w hk⟩
  · rw [gfMul_three, BitVec.xor_comm]; rfl
  · by_cases hx : x = 0
    · rw [if_pos hx, hx, sboxAffineInv_sbox_zero]
    · rw [if_neg hx, gfMul_sboxAffineInv_sbox x hx]
  · exact (sboxAffine_inv (sbox x)).symm

end Sys2Proof.Machine
end

section
/-! One lane of the context (spec/41_compression_engine.md R141): every operation on grids is, lane by lane, the function
of `Machine/Reference.lean`, and so `COMPRESS` is. -/

namespace Sys2Proof.Machine

/-! ## Lanes of grids -/

theorem laneGrid_getElem (f : Fin 4 → Fin 4 → Word128) (r c : Fin 4) : (laneGrid f)[r][c] = f r c := by
  simp [laneGrid]

theorem laneOf_getElem (g : Grid) (l : Lane) (r c : Fin 4) : (laneOf g l)[r][c] = g[r][c][l] :=
  laneGrid_getElem _ r c

theorem laneOf_getElem_column (g : Grid) (l : Lane) (r : Fin 4) (c : Nat) (hc : c < 4) :
    (laneOf g l)[r][c] = g[r][c][l] := laneOf_getElem g l r ⟨c, hc⟩

/-- Two lane grids given word by word are equal when the words are. -/
theorem laneGrid_congr {f g : Fin 4 → Fin 4 → Word128} (h : ∀ r c, f r c = g r c) : laneGrid f = laneGrid g :=
  congrArg laneGrid (funext fun r => funext fun c => h r c)

theorem laneOf_grid (f : Fin 4 → Fin 4 → Wide) (l : Lane) : laneOf (grid f) l = laneGrid fun r c => (f r c)[l] :=
  laneGrid_congr fun r c => by rw [grid_getElem]

/-- A word of the lane's block is the lane of a register of the block. -/
theorem laneBlock_of_lt (b : Vector Wide 12) (l : Lane) {w : Nat} (hw : w < 12) : laneBlock b l w = b[w][l] := dif_pos hw

theorem laneOf_initialGrid (h : Hs) (l : Lane) : laneOf (initialGrid h) l = laneInit h := by
  rw [initialGrid, laneOf_grid, laneInit]
  refine laneGrid_congr fun r c => ?_
  split <;> simp

theorem laneOf_loadedGrid (h : Hs) (a : Grid) (block : Vector Wide 12) (l : Lane) :
    laneOf (loadedGrid h a block) l = laneLoad h (laneOf a l) (laneBlock block l) := by
  rw [loadedGrid, laneOf_grid, laneLoad]
  refine laneGrid_congr fun r c => ?_
  split
  · exact (laneBlock_of_lt block l (blockIndex h r c).isLt).symm
  · exact (laneOf_getElem a l r c).symm

theorem laneOf_subGrid (x : Grid) (k1 : Wide) (l : Lane) :
    laneOf (subGrid x k1) l = laneSub (laneOf x l) k1[l] := by
  rw [subGrid, laneOf_grid, laneSub]
  exact laneGrid_congr fun r c => by rw [wide_getElem, wordKey, laneOf_getElem]

theorem laneOf_mixGrid (x : Grid) (l : Lane) : laneOf (mixGrid x) l = laneMix (laneOf x l) := by
  rw [mixGrid, laneOf_grid, laneMix]
  refine laneGrid_congr fun i j => ?_
  rw [wide_getElem, laneOf_getElem, laneOf_getElem, laneOf_getElem, laneOf_getElem]
  simp only [mixSource, add_zero]

theorem laneOf_feedForward (h : Hs) (a bk : Grid) (l : Lane) :
    laneOf (feedForward h a bk) l = laneFeed h (laneOf a l) (laneOf bk l) := by
  cases h with
  | h256 =>
    rw [feedForward, laneOf_grid, laneFeed]
    refine laneGrid_congr fun r c => ?_
    rw [wide_getElem]
    split
    · simp only [laneOf_getElem_column]
    · exact (laneOf_getElem a l r c).symm
  | h512 =>
    rw [feedForward, laneOf_grid, laneFeed]
    refine laneGrid_congr fun r c => ?_
    rw [wide_getElem]
    split
    · simp only [laneOf_getElem_column]
    · split
      · simp only [laneOf_getElem_column]
      · exact (laneOf_getElem a l r c).symm

/-! ## The compression in one lane -/

variable {h : Hs} {s : State}

/-- K1 after a `SUBW` (R146). -/
def keysTaken (k1 : Wide) : Wide := wide fun l => k1[l] + 16

theorem keysTaken_getElem (k1 : Wide) (l : Lane) : (keysTaken k1)[l] = k1[l] + 16 := wide_getElem _ l

/-- `SUBW` and `MIXB` of one grid, into the other (R149): half a round-pair. -/
def halfRound (x : Grid) (k1 : Wide) : Grid := mixGrid (subGrid x k1)

theorem laneOf_halfRound (x : Grid) (k1 : Wide) (l : Lane) :
    laneOf (halfRound x k1) l = laneMix (laneSub (laneOf x l) k1[l]) := by
  rw [halfRound, laneOf_mixGrid, laneOf_subGrid]

/-- The state a round-pair leaves (R149): through grid B and back. -/
def pairState (s : State) : State :=
  { s with
    a := halfRound (halfRound s.a s.k1) (keysTaken s.k1)
    b := subGrid (halfRound s.a s.k1) (keysTaken s.k1)
    k1 := keysTaken (keysTaken s.k1) }

/-- In a `READY` context a round-pair runs (R149). -/
theorem roundPair_ready (hr : Ready h s) : roundPair s = .ok (ran (pairState s)) := by
  unfold roundPair
  rw [subw_a_ready hr, andThen_ran, mixb_a_ready (h := h), andThen_ran, subw_b_ready (h := h), andThen_ran,
    mixb_b_ready (h := h)]
  · rfl
  all_goals exact hr

theorem repeated_roundPair_ready (hr : Ready h s) (n : Nat) :
    repeated roundPair n s = .ok (ran (pairState^[n] s)) := by
  induction n generalizing s with
  | zero => rfl
  | succ n ih =>
    rw [repeated_succ, roundPair_ready hr, andThen_ran, ih (s := pairState s) hr, Function.iterate_succ_apply]

theorem roundPairs_ready (hr : Ready h s) : roundPairs s = .ok (ran (pairState^[h.rounds / 2] s)) := by
  rw [roundPairs, hr.2, cfgROUNDS_cfgWord, repeated_roundPair_ready hr]

/-- Round-pairs write the grids and K1 only. -/
theorem iterate_pairState_frame (n : Nat) (s : State) : pairState^[n] s =
    { s with a := (pairState^[n] s).a, b := (pairState^[n] s).b, k1 := (pairState^[n] s).k1 } := by
  induction n generalizing s with
  | zero => rfl
  | succ n ih => exact ih (pairState s)

/-- Round-pairs in one lane are the lane function (R149). -/
theorem laneOf_iterate_pairState (n : Nat) (s : State) (l : Lane) :
    laneOf (pairState^[n] s).a l = laneRounds n (laneOf s.a l) s.k1[l] := by
  induction n generalizing s with
  | zero => rfl
  | succ n ih =>
    have hkey : (pairState s).k1[l] = s.k1[l] + 32 := by
      rw [pairState, keysTaken_getElem, keysTaken_getElem, BitVec.add_assoc]; rfl
    rw [Function.iterate_succ_apply, ih, hkey, pairState, laneOf_halfRound, laneOf_halfRound, keysTaken_getElem,
      laneRounds]

/-- The state before the round-pairs of `COMPRESS`: after `CTR.ADV`, `LDM` and `SAVE` (R149). -/
def loadedState (h : Hs) (src : BlockSrc) (s : State) : State :=
  { s with
    a := loadedGrid h s.a (s.blockOf src)
    bk := loadedGrid h s.a (s.blockOf src)
    k := wide fun l => s.k[l] + BitVec.ofNat 128 h.blockInc
    k1 := wide fun l => s.k[l] + BitVec.ofNat 128 h.blockInc }

/-- The state `FFWD` leaves (R148). -/
def feedState (h : Hs) (s : State) : State := { s with a := feedForward h s.a s.bk }

/-- The state `COMPRESS` leaves in a `READY` context (R149). -/
def compressState (h : Hs) (src : BlockSrc) (s : State) : State :=
  feedState h (pairState^[h.rounds / 2] (loadedState h src s))

/-- `COMPRESS` writes the grids and the counters only. -/
theorem compressState_frame (h : Hs) (src : BlockSrc) (s : State) : compressState h src s =
    { s with
      a := (compressState h src s).a, b := (compressState h src s).b, bk := (compressState h src s).bk
      k := wide fun l => s.k[l] + BitVec.ofNat 128 h.blockInc, k1 := (compressState h src s).k1 } := by
  unfold compressState
  rw [iterate_pairState_frame]
  rfl

/-- In a `READY` context `COMPRESS` runs (R149). -/
theorem compress_ready (src : BlockSrc) (hr : Ready h s) : compress src s = .ok (ran (compressState h src s)) := by
  have hpairs : roundPairs (loadedState h src s) = .ok (ran (pairState^[h.rounds / 2] (loadedState h src s))) :=
    roundPairs_ready (h := h) hr
  have hfeed : ffwd (pairState^[h.rounds / 2] (loadedState h src s)) = .ok (ran (compressState h src s)) := by
    refine ffwd_ready (h := h) ?_
    rw [iterate_pairState_frame]
    exact hr
  have hsave : andThen (andThen (ctrAdv s) (ldm src)) save = .ok (ran (loadedState h src s)) := by
    rw [ctrAdv_ready hr, andThen_ran, ldm_ready (h := h), andThen_ran, save_ready (h := h)]
    · cases src <;> rfl
    all_goals exact hr
  rw [compress, hsave, andThen_ran, hpairs, andThen_ran, hfeed]

/-- `COMPRESS` in one lane is the compression function of one lane (R149). -/
theorem laneOf_compressState (h : Hs) (src : BlockSrc) (s : State) (l : Lane) :
    laneOf (compressState h src s).a l = laneCompress h s.k[l] (laneOf s.a l) (laneBlock (s.blockOf src) l) := by
  have hbk : (pairState^[h.rounds / 2] (loadedState h src s)).bk = loadedGrid h s.a (s.blockOf src) := by
    rw [iterate_pairState_frame]; rfl
  have hk1 : (loadedState h src s).k1[l] = s.k[l] + BitVec.ofNat 128 h.blockInc := wide_getElem _ l
  rw [compressState, feedState, laneOf_feedForward, laneOf_iterate_pairState, hbk, hk1, laneCompress]
  rw [loadedState, laneOf_loadedGrid]

end Sys2Proof.Machine
end

section
/-! `FINALIZE` (spec/42_finalizer.md R171 to R179) in a `READY` context: the state it leaves, and in a fresh context the
digest of every lane as the hash of that lane's message. -/

namespace Sys2Proof.Machine

variable {h : Hs} {s : State}

/-! ## What a compression reads of its block, and a hash of its message -/

theorem blockIndex_lt (h : Hs) (r c : Fin 4) : 4 * (c.val - h.cc) + r.val < h.blkw := by
  cases h <;> simp only [Hs.cc, Hs.blkw] <;> omega

/-- A compression reads the first `BLKW` words of its block only (R144). -/
theorem laneCompress_congr (k : Word128) (a : LaneGrid) {x y : Nat → Word128} (hxy : ∀ w, w < h.blkw → x w = y w) :
    laneCompress h k a x = laneCompress h k a y := by
  have hload : laneLoad h a x = laneLoad h a y := laneGrid_congr fun r c => by rw [hxy _ (blockIndex_lt h r c)]
  rw [laneCompress, laneCompress, hload]

/-- The terminal block reads the message words it holds only (R172). -/
theorem laneFinish_congr (m : LenHiMode) (n : BitVec 16) (k : Word128) (a : LaneGrid) {x y : Nat → Word128}
    (hxy : ∀ w, w < messageWords h n → x w = y w) : laneFinish m h n x k a = laneFinish m h n y k a := by
  have hterm : laneTerminal m h n x = laneTerminal m h n y := funext fun w => by
    unfold laneTerminal
    split
    · rename_i hw; exact hxy w hw
    · rfl
  rw [laneFinish, laneFinish, hterm]

/-- The terminal block of a context whose PBITS is still 0, in one lane (R172). -/
theorem laneBlock_terminalBlock (m : LenHiMode) (n : BitVec 16) (msg buf : Vector Wide 12) (l : Lane) {w : Nat}
    (hw : w < h.blkw) : laneBlock (terminalBlock m h n (padPbits n 0) msg buf) l w
      = laneTerminal m h n (laneBlock msg l) w := by
  have hw12 : w < 12 := hw.trans_le (by cases h <;> decide)
  rw [laneBlock_of_lt _ _ hw12, laneTerminal, laneBlock_of_lt _ _ hw12, terminalBlock, Vector.getElem_ofFn]
  dsimp only
  split
  · rfl
  · split
    · exact splat_getElem _ l
    · split
      · exact splat_getElem _ l
      · split
        · exact splat_getElem _ l
        · rw [if_pos (by omega)]
          exact splat_getElem _ l

/-! ## The state `FINALIZE` leaves -/

/-- The state after `PAD` and `CTR.FIX` (R172, R174). -/
def paddedState (h : Hs) (n : BitVec 16) (s : State) : State :=
  { padState h n s with k := wide fun l => s.k[l] + padRem h n - BitVec.ofNat 128 h.blockInc }

/-- The state `XTRACT` leaves (R175). -/
def extractState (h : Hs) (s : State) : State := { s with dg := digestRegisters h s.a, ctxst := .done }

/-- The state after the full block, where the length is one (R177). -/
def fullBlockState (h : Hs) (n : BitVec 16) (s : State) : State :=
  if isFullBlock h n = true then compressState h .msg s else s

/-- The state `FINALIZE` of a legal length leaves in a `READY` context (R177). -/
def finalizeState (h : Hs) (n : BitVec 16) (s : State) : State :=
  extractState h (compressState h .buf (paddedState h n (fullBlockState h n s)))

theorem Ready.compressState (hr : Ready h s) (src : BlockSrc) : Ready h (compressState h src s) := by
  rw [compressState_frame]
  exact hr

theorem isFullBlock_iff (h : Hs) (n : BitVec 16) : isFullBlock h n = true ↔ n.toNat = 128 * h.blkw := beq_iff_eq

theorem fullBlock_ready (n : BitVec 16) (hr : Ready h s) : fullBlock n s = .ok (ran (fullBlockState h n s)) := by
  rw [fullBlock, hr.2, cfgBLKW_cfgWord, fullBlockState]
  by_cases hn : n.toNat = 128 * h.blkw
  · rw [if_pos hn, if_pos ((isFullBlock_iff h n).2 hn), compress_ready .msg hr]
  · rw [if_neg hn, if_neg (mt (isFullBlock_iff h n).1 hn)]

/-- A full block writes the grids and the counters only. -/
theorem fullBlockState_frame (h : Hs) (n : BitVec 16) (s : State) : fullBlockState h n s =
    { s with
      a := (fullBlockState h n s).a, b := (fullBlockState h n s).b, bk := (fullBlockState h n s).bk
      k := (fullBlockState h n s).k, k1 := (fullBlockState h n s).k1 } := by
  unfold fullBlockState
  split
  · rw [compressState_frame]
  · rfl

theorem Ready.fullBlockState (hr : Ready h s) (n : BitVec 16) : Ready h (fullBlockState h n s) := by
  rw [fullBlockState_frame]
  exact hr

/-- In a `READY` context `FINALIZE` of a legal length runs (R177). -/
theorem finalize_ready {n : BitVec 16} (hr : Ready h s) (hn : legalLength h n = true) :
    finalize n s = .ok (ran (finalizeState h n s)) := by
  have hfull : Ready h (fullBlockState h n s) := hr.fullBlockState n
  have hpadded : Ready h (paddedState h n (fullBlockState h n s)) := hfull
  have hfix : ctrFix (padState h n (fullBlockState h n s)) = .ok (ran (paddedState h n (fullBlockState h n s))) :=
    ctrFix_ready (h := h) hfull
  rw [finalize, checkLength_ready hr, if_pos hn, andThen_ran, fullBlock_ready n hr, andThen_ran, pad_ready hfull,
    if_pos hn, andThen_ran, hfix, andThen_ran, compress_ready .buf hpadded, andThen_ran,
    xtract_ready (hpadded.compressState .buf)]
  rfl

/-- `FINALIZE` writes the registers of the context only, and neither MSG nor CFG (R177). -/
theorem finalizeState_frame (h : Hs) (n : BitVec 16) (s : State) : finalizeState h n s =
    { s with
      a := (finalizeState h n s).a, b := (finalizeState h n s).b, bk := (finalizeState h n s).bk
      k := (finalizeState h n s).k, k1 := (finalizeState h n s).k1, buf := (finalizeState h n s).buf
      pbits := (finalizeState h n s).pbits, rem := (finalizeState h n s).rem, dg := (finalizeState h n s).dg
      ctxst := .done } := by
  unfold finalizeState
  rw [compressState_frame, fullBlockState_frame]
  rfl

/-! ## The digest -/

theorem take_two_words (x y u v : Word128) :
    (bytesOf x ++ bytesOf y ++ bytesOf u ++ bytesOf v).take (Hs.h256.bits / 8) = bytesOf x ++ bytesOf y := by
  rw [List.append_assoc (bytesOf x ++ bytesOf y)]
  exact List.take_left' (by simp [Hs.bits])

/-- The digest of a width is the first words of column 0 (R175, R176). -/
theorem digestBytes_extractState (h : Hs) (s : State) (l : Lane) :
    digestBytes (extractState h s) (h.bits / 8) l
      = (bytesOf (laneOf s.a l)[0][0] ++ bytesOf (laneOf s.a l)[1][0] ++ bytesOf (laneOf s.a l)[2][0]
          ++ bytesOf (laneOf s.a l)[3][0]).take (h.bits / 8) := by
  have hdg (w : Nat) (hw : w < 4) (hin : w < h.bits / 128) :
      (extractState h s).dg[w][l] = (laneOf s.a l)[w][0] := by
    rw [extractState, digestRegisters, Vector.getElem_ofFn, if_pos hin]
    exact (laneOf_getElem s.a l ⟨w, hw⟩ 0).symm
  cases h with
  | h256 =>
    rw [digestBytes, take_two_words, take_two_words, hdg 0 (by omega) (by decide), hdg 1 (by omega) (by decide)]
  | h512 =>
    rw [digestBytes, hdg 0 (by omega) (by decide), hdg 1 (by omega) (by decide), hdg 2 (by omega) (by decide),
      hdg 3 (by omega) (by decide)]

/-- The terminal compression and the digest, from a state whose PBITS is still 0 (R172 to R177). -/
theorem digestBytes_terminal (n : BitVec 16) (l : Lane) (hp : s.pbits = 0) :
    digestBytes (extractState h (compressState h .buf (paddedState h n s))) (h.bits / 8) l
      = laneFinish s.conf.lenHi h n (laneBlock s.msg l) s.k[l] (laneOf s.a l) := by
  have hgrid : laneOf (compressState h .buf (paddedState h n s)).a l
      = laneCompress h (s.k[l] + padRem h n - BitVec.ofNat 128 h.blockInc) (laneOf s.a l)
          (laneTerminal s.conf.lenHi h n (laneBlock s.msg l)) := by
    have hk : (paddedState h n s).k[l] = s.k[l] + padRem h n - BitVec.ofNat 128 h.blockInc := wide_getElem _ l
    have hbuf : (paddedState h n s).blockOf .buf = terminalBlock s.conf.lenHi h n (padPbits n 0) s.msg s.buf := by
      rw [← hp]; rfl
    rw [laneOf_compressState, hk, hbuf]
    exact laneCompress_congr _ _ fun w hw => laneBlock_terminalBlock _ _ _ _ _ hw
  rw [digestBytes_extractState, hgrid, laneFinish]

/-- A context fresh from `CTX.INIT` (R142). -/
structure FreshContext (h : Hs) (s : State) : Prop where
  ready : Ready h s
  grid : s.a = initialGrid h
  counter : s.k = splat 0
  length : s.pbits = 0

/-- A legal length in bits fits the operand of `FINALIZE`. -/
theorem toNat_ofNat_of_legalBits {n : Nat} (hn : legalBits h n = true) : (BitVec.ofNat 16 n).toNat = n := by
  have hlt : n < 2 ^ 16 := by
    simp only [legalBits, Bool.and_eq_true, Bool.or_eq_true, decide_eq_true_eq, beq_iff_eq] at hn
    cases h <;> simp only [Hs.blkw, Hs.blockBits] at hn <;> omega
  exact Nat.mod_eq_of_lt hlt

/-- A fresh context finalized leaves in a lane the hash of the message that lane of MSG holds (R179). -/
theorem digestBytes_finalizeState (hf : FreshContext h s) {data : List Byte} {l : Lane}
    (hn : legalBits h (8 * data.length) = true)
    (hmsg : ∀ w, w < data.length / 16 → laneBlock s.msg l w = wordAt data w) :
    digestBytes (finalizeState h (BitVec.ofNat 16 (8 * data.length)) s) (h.bits / 8) l
      = aesHash s.conf.lenHi h data := by
  have hlen := toNat_ofNat_of_legalBits hn
  generalize hnv : BitVec.ofNat 16 (8 * data.length) = n at hlen
  have hk : s.k[l] = 0 := by rw [hf.counter, splat_getElem]
  have ha : laneOf s.a l = laneInit h := by rw [hf.grid, laneOf_initialGrid]
  have hp : (fullBlockState h n s).pbits = 0 := by rw [fullBlockState_frame]; exact hf.length
  have hconf : (fullBlockState h n s).conf = s.conf := by rw [fullBlockState_frame]
  have hmsgs : (fullBlockState h n s).msg = s.msg := by rw [fullBlockState_frame]
  rw [finalizeState, digestBytes_terminal n l hp, hconf, hmsgs, aesHash, hnv]
  have hwords : ∀ w, w < messageWords h n → laneBlock s.msg l w = wordAt data w := fun w hw => hmsg w (by
    unfold messageWords at hw
    split at hw <;> omega)
  rw [laneFinish_congr _ _ _ _ hwords]
  by_cases hfull : isFullBlock h n = true
  · have hblock : ∀ w, w < h.blkw → laneBlock s.msg l w = wordAt data w := fun w hw => hmsg w (by
      have := (isFullBlock_iff h n).1 hfull
      omega)
    have hgrid : laneOf (fullBlockState h n s).a l = laneCompress h 0 (laneInit h) (wordAt data) := by
      rw [fullBlockState, if_pos hfull, laneOf_compressState, hk, ha]
      exact laneCompress_congr _ _ hblock
    have hcount : (fullBlockState h n s).k[l] = BitVec.ofNat 128 h.blockInc := by
      rw [fullBlockState, if_pos hfull, compressState_frame, wide_getElem, hk]
      exact BitVec.zero_add _
    rw [hgrid, hcount, if_pos hfull]
  · have hsame : fullBlockState h n s = s := if_neg hfull
    rw [hsame, hk, ha, if_neg hfull]

/-- The state `CTX.INIT` of a legal width leaves (R142). -/
def freshState (h : Hs) (s : State) : State :=
  { s with cfg := h.cfgWord, a := initialGrid h, k := splat 0, pbits := 0, rem := 0, ctxst := .ready }

theorem freshContext_freshState (h : Hs) (s : State) : FreshContext h (freshState h s) :=
  ⟨⟨rfl, rfl⟩, rfl, rfl, rfl⟩

theorem ctxInit_bits (h : Hs) (s : State) : ctxInit (BitVec.ofNat 16 h.bits) s = .ok (ran (freshState h s)) :=
  ctxInit_legal (hsOfImm_bits h) s

/-- Settles O35: `CTX.INIT` leaves a fresh context, and its `FINALIZE` the hash of the message. -/
theorem contextHashesItsMessage : Obligations.ContextHashesItsMessage := by
  intro h s data l hn hbytes
  have hfresh := freshContext_freshState h s
  have hmsg : ∀ w, w < data.length / 16 → laneBlock (freshState h s).msg l w = wordAt data w := fun w hw =>
    word_eq_of_byteOf fun k hk => (hbytes w k hw hk).trans (byteOf_wordAt data w k hk).symm
  refine ⟨freshState h s, finalizeState h (BitVec.ofNat 16 (8 * data.length)) (freshState h s), ?_, ?_, ?_,
    digestBytes_finalizeState hfresh hn hmsg⟩
  · rw [exec_ctxInit, ctxInit_bits, outcome_ok, ran_st]
  · rw [exec_finalize, finalize_ready hfresh.ready (legalLength_ofNat hn), outcome_ok, ran_st]
  · rw [finalizeState_frame]

end Sys2Proof.Machine
end

section
/-! The AES stage of the chain (spec/43_chain_orchestrator.md R199, R201): its descriptor, the bytes a stage writes, and
the hash it writes. -/

namespace Sys2Proof.Machine

variable {h : Hs} {d : StageFields} {s : State}

/-! ## What a stage writes -/

/-- A stage writes RB and STAGE only (R199). -/
theorem stageWrite_frame (d : StageFields) (out : Lane → List Byte) (s : State) :
    ∃ rb : Vector Memory 4, stageWrite d out s = { s with rb, stage := s.stage + 1 } := by
  unfold stageWrite stageClear
  split
  · exact ⟨_, rfl⟩
  · exact ⟨_, rfl⟩

/-- A stage writes its output, then the clear (R199). -/
theorem stageWrite_bytes {out : Lane → List Byte} (hwf : ∀ l : Lane, Memory.wf s.rb[l] = true)
    (hlen : ∀ l : Lane, (out l).length = d.outLen.toNat) : StageBytes d out s (stageWrite d out s) := by
  intro l x
  have hout := memWrite_byteAt (sp := .rb) hwf d.outOff.toNat out .rb l x
  rw [hlen l] at hout
  have hwf' : ∀ l : Lane, Memory.wf ((memWrite s .rb d.outOff.toNat out).space .rb)[l] = true := fun l => by
    simp only [memWrite, setSpace_space, Fin.getElem_fin, Vector.getElem_ofFn]
    exact Memory.wf_store _ _ (hwf l)
  have hclear : (stageWrite d out s).byteAt .rb l x =
      if d.clrOff.toNat ≤ x ∧ x < d.clrOff.toNat + d.clrLen.toNat then 0
      else (memWrite s .rb d.outOff.toNat out).byteAt .rb l x := by
    show (stageClear d (memWrite s .rb d.outOff.toNat out)).byteAt .rb l x = _
    unfold stageClear
    split
    · rename_i h0
      rw [if_neg (by rw [h0]; simp)]
    · rw [memWrite_byteAt hwf', List.length_replicate]
      simp only [true_and]
      split
      · rw [List.getD_eq_getElem?_getD, List.getElem?_getD_replicate_default_eq]
      · rfl
  rw [hclear, hout]
  simp only [true_and]

/-- The bytes a stage leaves depend on RB before it only. -/
theorem StageBytes.congr {out : Lane → List Byte} {s s' t : State} (hb : StageBytes d out s t) (hrb : s.rb = s'.rb) :
    StageBytes d out s' t := fun l x => by
  rw [hb l x, State.byteAt, State.byteAt, State.space, State.space, hrb]

/-! ## The AES stage -/

/-- The three shapes of a well-formed AES descriptor (R196 W3, W6, W7): the header into 64 bytes, 64 bytes into 64, or 32
bytes into 32. -/
theorem aesDescriptor_cases (hwf : d.wf .aes = true) :
    (d.src = .hb ∧ d.inLen = 80 ∧ d.outLen = 64) ∨ (d.src = .rb ∧ d.inLen = 64 ∧ d.outLen = 64)
      ∨ (d.src = .rb ∧ d.inLen = 32 ∧ d.outLen = 32) := by
  simp only [StageFields.wf, Bool.and_eq_true] at hwf
  obtain ⟨⟨⟨⟨⟨_, hin⟩, _⟩, hout⟩, _⟩, _⟩ := hwf
  unfold StageFields.inLenOk at hin
  cases hsrc : d.src with
  | hb =>
    have h80 : d.inLen = 80 := by simpa [hsrc] using hin
    exact .inl ⟨rfl, h80, by simpa [StageFields.outLenOk, h80] using hout⟩
  | rb =>
    have hlen : d.inLen = 64 ∨ d.inLen = 32 := by simpa [hsrc] using hin
    rcases hlen with h64 | h32
    · exact .inr (.inl ⟨rfl, h64, by simpa [StageFields.outLenOk, h64] using hout⟩)
    · exact .inr (.inr ⟨rfl, h32, by simpa [StageFields.outLenOk, h32] using hout⟩)

/-- The offsets of a well-formed AES descriptor (R196 W5, W8, W10). -/
theorem aesDescriptor_offsets (hwf : d.wf .aes = true) :
    d.inOff = 0 ∧ d.outOff = 0 ∧ d.clrOff.toNat + d.clrLen.toNat ≤ 128 := by
  simp only [StageFields.wf, Bool.and_eq_true] at hwf
  obtain ⟨⟨⟨⟨⟨⟨_, hin⟩, _⟩, _⟩, _⟩, hout⟩, hclr⟩ := hwf
  exact ⟨beq_iff_eq.1 hin, beq_iff_eq.1 hout, of_decide_eq_true hclr⟩

/-- Every byte an AES descriptor names exists. -/
theorem aesDescriptor_inSpace (hwf : d.wf .aes = true) : stageInSpace d = true := by
  obtain ⟨hin, hout, hclr⟩ := aesDescriptor_offsets hwf
  have hclear : inSpace .rb d.clrOff.toNat d.clrLen.toNat = true := decide_eq_true hclr
  rw [stageInSpace, hin, hout, hclear, Bool.or_true, Bool.and_true]
  rcases aesDescriptor_cases hwf with ⟨hs, hi, ho⟩ | ⟨hs, hi, ho⟩ | ⟨hs, hi, ho⟩ <;> rw [hs, hi, ho] <;> rfl

theorem bits_injective : Function.Injective Hs.bits
  | .h256, .h256, _ => rfl
  | .h512, .h512, _ => rfl

/-- An AES descriptor reads at most 5 words, a legal length of the width its output asks for (R196 W9). -/
theorem aesDescriptor_length (hwf : d.wf .aes = true) (hb : h.bits = 8 * d.outLen.toNat) :
    d.inLen.toNat / 16 ≤ 12 ∧ legalBits h (8 * d.inLen.toNat) = true := by
  rcases aesDescriptor_cases hwf with ⟨_, hi, ho⟩ | ⟨_, hi, ho⟩ | ⟨_, hi, ho⟩ <;> rw [ho] at hb <;> rw [hi]
  · obtain rfl : h = .h512 := bits_injective hb
    exact ⟨by decide, by decide⟩
  · obtain rfl : h = .h512 := bits_injective hb
    exact ⟨by decide, by decide⟩
  · obtain rfl : h = .h256 := bits_injective hb
    exact ⟨by decide, by decide⟩

@[simp] theorem digestBytes_length (s : State) (h : Hs) (l : Lane) :
    (digestBytes s (h.bits / 8) l).length = h.bits / 8 := by
  cases h <;> simp [digestBytes, Hs.bits]

/-- The state the AES stage leaves before it writes its output (R201). -/
def hashedState (h : Hs) (d : StageFields) (s : State) : State :=
  finalizeState h (BitVec.ofNat 16 (8 * d.inLen.toNat)) (loadMessage d (stageInput d s) (freshState h s))

theorem aesStage_ready (hc : InChain s) (hsp : stageInSpace d = true) (hw : d.inLen.toNat / 16 ≤ 12)
    (hb : h.bits = 8 * d.outLen.toNat) (hn : legalBits h (8 * d.inLen.toNat) = true) :
    aesStage d s = .ok (ran (stageWrite d (digestBytes (hashedState h d s) d.outLen.toNat) (hashedState h d s))) := by
  have hready : Ready h (loadMessage d (stageInput d s) (freshState h s)) := (freshContext_freshState h s).ready
  rw [aesStage, inStage, if_pos ⟨hc.1, hc.2⟩, if_pos hsp, if_pos hw, ← hb, ctxInit_bits, andThen_ran, andThen_ran,
    finalize_ready hready (legalLength_ofNat hn), andThen_ran]
  rfl

theorem loadMessage_getElem (d : StageFields) (input : Lane → List Byte) (s : State) (w : Fin 12) (l : Lane) :
    (loadMessage d input s).msg[w][l] = if w.val < d.inLen.toNat / 16 then wordAt (input l) w.val else s.msg[w][l] := by
  simp only [loadMessage, Fin.getElem_fin, Vector.getElem_ofFn]
  split
  · exact wide_getElem _ l
  · rfl

/-- The stage's context leaves the registers outside it alone, and MSG with the input in it (R201). -/
theorem hashedState_frame (h : Hs) (d : StageFields) (s : State) : hashedState h d s =
    { s with
      a := (hashedState h d s).a, b := (hashedState h d s).b, bk := (hashedState h d s).bk, k := (hashedState h d s).k
      k1 := (hashedState h d s).k1, cfg := h.cfgWord, buf := (hashedState h d s).buf
      msg := (loadMessage d (stageInput d s) s).msg, pbits := (hashedState h d s).pbits
      rem := (hashedState h d s).rem, dg := (hashedState h d s).dg, ctxst := .done } := by
  unfold hashedState
  rw [finalizeState_frame]
  rfl

/-- The AES stage hashes its input in every lane (R201, R179). -/
theorem digestBytes_hashedState (hw : d.inLen.toNat / 16 ≤ 12) (hn : legalBits h (8 * d.inLen.toNat) = true)
    (l : Lane) :
    digestBytes (hashedState h d s) (h.bits / 8) l = aesHash s.conf.lenHi h (stageInput d s l) := by
  have hlen : (stageInput d s l).length = d.inLen.toNat := memRead_length ..
  have hfresh : FreshContext h (loadMessage d (stageInput d s) (freshState h s)) :=
    ⟨(freshContext_freshState h s).ready, rfl, rfl, rfl⟩
  rw [hashedState, ← hlen]
  refine digestBytes_finalizeState hfresh (hlen ▸ hn) fun w hlt => ?_
  rw [hlen] at hlt
  rw [laneBlock_of_lt _ _ (by omega)]
  exact (loadMessage_getElem d (stageInput d s) (freshState h s) ⟨w, by omega⟩ l).trans (if_pos hlt)

/-- The bytes the AES stage leaves in RB (R199, R201). -/
theorem aesStage_bytes (hm : MemOk s) (hb : h.bits = 8 * d.outLen.toNat) (hw : d.inLen.toNat / 16 ≤ 12)
    (hn : legalBits h (8 * d.inLen.toNat) = true) :
    StageBytes d (fun l => aesHash s.conf.lenHi h (stageInput d s l)) s
      (stageWrite d (digestBytes (hashedState h d s) d.outLen.toNat) (hashedState h d s)) := by
  have hout : d.outLen.toNat = h.bits / 8 := by omega
  have hrb : (hashedState h d s).rb = s.rb := by rw [hashedState_frame]
  have hhash : digestBytes (hashedState h d s) d.outLen.toNat = fun l => aesHash s.conf.lenHi h (stageInput d s l) :=
    funext fun l => by rw [hout, digestBytes_hashedState hw hn]
  have hwritten := stageWrite_bytes (d := d) (s := hashedState h d s)
    (out := digestBytes (hashedState h d s) d.outLen.toNat) (fun l => by rw [hrb]; exact (hm .rb l).1)
    (fun l => by rw [hout, digestBytes_length])
  rw [← hhash]
  exact hwritten.congr hrb

/-- Settles O39: the stage is `CTX.INIT`, the load of MSG, `FINALIZE` and the write of the digest. -/
theorem aesStageHashesItsInput : Obligations.AesStageHashesItsInput := by
  intro d h s hwf hb hc hm
  obtain ⟨hw, hn⟩ := aesDescriptor_length hwf hb
  have hexec : exec (.stgAes d) s
      = .next (stageWrite d (digestBytes (hashedState h d s) d.outLen.toNat) (hashedState h d s)) := by
    rw [exec_stgAes, aesStage_ready hc (aesDescriptor_inSpace hwf) hw hb hn, outcome_ok, ran_st]
  have hbytes := aesStage_bytes hm hb hw hn
  obtain ⟨rb, hwrite⟩ := stageWrite_frame d (digestBytes (hashedState h d s) d.outLen.toNat) (hashedState h d s)
  rw [hwrite] at hexec hbytes
  have hword (w : Fin 12) (l : Lane) : (hashedState h d s).msg[w][l] =
      if w.val < d.inLen.toNat / 16 then wordAt (stageInput d s l) w.val else s.msg[w][l] := by
    rw [hashedState_frame]
    exact loadMessage_getElem ..
  refine ⟨_, hexec, ?_, hword, fun w l k hlt hk => ?_, hbytes⟩
  · rw [hashedState_frame]
  · rw [← byteOf_wordAt _ _ _ hk, hword, if_pos hlt]

end Sys2Proof.Machine
end

section
/-! What a command writes and what it keeps: one relation between the state before a micro-operation and what it has
done, composed along the sequences of spec/30_encoding.md R108, and the erasure every instruction stays within. -/

namespace Sys2Proof.Machine

/-! ## The invariant, part by part -/

/-- The clauses of the invariant that a micro-operation keeps whatever command it is part of. -/
structure Legal (s : State) : Prop where
  cfg : cfgMatches s.ctxst s.cfg
  mem : MemOk s
  stage : s.stage.toNat ≤ 19
  stageDone : s.chst = .done → s.stage = 19
  table : s.chst ≠ .idle → wfTable s.conf.stages = true
  counter : s.ctxst = .ready ∨ s.ctxst = .done → ∀ l : Lane, s.k[l] = s.k[(0 : Lane)]
  events : ∀ e ∈ s.subq, e.digest.length = 32

/-- FAULT holds bits of the six faults only, and HALTED is set exactly by the halting ones (R49, R254). -/
structure FaultsOk (s : State) : Prop where
  bits : ∀ i : Nat, s.fault.getLsbD i = true → 1 ≤ i ∧ i ≤ 6
  halted : s.halted = (s.fault.getLsbD 4 || s.fault.getLsbD 5)

/-- A `SCAN` in hand is running, not halted, with nonces left (R227, R233). -/
def ScanInHandOk (s : State) : Prop := s.cmd = .scan → s.scanst = .run ∧ s.halted = false ∧ s.nonce < s.max

theorem inv_iff (s : State) : Inv s ↔ Legal s ∧ FaultsOk s ∧ ScanInHandOk s :=
  ⟨fun h => ⟨⟨h.cfg, h.mem, h.stage, h.stageDone, h.table, h.counter, h.events⟩, ⟨h.faultBits, h.haltedBit⟩,
      h.scanning⟩,
    fun ⟨h, hf, hc⟩ => ⟨h.cfg, h.mem, h.stage, h.stageDone, h.table, h.counter, hf.bits, hf.halted, h.events, hc⟩⟩

/-- The registers `Legal` speaks of; every other one is erased. -/
def legalPart (s : State) : State :=
  { State.reset with
    ctxst := s.ctxst, cfg := s.cfg, k := s.k, hb := s.hb, rb := s.rb, cd := s.cd, stage := s.stage, chst := s.chst
    conf := s.conf, subq := s.subq }

theorem legal_legalPart_iff (s : State) : Legal (legalPart s) ↔ Legal s :=
  ⟨fun h => ⟨h.cfg, h.mem, h.stage, h.stageDone, h.table, h.counter, h.events⟩,
    fun h => ⟨h.cfg, h.mem, h.stage, h.stageDone, h.table, h.counter, h.events⟩⟩

theorem Legal.of_part {s t : State} (hs : Legal s) (h : legalPart t = legalPart s) : Legal t :=
  (legal_legalPart_iff t).1 (h ▸ (legal_legalPart_iff s).2 hs)

/-- A field an erasure leaves alone. -/
theorem field_of_erased {α : Type} {E : State → State} {s t : State} (f : State → α) (h : E t = E s)
    (hf : ∀ x, f (E x) = f x := by intro; rfl) : f t = f s := by
  rw [← hf t, h, hf s]

/-! ## What every micro-operation keeps, and the frame of one -/

/-- What lasts through every micro-operation: the invariant's clauses, that a context, a chain evaluation and a scan
once begun do not return to `NONE` or `IDLE` (R241), CANCEL where its owner leaves it alone, and that no command but a
`SCAN` gets in hand. -/
structure Lasting (s t : State) : Prop where
  legal : Legal s → Legal t
  ctxst : s.ctxst ≠ .none → t.ctxst ≠ .none
  chst : s.chst ≠ .idle → t.chst ≠ .idle
  scanst : s.scanst ≠ .idle → t.scanst ≠ .idle
  cancel : s.polls = [] → t.polls = [] ∧ t.cancel = s.cancel
  cmd : t.cmd = s.cmd ∨ t.cmd = .scan

theorem Lasting.trans {s t u : State} (h : Lasting s t) (g : Lasting t u) : Lasting s u where
  legal := g.legal ∘ h.legal
  ctxst := g.ctxst ∘ h.ctxst
  chst := g.chst ∘ h.chst
  scanst := g.scanst ∘ h.scanst
  cancel hp := by
    obtain ⟨hpt, hct⟩ := h.cancel hp
    obtain ⟨hpu, hcu⟩ := g.cancel hpt
    exact ⟨hpu, hcu.trans hct⟩
  cmd := by
    rcases g.cmd with he | hn
    · rw [he]; exact h.cmd
    · exact .inr hn

/-- A write of registers that none of the lasting facts speaks of. -/
theorem Lasting.of_part {s t : State} (hl : legalPart t = legalPart s) (hs : t.scanst = s.scanst := by rfl)
    (hp : t.polls = s.polls := by rfl) (hc : t.cancel = s.cancel := by rfl) (hm : t.cmd = s.cmd := by rfl) :
    Lasting s t where
  legal h := h.of_part hl
  ctxst h := field_of_erased State.ctxst hl ▸ h
  chst h := field_of_erased State.chst hl ▸ h
  scanst h := hs ▸ h
  cancel h := ⟨hp.trans h, hc⟩
  cmd := .inl hm

/-- What the fault a micro-operation raised, if any, records (60_exceptions.md R253). -/
def recorded : Option HwFault → State → State
  | none, s => s
  | some h, s => recordFault h s

/-- A micro-operation from `s` has done `d`: it wrote only registers that `E` erases, but for the fault it raised, and
kept what lasts. -/
structure Effect (E : State → State) (s : State) (d : Done) : Prop where
  frame : E d.st = E (recorded d.raised s)
  lasting : Lasting s d.st

/-- An erasure that leaves FAULT and HALTED alone. -/
def KeepsFaults (E : State → State) : Prop := ∀ h s, E (recordFault h s) = recordFault h (E s)

variable {E F : State → State} {s t : State} {d : Done}

/-- A coarser erasure says less. -/
theorem Effect.mono (h : Effect E s d) (hF : ∀ x, F (E x) = F x := by intro; rfl) : Effect F s d :=
  ⟨by rw [← hF d.st, h.frame, hF], h.lasting⟩

/-- A field the erasure and faults leave alone. -/
theorem Effect.field {α : Type} (h : Effect E s d) (f : State → α) (hE : ∀ x, f (E x) = f x := by intro; rfl)
    (hr : ∀ g x, f (recordFault g x) = f x := by intros; rfl) : f d.st = f s := by
  rw [← hE d.st, h.frame, hE]
  cases d.raised with
  | none => rfl
  | some g => exact hr g s

theorem effect_raise (E : State → State) (h : HwFault) (s : State) : Effect E s (raise h s) := ⟨rfl, .of_part rfl⟩

theorem effect_ran_self (E : State → State) (s : State) : Effect E s (ran s) := ⟨rfl, .of_part rfl⟩

/-- After a micro-operation that ran without a fault, the next one. -/
theorem Effect.trans (hE : KeepsFaults E) {u : State} (h : Effect E s (ran u)) (g : Effect E u d) : Effect E s d := by
  refine ⟨g.frame.trans ?_, h.lasting.trans g.lasting⟩
  have hu : E u = E s := h.frame
  cases d.raised with
  | none => exact hu
  | some f => exact (hE f u).trans (hu ▸ (hE f s).symm)

/-- A sequence of micro-operations has the effect its parts have. -/
theorem Effect.andThen (hE : KeepsFaults E) {r : Res} {f : State → Res} (hd : andThen r f = .ok d)
    (hr : ∀ e, r = .ok e → Effect E s e) (hf : ∀ u e, r = .ok (ran u) → f u = .ok e → Effect E u e) : Effect E s d := by
  rcases (andThen_ok_iff _ _ _).1 hd with ⟨u, hu, hfu⟩ | ⟨_, _, hdr⟩
  · exact (hr _ hu).trans hE (hf u d hu hfu)
  · exact hr d hdr

/-- The micro-operation `f` has the effect from every state. -/
def Always (E : State → State) (f : State → Res) : Prop := ∀ s d, f s = .ok d → Effect E s d

theorem Always.mono {f : State → Res} (h : Always E f) (hF : ∀ x, F (E x) = F x := by intro; rfl) : Always F f :=
  fun s d hd => (h s d hd).mono hF

theorem Always.andThen (hE : KeepsFaults E) {f g : State → Res} (hf : Always E f) (hg : Always E g) :
    Always E fun s => Machine.andThen (f s) g :=
  fun s _ hd => Effect.andThen hE hd (hf s) fun u e _ => hg u e

theorem Always.repeated (hE : KeepsFaults E) {f : State → Res} (hf : Always E f) : ∀ n, Always E (Machine.repeated f n)
  | 0 => fun s _ hd => by cases hd; exact effect_ran_self E s
  | n + 1 => hf.andThen hE (Always.repeated hE hf n)

/-- A context command has the effect its writes in a `READY` context have. -/
theorem effect_of_inContext {f : Hs → Done} (hd : inContext s f = .ok d) (hf : ∀ h, Ready h s → Effect E s (f h)) :
    Effect E s d := by
  rcases inContext_cases s f with ⟨h, hc, hw, heq⟩ | ⟨_, heq⟩ | ⟨_, _, heq⟩ <;> rw [heq] at hd <;> cases hd
  · exact hf h ⟨hc, hw⟩
  · exact effect_raise E .ctxState s

/-! ## The context -/

/-- The registers of the context but CFG and CTXST erased: what the compression engine works on. -/
def outsideEngine (s : State) : State := { outsideContext s with cfg := s.cfg, ctxst := s.ctxst }

/-- Writes of the compression engine that keep K. -/
theorem effect_engine (hk : legalPart t = legalPart s) (ho : outsideEngine t = outsideEngine s) :
    Effect outsideEngine s (ran t) where
  frame := ho
  lasting := .of_part hk (field_of_erased State.scanst ho) (field_of_erased State.polls ho)
    (field_of_erased State.cancel ho) (field_of_erased State.cmd ho)

/-- A command that adds to every lane of K the same value (R143, R174). -/
theorem effect_counter (f : Word128 → Word128) :
    Effect outsideEngine s (ran { s with k := wide fun l => f s.k[l] }) where
  frame := rfl
  lasting :=
    { Lasting.of_part (s := s) (t := s) rfl with
      legal := fun h => { h with
        counter := fun hc l => by simp only [ran_st, wide_getElem, h.counter hc l] } }

theorem always_ctrAdv : Always outsideEngine ctrAdv := fun _ _ hd =>
  effect_of_inContext hd fun h _ => effect_counter (· + BitVec.ofNat 128 h.blockInc)
theorem always_ctrFix : Always outsideEngine ctrFix := fun s _ hd =>
  effect_of_inContext hd fun h _ => effect_counter fun x => x + s.rem - BitVec.ofNat 128 h.blockInc
theorem always_ldm (src : BlockSrc) : Always outsideEngine (ldm src) := fun _ _ hd =>
  effect_of_inContext hd fun _ _ => effect_engine rfl rfl
theorem always_save : Always outsideEngine save := fun _ _ hd =>
  effect_of_inContext hd fun _ _ => effect_engine rfl rfl
theorem always_ffwd : Always outsideEngine ffwd := fun _ _ hd =>
  effect_of_inContext hd fun _ _ => effect_engine rfl rfl

theorem always_subw (g : GridSel) : Always outsideEngine (subw g) := fun _ _ hd =>
  effect_of_inContext hd fun _ _ => by cases g <;> exact effect_engine rfl rfl

theorem always_mixb (g : GridSel) : Always outsideEngine (mixb g) := fun _ _ hd =>
  effect_of_inContext hd fun _ _ => by cases g <;> exact effect_engine rfl rfl

theorem always_checkLength (n : BitVec 16) : Always outsideEngine (checkLength n) := fun s _ hd => by
  refine effect_of_inContext hd fun h _ => ?_
  split
  · exact effect_ran_self _ s
  · exact effect_raise _ _ s

theorem always_pad (n : BitVec 16) : Always outsideEngine (pad n) := fun s _ hd => by
  refine effect_of_inContext hd fun h _ => ?_
  split
  · exact effect_engine rfl rfl
  · exact effect_raise _ _ s

theorem keepsFaults_outsideEngine : KeepsFaults outsideEngine := fun _ _ => rfl

theorem always_roundPair : Always outsideEngine roundPair :=
  have hE := keepsFaults_outsideEngine
  (((always_subw .a).andThen hE (always_mixb .a)).andThen hE (always_subw .b)).andThen hE (always_mixb .b)

theorem always_roundPairs : Always outsideEngine roundPairs := fun s =>
  always_roundPair.repeated keepsFaults_outsideEngine (cfgROUNDS s.cfg / 2) s

theorem always_compress (src : BlockSrc) : Always outsideEngine (compress src) :=
  have hE := keepsFaults_outsideEngine
  have hload := (always_ctrAdv.andThen hE (always_ldm src)).andThen hE always_save
  (hload.andThen hE always_roundPairs).andThen hE always_ffwd

theorem always_fullBlock (n : BitVec 16) : Always outsideEngine (fullBlock n) := fun s d hd => by
  unfold fullBlock at hd
  split at hd
  · exact always_compress .msg s d hd
  · cases hd; exact effect_ran_self _ s

/-- `XTRACT` ends a context, which keeps its CFG and its counter (R175). -/
theorem always_xtract : Always outsideContext xtract := fun s _ hd =>
  effect_of_inContext hd fun h hr =>
    { frame := rfl
      lasting :=
        { Lasting.of_part (s := s) (t := s) rfl with
          legal := fun hl => { hl with cfg := ⟨h, hr.2⟩, counter := fun _ => hl.counter (.inl hr.1) }
          ctxst := fun _ => by simp } }

/-- `CTX.INIT` leaves a context with its configuration and a counter of zero, or a dead one (R142). -/
theorem always_ctxInit (imm : BitVec 16) : Always outsideContext (ctxInit imm) := fun s d hd => by
  cases hi : hsOfImm imm with
  | some h =>
    rw [ctxInit_legal hi] at hd
    cases hd
    exact
      { frame := rfl
        lasting :=
          { Lasting.of_part (s := s) (t := s) rfl with
            legal := fun hl => { hl with cfg := ⟨h, rfl⟩, counter := fun _ l => by simp }
            ctxst := fun _ => by simp } }
  | none =>
    rw [ctxInit_illegal hi] at hd
    cases hd
    exact
      { frame := rfl
        lasting :=
          { Lasting.of_part (s := s) (t := s) rfl with
            legal := fun hl => { hl with cfg := rfl, counter := fun hc => by simp at hc }
            ctxst := fun _ => by simp } }

theorem keepsFaults_outsideContext : KeepsFaults outsideContext := fun _ _ => rfl

theorem always_finalize (n : BitVec 16) : Always outsideContext (finalize n) :=
  have hE := keepsFaults_outsideEngine
  have hpad := ((always_checkLength n).andThen hE (always_fullBlock n)).andThen hE (always_pad n)
  have hlast := (hpad.andThen hE always_ctrFix).andThen hE (always_compress .buf)
  hlast.mono.andThen keepsFaults_outsideContext always_xtract

/-! ## The chain -/

/-- The registers of the chain evaluation erased. -/
def outsideBuffers (s : State) : State :=
  { s with
    hb := Vector.replicate 4 [], rb := Vector.replicate 4 [], cd := Vector.replicate 4 [], stage := 0, chst := .idle }

/-- The byte spaces lie inside their bounds after a `MemWrite` that does (R60). -/
theorem memOk_memWrite (hm : MemOk s) {sp : Space} {a n : Nat} {v : Lane → List Byte}
    (hv : ∀ l, (v l).length = n) (hin : a + n ≤ sp.size) : MemOk (memWrite s sp a v) := memWrite_wf hv hin hm

theorem headerBytes_length (s : State) (l : Lane) : (headerBytes s l).length = 80 := by
  simp [headerBytes, List.length_flatMap, List.map_const']

/-- A verified table starts an evaluation at stage 0 (R198). -/
theorem always_chBegin : Always outsideBuffers chBegin := fun s d hd => by
  rcases chBegin_cases s with ⟨hw, heq⟩ | ⟨_, heq⟩ <;> rw [heq] at hd <;> cases hd
  · have hm (h : Legal s) : MemOk (chBeginState s) :=
      memOk_memWrite (memOk_memWrite h.mem (headerBytes_length s) (by decide)) (fun _ => List.length_replicate)
        (by decide)
    exact
      { frame := rfl
        lasting :=
          { Lasting.of_part (s := s) (t := s) rfl with
            legal := fun h =>
              { h with
                mem := hm h, stage := Nat.zero_le 19, table := fun _ => hw
                stageDone := fun hc => by cases hc }
            chst := fun _ => by simp [chBeginState] } }
  · exact effect_raise _ _ s

/-- What a stage writes lies inside RB. -/
theorem memOk_stageWrite (hm : MemOk s) {d : StageFields} (hsp : stageInSpace d = true) {n : Nat}
    {out : Lane → List Byte} (hlen : ∀ l, (out l).length = n) (hn : n ≤ d.outLen.toNat) :
    MemOk (stageWrite d out s) := by
  simp only [stageInSpace, inSpace, Bool.and_eq_true, Bool.or_eq_true, decide_eq_true_eq, beq_iff_eq] at hsp
  obtain ⟨⟨_, hout⟩, hclr⟩ := hsp
  have hwritten : MemOk (memWrite s .rb d.outOff.toNat out) := memOk_memWrite hm hlen (Nat.le_trans (by omega) hout)
  show MemOk (stageClear d _)
  unfold stageClear
  split
  · exact hwritten
  · exact memOk_memWrite hwritten (fun _ => List.length_replicate) (hclr.resolve_left (by assumption))

/-- A stage under way writes its output and advances STAGE (R199). -/
theorem effect_stageWrite (hc : InChain s) {d : StageFields} (hsp : stageInSpace d = true) {n : Nat}
    {out : Lane → List Byte} (hlen : ∀ l, (out l).length = n) (hn : n ≤ d.outLen.toNat) :
    Effect outsideBuffers s (ran (stageWrite d out s)) := by
  obtain ⟨hrun, hlt⟩ := hc
  have hm (h : Legal s) := memOk_stageWrite h.mem hsp hlen hn
  obtain ⟨rb, hw⟩ := stageWrite_frame d out s
  rw [hw] at hm ⊢
  exact
    { frame := rfl
      lasting :=
        { Lasting.of_part (s := s) (t := s) rfl with
          legal := fun h =>
            { h with
              mem := hm h
              stage := by show (s.stage + 1).toNat ≤ 19; bv_omega
              stageDone := fun hd => by rw [show s.chst = .done from hd] at hrun; cases hrun } } }

theorem always_externalStage (d : StageFields) : Always outsideBuffers (externalStage d) := fun s e he => by
  rcases externalStage_cases d s with ⟨_, heq⟩ | ⟨_, _, heq⟩ | ⟨hc, hsp, hfit, heq⟩ | ⟨_, _, _, heq⟩ <;>
    rw [heq] at he <;> cases he
  · exact effect_raise _ _ s
  · exact effect_stageWrite hc hsp ((outputsFit_iff d s).1 hfit) (Nat.le_refl _)
  · exact effect_raise _ _ s

/-- The end of an evaluation copies 32 bytes of RB to CD (R205). -/
theorem always_chEnd : Always outsideBuffers chEnd := fun s d hd => by
  rcases chEnd_cases s with ⟨_, heq⟩ | ⟨_, _, _, heq⟩ | ⟨hr, hst, _, heq⟩ <;> rw [heq] at hd <;> cases hd
  · exact effect_raise _ _ s
  · have hm (h : Legal s) : MemOk (memWrite s .cd 0 fun l => memRead s .rb l (lastOutOff s.conf) 32) :=
      memOk_memWrite h.mem (fun l => memRead_length ..) (by decide)
    exact
      { frame := rfl
        lasting :=
          { Lasting.of_part (s := s) (t := s) rfl with
            legal := fun h =>
              { h with mem := hm h, stageDone := fun _ => hst, table := fun _ => h.table (by rw [hr]; decide) }
            chst := fun _ => by simp } }

theorem keepsFaults_outsideChain : KeepsFaults outsideChain := fun _ _ => rfl

/-- The AES stage up to its digest: the work of the context (R201). -/
def stageContext (d : StageFields) (s : State) : Res :=
  andThen
    (andThen (ctxInit (BitVec.ofNat 16 (8 * d.outLen.toNat)) s)
      fun t => .ok (ran (loadMessage d (stageInput d s) t)))
    (finalize (BitVec.ofNat 16 (8 * d.inLen.toNat)))

theorem always_stageContext (d : StageFields) : Always outsideContext (stageContext d) := fun s _ he => by
  refine Effect.andThen keepsFaults_outsideContext he (fun e he => ?_) fun u e _ => always_finalize _ u e
  refine Effect.andThen keepsFaults_outsideContext he (always_ctxInit _ s) fun u e _ he => ?_
  cases he
  exact ⟨rfl, .of_part rfl⟩

/-- Everything the AES stage can do. -/
theorem aesStage_cases (d : StageFields) (s : State) :
    (∃ e, aesStage d s = .error e) ∨ aesStage d s = .ok (raise .seqError s)
    ∨ (InChain s ∧ stageInSpace d = true
        ∧ aesStage d s =
            andThen (stageContext d s) fun t => .ok (ran (stageWrite d (digestBytes t d.outLen.toNat) t))) := by
  by_cases hc : InChain s
  · rw [aesStage, inStage, if_pos ⟨hc.1, hc.2⟩]
    split
    · split
      · exact .inr (.inr ⟨hc, by assumption, rfl⟩)
      · exact .inl ⟨_, rfl⟩
    · exact .inl ⟨_, rfl⟩
  · exact .inr (.inl (if_neg hc))

theorem always_aesStage (d : StageFields) : Always outsideChain (aesStage d) := fun s e he => by
  rcases aesStage_cases d s with ⟨_, heq⟩ | heq | ⟨hc, hsp, heq⟩ <;> rw [heq] at he
  · cases he
  · cases he; exact effect_raise _ _ s
  · refine Effect.andThen keepsFaults_outsideChain he (fun e he => (always_stageContext d s e he).mono)
      fun u e hu he => ?_
    cases he
    have hctx := always_stageContext d s _ hu
    have hstage : u.stage = s.stage := hctx.field State.stage
    have hcu : InChain u := ⟨(hctx.field State.chst).trans hc.1, hstage ▸ hc.2⟩
    have hlen (l : Lane) : (digestBytes u d.outLen.toNat l).length = min d.outLen.toNat 64 := by simp [digestBytes]
    exact (effect_stageWrite hcu hsp hlen (Nat.min_le_left ..)).mono

theorem always_chStep : Always outsideChain chStep := fun s e he => by
  rcases chStep_cases s with ⟨_, heq⟩ | ⟨hst, _, heq⟩ <;> rw [heq] at he
  · cases he; exact effect_raise _ _ s
  · generalize fieldsAt s.conf.stages ⟨s.stage.toNat, hst⟩ = d at he
    cases hk : kindAt s.conf.stages ⟨s.stage.toNat, hst⟩ <;> rw [hk] at he
    case aes => exact always_aesStage d s e he
    all_goals exact (always_externalStage d s e he).mono

theorem always_chain : Always outsideChain chain :=
  have hE := keepsFaults_outsideChain
  (always_chBegin.mono.andThen hE (always_chStep.repeated hE 19)).andThen hE always_chEnd.mono

/-! ## The scan -/

/-- Everything an iteration of the scan writes erased: the chain evaluation, HDR[19], LN, and the scan's registers. -/
def outsideIteration (s : State) : State :=
  { outsideChain s with
    hdr := s.hdr.set 19 0, ln := Vector.replicate 4 0, cancel := false, nonce := 0, attempts := 0, scanst := .idle
    qual := 0, subq := [], polls := [] }

/-- What an iteration writes and the command in hand erased. -/
def outsideScan (s : State) : State := emptyCmd (outsideIteration s)

theorem keepsFaults_outsideIteration : KeepsFaults outsideIteration := fun _ _ => rfl
theorem keepsFaults_outsideScan : KeepsFaults outsideScan := fun _ _ => rfl

theorem effect_scPrepare (s : State) : Effect outsideIteration s (ran (scPrepare s)) where
  frame := by simp [outsideIteration, outsideChain, outsideContext, recorded, scPrepare]
  lasting := .of_part rfl

theorem scanStateAfter_ne_idle (n2 : Nat) (max : Word32) (c : Bool) : scanStateAfter n2 max c ≠ .idle := by
  unfold scanStateAfter
  split
  · decide
  · split <;> decide

/-- The events of an iteration carry 32 digest bytes (R229). -/
theorem scEvents_length (n : Word32) (cnt : Nat) (t : State) : ∀ e ∈ scEvents n cnt t, e.digest.length = 32 := by
  intro e he
  obtain ⟨l, _, rfl⟩ := List.mem_map.1 he
  exact memRead_length ..

/-- The end of an iteration writes the scan's registers and polls CANCEL (R227). -/
theorem effect_scFinish (n : Word32) (cnt : Nat) (t : State) : Effect outsideIteration t (ran (scFinish n cnt t)) := by
  have hev (h : Legal t) : ∀ e ∈ t.subq ++ scEvents n cnt t, e.digest.length = 32 := fun e he =>
    (List.mem_append.1 he).elim (h.events e) (scEvents_length n cnt t e)
  rw [scFinish, pollCancel_eq]
  exact
    { frame := rfl
      lasting :=
        { legal := fun h => { h with events := hev h }
          ctxst := id
          chst := id
          scanst := fun _ => scanStateAfter_ne_idle _ _ _
          cancel := fun hp => by simp [polled, hp]
          cmd := .inl rfl } }

theorem always_scIter : Always outsideIteration scIter := fun s d hd => by
  rcases scIter_cases s with ⟨_, heq⟩ | ⟨_, heq⟩ <;> rw [heq] at hd
  · have hE := keepsFaults_outsideIteration
    refine Effect.andThen hE hd (fun e he => ?_) fun u e _ he => ?_
    · exact (effect_scPrepare s).trans hE (always_chain _ e he).mono
    · cases he; exact effect_scFinish ..
  · cases hd; exact effect_raise _ _ s

/-- The registers `SC.BEGIN` writes erased (R226). -/
def outsideStart (s : State) : State := { s with nonce := 0, attempts := 0, scanst := .idle }

theorem always_scBegin : Always outsideStart scBegin := fun s d hd => by
  cases hd
  exact
    { frame := rfl
      lasting :=
        { Lasting.of_part (s := s) (t := s) rfl with
          legal := fun h => h.of_part rfl
          scanst := fun _ => by simp } }

theorem outsideScan_outsideIteration (s : State) : outsideScan (outsideIteration s) = outsideScan s := by
  simp [outsideScan, emptyCmd, outsideIteration, outsideChain, outsideContext]

/-- A turn that leaves SCANST at `RUN` keeps the command in hand (R233). -/
theorem effect_scanGoesOn (s : State) : Effect outsideScan s (ran (scanGoesOn s)) := by
  unfold scanGoesOn
  split
  · exact
      { frame := rfl
        lasting :=
          { Lasting.of_part (s := s) (t := s) rfl with
            legal := fun h => h.of_part rfl
            cmd := .inr rfl } }
  · exact effect_ran_self _ s

theorem always_scanTurn : Always outsideScan scanTurn := fun s d hd => by
  rcases scanTurn_cases s with ⟨_, heq⟩ | ⟨_, heq⟩ <;> rw [heq] at hd
  · refine Effect.andThen keepsFaults_outsideScan hd
      (fun e he => (always_scIter s e he).mono outsideScan_outsideIteration) fun u e _ he => ?_
    cases he
    exact effect_scanGoesOn u
  · cases hd; exact effect_ran_self _ s

theorem always_scan : Always outsideScan scan :=
  always_scBegin.mono.andThen keepsFaults_outsideScan always_scanTurn

/-- The register `CMP` writes erased (R222). -/
def outsideFlags (s : State) : State := { s with qual := 0 }

theorem always_cmp (l : Lane) : Always outsideFlags (cmp l) := fun s d hd => by
  rcases cmp_cases l s with ⟨_, heq⟩ | ⟨_, heq⟩ <;> rw [heq] at hd <;> cases hd
  · exact ⟨rfl, .of_part rfl⟩
  · exact effect_raise _ _ s

/-! ## Every instruction -/

/-- What an instruction may write, erased (the table of R241 and the commands' own rules). -/
def scope : Instr → State → State
  | .nop => id
  | .ctrAdv | .ldm _ | .save | .subw _ | .mixb _ | .ffwd | .compress _ | .pad _ | .ctrFix => outsideEngine
  | .ctxInit _ | .xtract | .finalize _ => outsideContext
  | .chBegin | .chEnd | .stgOrd _ | .stgLat _ | .stgMh _ => outsideBuffers
  | .chStep | .chain | .stgAes _ => outsideChain
  | .cmp _ => outsideFlags
  | .scBegin => outsideStart
  | .scIter => outsideIteration
  | .scan => outsideScan

theorem Always.next {f : State → Res} (hf : Always E f) (h : outcome (f s) = .next t) : ∃ r, Effect E s ⟨t, r⟩ := by
  obtain ⟨r, hr⟩ := (outcome_next_iff _ _).1 h
  exact ⟨r, hf s _ hr⟩

/-- Everything an instruction that answers a next state can do: it wrote its own registers, recorded the fault it
raised, and kept what lasts. -/
theorem exec_effect {i : Instr} (h : exec i s = .next t) : ∃ r, Effect (scope i) s ⟨t, r⟩ := by
  cases i with
  | nop => cases h; exact ⟨none, effect_ran_self _ s⟩
  | ctxInit imm => exact (always_ctxInit imm).next h
  | ctrAdv => exact always_ctrAdv.next h
  | ldm src => exact (always_ldm src).next h
  | save => exact always_save.next h
  | subw g => exact (always_subw g).next h
  | mixb g => exact (always_mixb g).next h
  | ffwd => exact always_ffwd.next h
  | compress src => exact (always_compress src).next h
  | pad n => exact (always_pad n).next h
  | ctrFix => exact always_ctrFix.next h
  | xtract => exact always_xtract.next h
  | finalize n => exact (always_finalize n).next h
  | chain => exact always_chain.next h
  | chBegin => exact always_chBegin.next h
  | chStep => exact always_chStep.next h
  | chEnd => exact always_chEnd.next h
  | cmp l => exact (always_cmp l).next h
  | scan => exact always_scan.next h
  | scBegin => exact always_scBegin.next h
  | scIter => exact always_scIter.next h
  | stgOrd d => exact (always_externalStage d).next h
  | stgAes d => exact (always_aesStage d).next h
  | stgLat d => exact (always_externalStage d).next h
  | stgMh d => exact (always_externalStage d).next h

/-- No instruction writes more than a scan does. -/
theorem outsideScan_scope (i : Instr) (s : State) : outsideScan (scope i s) = outsideScan s := by
  cases i with
  | scIter => exact outsideScan_outsideIteration s
  | scan => simp [scope, outsideScan, emptyCmd, outsideIteration, outsideChain, outsideContext]
  | _ => rfl

/-- No instruction but `SCAN` writes the command in hand. -/
theorem scope_cmd {i : Instr} (hi : i ≠ .scan) (s : State) : (scope i s).cmd = s.cmd := by
  cases i with
  | scan => exact absurd rfl hi
  | _ => rfl

end Sys2Proof.Machine
end

section
/-! Every step keeps the invariant (spec/10_state.md R25 to R60): what reset, an action of the host, and a command do to
it, and what a step can do at all. -/

namespace Sys2Proof.Machine

variable {s t : State} {d : Done}

/-! ## Reset -/

theorem resetValues_reset : ResetValues State.reset :=
  ⟨rfl, rfl, rfl, rfl, rfl, rfl, rfl, rfl, rfl, rfl, rfl, rfl, rfl, rfl⟩

theorem resetValues_resetSignal (s : State) : ResetValues (resetSignal s) :=
  ⟨rfl, rfl, rfl, rfl, rfl, rfl, rfl, rfl, rfl, rfl, rfl, rfl, rfl, rfl⟩

/-- The values reset specifies meet the invariant, whatever the other registers hold (R53, R292). -/
theorem ResetValues.inv (h : ResetValues s) (hm : MemOk s) : Inv s where
  cfg := by rw [h.ctxst]; exact h.cfg
  mem := hm
  stage := by rw [h.stage]; decide
  stageDone hd := by rw [h.chst] at hd; cases hd
  table hi := absurd h.chst hi
  counter hc := by rw [h.ctxst] at hc; rcases hc with hc | hc <;> cases hc
  faultBits i hi := by rw [h.fault] at hi; simp at hi
  haltedBit := by rw [h.halted, h.fault]; rfl
  events e he := by rw [h.subq] at he; cases he
  scanning hc := by rw [h.cmd] at hc; cases hc

theorem inv_resetSignal (s : State) : Inv (resetSignal s) := (resetValues_resetSignal s).inv reset_memory_wf

/-- Settles O57: reset leaves memory that is canonical, and the values of R53 meet every other clause. -/
theorem resetSatisfiesTheInvariant : Obligations.ResetSatisfiesTheInvariant :=
  ⟨resetValues_reset.inv reset_memory_wf, fun _ h hm => h.inv hm⟩

/-! ## The host -/

/-- The registers the host may write erased (R52). -/
def outsideHost (s : State) : State :=
  { s with
    msg := Vector.replicate 12 zeroWide, ln := Vector.replicate 4 0, hdr := Vector.replicate 20 0
    tgt := Vector.replicate 8 0, first := 0, max := 0, cancel := false, cmd := .idle }

/-- A host write writes only registers the host may write. -/
theorem hostWrite_frame (s : State) (r : HostReg) (v : Word128) : outsideHost (hostWrite s r v) = outsideHost s := by
  cases r <;> rfl

/-- A host write that leaves a `SCAN` in hand found it in hand. -/
theorem cmd_of_hostWrite {r : HostReg} {v : Word128} (h : (hostWrite s r v).cmd = .scan) : s.cmd = .scan := by
  cases r with
  | cmd => cases h
  | _ => exact h

/-- Everything an action of the host but RESET can do. -/
theorem hostAct_cases {a : HostAct} (ha : a ≠ .reset) (s : State) :
    (∃ r v, a = .write r v ∧ hostAct a s = hostWrite s r v) ∨ hostAct a s = takeEvent s ∨ hostAct a s = s := by
  cases a with
  | write r v => exact .inl ⟨r, v, rfl, rfl⟩
  | take => exact .inr (.inl rfl)
  | reset => exact absurd rfl ha
  | read | readFront | wait => exact .inr (.inr rfl)

/-- No action of the host but RESET writes FAULT, HALTED or the configuration (R52, R54). -/
theorem hostAct_frame {a : HostAct} (ha : a ≠ .reset) (s : State) :
    (hostAct a s).fault = s.fault ∧ (hostAct a s).halted = s.halted ∧ (hostAct a s).conf = s.conf := by
  rcases hostAct_cases ha s with ⟨r, v, _, h⟩ | h | h <;> rw [h]
  · have hw := hostWrite_frame s r v
    exact ⟨field_of_erased State.fault hw, field_of_erased State.halted hw, field_of_erased State.conf hw⟩
  · exact ⟨rfl, rfl, rfl⟩
  · exact ⟨rfl, rfl, rfl⟩

theorem Legal.hostAct {a : HostAct} (ha : a ≠ .reset) (h : Legal s) : Legal (hostAct a s) := by
  rcases hostAct_cases ha s with ⟨r, v, _, he⟩ | he | he <;> rw [he]
  · exact h.of_part (field_of_erased legalPart (hostWrite_frame s r v))
  · exact { h with events := fun e hm => h.events e (List.mem_of_mem_tail hm) }
  · exact h

/-- The only register the host writes while a `SCAN` is in hand is CANCEL (30_encoding.md R109). -/
theorem write_allowedInScan {r : HostReg} {v : Word128} (h : allowedInScan (.write r v) = true) : r = .cancel :=
  beq_iff_eq.1 h

theorem ScanInHandOk.hostAct {a : HostAct} (ha : a ≠ .reset) (hw : s.cmd = .scan → allowedInScan a = true)
    (h : ScanInHandOk s) : ScanInHandOk (hostAct a s) := by
  rcases hostAct_cases ha s with ⟨r, v, rfl, he⟩ | he | he <;> rw [he]
  · intro hc
    have hcmd := cmd_of_hostWrite hc
    obtain rfl := write_allowedInScan (hw hcmd)
    exact h hcmd
  · exact h
  · exact h

/-- An action of the host keeps the invariant, where it is one allowed at that time (R109). -/
theorem Inv.hostAct {a : HostAct} (ha : a ≠ .reset) (hw : s.cmd = .scan → allowedInScan a = true) (h : Inv s) :
    Inv (hostAct a s) := by
  obtain ⟨hl, hf, hc⟩ := (inv_iff s).1 h
  obtain ⟨hfault, hhalted, _⟩ := hostAct_frame ha s
  refine (inv_iff _).2 ⟨hl.hostAct ha, ⟨?_, ?_⟩, hc.hostAct ha hw⟩
  · rw [hfault]; exact hf.bits
  · rw [hfault, hhalted]; exact hf.halted

/-! ## Faults -/

theorem HwFault.code_le (h : HwFault) : 1 ≤ h.code ∧ h.code ≤ 6 := by cases h <;> simp [HwFault.code]

/-- A fault's word holds the bit of its code alone (R251). -/
theorem HwFault.bit_getLsbD (h : HwFault) (i : Nat) : h.bit.getLsbD i = decide (i = h.code) := by
  have hc := h.code_le
  rw [HwFault.bit, BitVec.getLsbD_shiftLeft, BitVec.getLsbD_one, Bool.eq_iff_iff]
  simp only [Bool.and_eq_true, Bool.not_eq_true', decide_eq_true_eq, decide_eq_false_iff_not]
  omega

theorem HwFault.halting_eq (h : HwFault) : h.halting = (decide (4 = h.code) || decide (5 = h.code)) := by
  cases h <;> rfl

theorem FaultsOk.recordFault (hs : FaultsOk s) (h : HwFault) : FaultsOk (recordFault h s) where
  bits i hi := by
    rw [recordFault_fault, BitVec.getLsbD_or, Bool.or_eq_true, h.bit_getLsbD, decide_eq_true_iff] at hi
    rcases hi with hi | rfl
    · exact hs.bits i hi
    · exact h.code_le
  halted := by
    simp only [recordFault_halted, recordFault_fault, BitVec.getLsbD_or, h.bit_getLsbD, hs.halted, h.halting_eq]
    ac_rfl

/-- FAULT and HALTED after a command are what the fault it raised, if any, records. -/
theorem Effect.faults (h : Effect outsideScan s d) :
    d.st.fault = (recorded d.raised s).fault ∧ d.st.halted = (recorded d.raised s).halted :=
  ⟨field_of_erased State.fault h.frame, field_of_erased State.halted h.frame⟩

theorem FaultsOk.effect (hs : FaultsOk s) (h : Effect outsideScan s d) : FaultsOk d.st := by
  obtain ⟨hfault, hhalted⟩ := h.faults
  have hr : FaultsOk (recorded d.raised s) := by
    cases d.raised with
    | none => exact hs
    | some f => exact hs.recordFault f
  exact ⟨by rw [hfault]; exact hr.bits, by rw [hfault, hhalted]; exact hr.halted⟩

/-! ## A `SCAN` that stays in hand -/

/-- An iteration that leaves the scan running leaves nonces to try (R227). -/
theorem nonce_lt_max_of_scIter (h : scIter s = .ok (ran t)) (hr : t.scanst = .run) : t.nonce < t.max := by
  rcases scIter_cases s with ⟨_, heq⟩ | ⟨_, heq⟩ <;> rw [heq] at h
  · rcases (andThen_ok_iff _ _ _).1 h with ⟨u, _, hu⟩ | ⟨_, hn, _⟩
    · cases hu
      have hmax : (scFinish s.nonce (activeCount s) u).max = u.max := pollCancel_max u
      have hlt : s.nonce.toNat + activeCount s < u.max.toNat := by
        by_contra hge
        rw [show (scFinish s.nonce (activeCount s) u).scanst = scanStateAfter _ u.max _ from rfl, scanStateAfter,
          if_pos (Nat.le_of_not_lt hge)] at hr
        cases hr
      rw [hmax]
      show BitVec.ofNat 32 (s.nonce.toNat + activeCount s) < u.max
      have := u.max.isLt
      bv_omega
    · cases hn
  · cases h

/-- A turn leaves a `SCAN` in hand only as the invariant wants it. -/
theorem scanTurn_scanInHandOk (hc : s.cmd ≠ .scan) (hh : s.halted = false) (h : scanTurn s = .ok d) :
    ScanInHandOk d.st := by
  intro hcmd
  rcases scanTurn_cases s with ⟨_, heq⟩ | ⟨_, heq⟩ <;> rw [heq] at h
  · rcases (andThen_ok_iff _ _ _).1 h with ⟨u, hu, hd⟩ | ⟨_, _, hd⟩
    · cases hd
      have heff := always_scIter s _ hu
      have hrun : u.scanst = .run := by
        by_contra hn
        rw [ran_st, scanGoesOn_cmd, if_neg hn] at hcmd
        exact hc ((heff.field State.cmd).symm.trans hcmd)
      simp only [ran_st, scanGoesOn_scanst, scanGoesOn_halted, scanGoesOn_nonce, scanGoesOn_max]
      exact ⟨hrun, (field_of_erased State.halted heff.frame).trans hh, nonce_lt_max_of_scIter hu hrun⟩
    · exact absurd (((always_scIter s d hd).field State.cmd).symm.trans hcmd) hc
  · cases h
    exact absurd hcmd hc

/-- An instruction leaves a `SCAN` in hand only as the invariant wants it. -/
theorem exec_scanInHandOk {i : Instr} (hc : s.cmd ≠ .scan) (hh : s.halted = false) (h : exec i s = .next t) :
    ScanInHandOk t := by
  by_cases hi : i = .scan
  · subst hi
    rw [exec_scan, scan_eq] at h
    obtain ⟨r, hr⟩ := (outcome_next_iff _ _).1 h
    exact scanTurn_scanInHandOk (s := scBegun s) hc hh hr
  · obtain ⟨r, heff⟩ := exec_effect h
    exact fun hcmd => absurd ((heff.field State.cmd (scope_cmd hi)).symm.trans hcmd) hc

/-! ## The step -/

/-- The turn of a command in hand, from the state without it: its effect, and the `SCAN` it may leave in hand. -/
def CommandTurn (s t : State) : Prop :=
  (∃ (ib : List HostAct) (r : Option HwFault), Effect outsideScan (emptyCmd (withInbox s ib)) ⟨t, r⟩)
    ∧ (ScanInHandOk s → ScanInHandOk t)

theorem issue_commandTurn {cw : Word32} (h : issue cw (emptyCmd s) = .next t) : CommandTurn s t := by
  rcases issue_cases cw (emptyCmd s) with ⟨_, heq⟩ | ⟨hh, i, _, heq⟩ | ⟨_, _, _, heq⟩ <;> rw [heq] at h
  · cases h
    exact ⟨⟨s.inbox, none, effect_ran_self _ _⟩, fun _ hc => by cases hc⟩
  · obtain ⟨r, heff⟩ := exec_effect h
    exact ⟨⟨s.inbox, r, heff.mono (outsideScan_scope i)⟩, fun _ => exec_scanInHandOk (by simp) hh h⟩
  · cases h
    exact ⟨⟨s.inbox, some _, effect_raise _ _ _⟩, fun _ hc => by cases hc⟩

theorem nextIteration_commandTurn {ib : List HostAct} (hc : s.cmd = .scan)
    (h : nextIteration (withInbox s ib) = .next t) : CommandTurn s t := by
  rw [nextIteration] at h
  obtain ⟨r, hr⟩ := (outcome_next_iff _ _).1 h
  refine ⟨⟨ib, r, always_scanTurn _ _ hr⟩, fun hs => ?_⟩
  obtain ⟨_, hh, _⟩ := hs hc
  exact scanTurn_scanInHandOk (s := emptyCmd (withInbox s ib)) (by simp) hh hr

/-- A step that takes an action of the host other than RESET: one that R109 allows, while a `SCAN` is in hand. -/
def HostTurn (s t : State) : Prop :=
  ∃ a rest, s.inbox = a :: rest ∧ a ≠ .reset ∧ (s.cmd = .scan → allowedInScan a = true)
    ∧ t = hostAct a (withInbox s rest)

/-- Everything a step that answers a next state can do: RESET, an action of the host, nothing, or the turn of the
command in hand. -/
theorem step_effect (h : step s = .next t) :
    (∃ rest, s.inbox = .reset :: rest ∧ t = resetSignal (withInbox s rest)) ∨ HostTurn s t ∨ t = s
      ∨ CommandTurn s t := by
  rcases step_cases s with ⟨rest, hi, heq⟩ | ⟨_, cw, _, heq⟩ | ⟨hr, hc, heq⟩ | ⟨hr, hc, heq⟩ <;> rw [heq] at h
  · cases h
    exact .inl ⟨rest, hi, rfl⟩
  · exact .inr (.inr (.inr (issue_commandTurn h)))
  · rcases scanStep_cases s with ⟨a, rest, hi, ha, heq⟩ | ⟨rest, _, heq⟩ | ⟨_, heq⟩ <;> rw [heq] at h
    · cases h
      have hne : a ≠ .reset := by rintro rfl; cases ha
      exact .inr (.inl ⟨a, rest, hi, hne, fun _ => ha, rfl⟩)
    · exact .inr (.inr (.inr (nextIteration_commandTurn hc h)))
    · exact .inr (.inr (.inr (nextIteration_commandTurn (ib := s.inbox) hc h)))
  · rcases idleStep_cases s with ⟨_, heq⟩ | ⟨a, rest, hi, heq⟩ <;> rw [heq] at h <;> cases h
    · exact .inr (.inr (.inl rfl))
    · have hne : a ≠ .reset := by rintro rfl; exact hr (by rw [hi]; rfl)
      have hw : s.cmd = .scan → allowedInScan a = true := by simp [hc]
      exact .inr (.inl ⟨a, rest, hi, hne, hw, rfl⟩)

theorem CommandTurn.inv (h : CommandTurn s t) (hs : Inv s) : Inv t := by
  obtain ⟨⟨ib, r, heff⟩, hscan⟩ := h
  obtain ⟨hl, hf, hc⟩ := (inv_iff s).1 hs
  have hf' : FaultsOk (emptyCmd (withInbox s ib)) := ⟨hf.bits, hf.halted⟩
  exact (inv_iff t).2 ⟨heff.lasting.legal (hl.of_part rfl), hf'.effect heff, hscan hc⟩

theorem Inv.withInbox (h : Inv s) (rest : List HostAct) : Inv (withInbox s rest) :=
  ⟨h.cfg, h.mem, h.stage, h.stageDone, h.table, h.counter, h.faultBits, h.haltedBit, h.events, h.scanning⟩

/-- Settles O58: RESET establishes the invariant, the host's actions and the turns of commands keep it. -/
theorem stepKeepsTheInvariant : Obligations.StepKeepsTheInvariant := by
  intro s t hs h
  rcases step_effect h with ⟨rest, _, rfl⟩ | ⟨a, rest, _, ha, hw, rfl⟩ | rfl | hturn
  · exact inv_resetSignal _
  · exact (hs.withInbox rest).hostAct ha hw
  · exact hs
  · exact hturn.inv hs

end Sys2Proof.Machine
end

section
/-! What commands and steps leave alone: FAULT and HALTED, the registers of the host, the sequencing registers; and what
the host reads and writes (spec/10_state.md R38 to R53). -/

namespace Sys2Proof.Machine

variable {s : State} {d : Done}

/-! ## FAULT and HALTED -/

/-- No command clears a FAULT bit or HALTED (R49, R253). -/
theorem Effect.faults_sticky (h : Effect outsideScan s d) :
    (∀ n : Nat, s.fault.getLsbD n = true → d.st.fault.getLsbD n = true) ∧ (s.halted = true → d.st.halted = true) := by
  obtain ⟨hfault, hhalted⟩ := h.faults
  rw [hfault, hhalted]
  cases d.raised with
  | none => exact ⟨fun _ => id, id⟩
  | some f =>
    refine ⟨fun n hn => ?_, fun hh => ?_⟩
    · rw [recorded, recordFault_fault, BitVec.getLsbD_or, hn, Bool.true_or]
    · rw [recorded, recordFault_halted, hh, Bool.true_or]

/-- Settles O11: a command only adds to FAULT and HALTED, and the host's other actions do not write them. -/
theorem onlyResetClearsFaultAndHalted : Obligations.OnlyResetClearsFaultAndHalted := by
  intro s t h hr
  rcases step_effect h with ⟨rest, hi, _⟩ | ⟨a, rest, _, ha, _, rfl⟩ | rfl | ⟨⟨_, _, heff⟩, _⟩
  · exact absurd (by rw [hi]; rfl) hr
  · obtain ⟨hfault, hhalted, _⟩ := hostAct_frame ha (withInbox s rest)
    exact ⟨fun n hn => by rw [hfault]; exact hn, fun hh => by rw [hhalted]; exact hh⟩
  · exact ⟨fun _ => id, id⟩
  · exact heff.faults_sticky

/-! ## The registers of the host -/

/-- No command writes TGT, FIRST, MAX, HDR[0..18] or the configuration (R40 to R43, R54). -/
theorem Effect.hostRegisters (h : Effect outsideScan s d) :
    d.st.tgt = s.tgt ∧ d.st.first = s.first ∧ d.st.max = s.max
      ∧ (∀ j : Fin 20, j.val < 19 → d.st.hdr[j] = s.hdr[j]) ∧ d.st.conf = s.conf := by
  have hset : d.st.hdr.set 19 0 = s.hdr.set 19 0 :=
    h.field (·.hdr.set 19 0) fun x => by simp [outsideScan, outsideIteration]
  refine ⟨h.field State.tgt, h.field State.first, h.field State.max, fun j hj => ?_, h.field State.conf⟩
  have hget := congrArg (·[j]) hset
  simpa [Vector.getElem_set, show ¬ 19 = j.val by omega] using hget

/-- An action allowed while a `SCAN` is in hand writes CANCEL or SUBQ, if anything (R109). -/
theorem allowedInScan_frame {a : HostAct} (ha : allowedInScan a = true) (s : State) :
    (hostAct a s).tgt = s.tgt ∧ (hostAct a s).first = s.first ∧ (hostAct a s).max = s.max
      ∧ (hostAct a s).hdr = s.hdr := by
  have hne : a ≠ .reset := by rintro rfl; cases ha
  rcases hostAct_cases hne s with ⟨r, v, rfl, he⟩ | he | he <;> rw [he]
  · obtain rfl := write_allowedInScan ha
    exact ⟨rfl, rfl, rfl, rfl⟩
  · exact ⟨rfl, rfl, rfl, rfl⟩
  · exact ⟨rfl, rfl, rfl, rfl⟩

/-- Settles O55: what an instruction or a turn writes lies within what a scan does, so outside the host's registers. -/
theorem coreNeverWritesHostState : Obligations.CoreNeverWritesHostState := by
  refine ⟨fun i s t h => ?_, fun s t hc hr h => ?_, fun s t h => ?_⟩
  · obtain ⟨r, heff⟩ := exec_effect h
    have hscan := heff.mono (outsideScan_scope i)
    obtain ⟨htgt, hfirst, hmax, hhdr, hconf⟩ := hscan.hostRegisters
    refine ⟨htgt, hfirst, hmax, hhdr, hconf, ?_, hscan.field State.inbox, fun hp => (heff.lasting.cancel hp).2⟩
    by_cases hi : i = .scan
    · exact heff.lasting.cmd.imp_right fun hc => ⟨hi, hc⟩
    · exact .inl (heff.field State.cmd (scope_cmd hi))
  · rcases step_effect h with ⟨rest, hi, _⟩ | ⟨a, rest, _, _, ha, rfl⟩ | rfl | ⟨⟨_, _, heff⟩, _⟩
    · exact absurd (by rw [hi]; rfl) hr
    · obtain ⟨htgt, hfirst, hmax, hhdr⟩ := allowedInScan_frame (ha hc) (withInbox s rest)
      exact ⟨htgt, hfirst, hmax, fun j _ => congrArg (·[j]) hhdr⟩
    · exact ⟨rfl, rfl, rfl, fun _ _ => rfl⟩
    · obtain ⟨htgt, hfirst, hmax, hhdr, _⟩ := heff.hostRegisters
      exact ⟨htgt, hfirst, hmax, hhdr⟩
  · rcases step_effect h with ⟨rest, _, rfl⟩ | ⟨a, rest, _, ha, _, rfl⟩ | rfl | ⟨⟨_, _, heff⟩, _⟩
    · rfl
    · exact (hostAct_frame ha (withInbox s rest)).2.2
    · rfl
    · exact heff.field State.conf

/-! ## The sequencing registers -/

/-- Settles O56: the scope of an instruction erases CHST and STAGE, SCANST and CTXST only where R241 lets it write
them. -/
theorem sequencingRegistersFollowTheTable : Obligations.SequencingRegistersFollowTheTable := by
  intro i s t h
  obtain ⟨r, heff⟩ := exec_effect h
  refine ⟨fun hi => ?_, fun hi => heff.field State.scanst fun x => ?_, fun hi => heff.field State.ctxst fun x => ?_,
    not_imp_not.1 heff.lasting.chst, not_imp_not.1 heff.lasting.scanst, not_imp_not.1 heff.lasting.ctxst⟩
  · have hscope (x : State) : (scope i x).chst = x.chst ∧ (scope i x).stage = x.stage := by
      cases i with
      | chBegin | chStep | chEnd | chain | scIter | scan | stgOrd | stgAes | stgLat | stgMh => simp at hi
      | _ => exact ⟨rfl, rfl⟩
    exact ⟨heff.field State.chst fun x => (hscope x).1, heff.field State.stage fun x => (hscope x).2⟩
  · cases i with
    | scBegin | scIter | scan => simp at hi
    | _ => rfl
  · cases i with
    | ctxInit | xtract | finalize | chStep | chain | scIter | scan | stgAes => simp at hi
    | _ => rfl

/-! ## The turns of the host, and RESET -/

theorem step_reset {rest : List HostAct} (h : s.inbox = .reset :: rest) :
    step s = .next (resetSignal (withInbox s rest)) := by
  simp only [step, advance, h, hostAct]

/-- With no command in hand RESET is an action like the others. -/
theorem step_idle (hc : s.cmd = .idle) : step s = idleStep s := by
  rcases step_cases s with ⟨rest, hi, heq⟩ | ⟨_, cw, hc', _⟩ | ⟨_, hc', _⟩ | ⟨_, _, heq⟩
  · rw [heq, idleStep, hi]; rfl
  · rw [hc] at hc'; cases hc'
  · rw [hc] at hc'; cases hc'
  · exact heq

theorem step_scan (hc : s.cmd = .scan) (hr : s.inbox.head? ≠ some .reset) : step s = scanStep s := by
  rcases step_cases s with ⟨rest, hi, _⟩ | ⟨_, cw, hc', _⟩ | ⟨_, _, heq⟩ | ⟨_, hc', _⟩
  · exact absurd (by rw [hi]; rfl) hr
  · rw [hc] at hc'; cases hc'
  · exact heq
  · rw [hc] at hc'; cases hc'

/-- Between two iterations an action R109 allows takes effect. -/
theorem step_allowedInScan {a : HostAct} {rest : List HostAct} (ha : allowedInScan a = true) (hc : s.cmd = .scan)
    (hi : s.inbox = a :: rest) : step s = .next (hostAct a (withInbox s rest)) := by
  rw [step_scan hc (by rw [hi]; rintro ⟨⟩; cases ha)]
  rcases scanStep_cases s with ⟨b, rest', hi', _, heq⟩ | ⟨rest', hi', _⟩ | ⟨hn, _⟩
  · rw [hi] at hi'; cases hi'; exact heq
  · rw [hi] at hi'; cases hi'; cases ha
  · have := (hn a (by rw [hi]; rfl)).2
    rw [ha] at this; cases this

/-- Settles O6: with no command in hand a step is the host's turn, between two iterations it is that of the scan. -/
theorem hostActsBetweenCommands : Obligations.HostActsBetweenCommands := by
  refine ⟨fun s hc hi => ?_, fun s a rest hc hi => ?_, fun s a rest ha hc hi => ?_, fun s hi hc => ?_,
    fun s rest hc hi => ?_,
    fun s => ⟨rfl, fun e rest h => ?_, fun h => ⟨?_, ?_⟩, fun _ _ => rfl, fun _ => rfl, rfl, rfl⟩⟩
  · rw [step_idle hc, idleStep, hi]
  · rw [step_idle hc, idleStep, hi]; rfl
  · refine step_allowedInScan ?_ hc hi
    rcases ha with ⟨r, rfl⟩ | rfl | rfl | ⟨v, rfl⟩ <;> rfl
  · rcases hi with hi | ⟨r, v, rest, hne, hi⟩
    · rw [step_scan hc (by simp [hi]), scanStep, hi]
    · rw [step_scan hc (by simp [hi]), scanStep, hi]
      simp [allowedInScan, hne]
  · rw [step_scan hc (by simp [hi]), scanStep, hi]; rfl
  · rw [hostFront, h]; rfl
  · rw [hostFront, h]; rfl
  · show takeEvent s = s
    rw [takeEvent, h]
    exact congrArg (fun q => { s with subq := q }) h.symm

/-- Settles O9: RESET at the front of the host's actions is the reset signal, which leaves the values of R53. -/
theorem resetLeavesTheStatedValues : Obligations.ResetLeavesTheStatedValues := by
  refine ⟨fun t ht => ?_, fun s => ⟨rfl, rfl⟩, fun s rest hi => step_reset hi⟩
  rcases ht with rfl | ⟨s, rfl⟩
  · exact resetValues_reset
  · exact resetValues_resetSignal s

/-! ## STATUS -/

/-- STATUS as its fields, lowest first (R48). -/
theorem statusWord_fields (s : State) :
    (statusWord s).extractLsb' 0 2 = s.ctxst.code ∧ (statusWord s).extractLsb' 2 2 = s.chst.code
      ∧ (statusWord s).extractLsb' 4 2 = s.scanst.code ∧ (statusWord s).getLsbD 6 = s.halted
      ∧ (statusWord s).getLsbD 7 = !s.subq.isEmpty ∧ (statusWord s).extractLsb' 8 5 = s.stage
      ∧ (statusWord s).extractLsb' 13 4 = s.qual ∧ (statusWord s).extractLsb' 17 15 = 0 := by
  unfold statusWord
  refine ⟨?_, ?_, ?_, ?_, ?_, ?_, ?_, ?_⟩
  case refine_4 | refine_5 => simp only [BitVec.getLsbD_append]; simp
  all_goals simp only [BitVec.extractLsb'_append_eq_ite]; simp

/-- Settles O12, field by field from `statusWord_fields`. -/
theorem statusIsAViewOfItsFields : Obligations.StatusIsAViewOfItsFields := by
  intro s
  obtain ⟨hctx, hch, hscan, hhalted, hne, hstage, hqual, hzero⟩ := statusWord_fields s
  refine ⟨rfl, hctx.trans ?_, hch.trans ?_, hscan.trans ?_, hhalted, ?_, hstage, hqual, hzero, fun _ => rfl⟩
  · cases s.ctxst <;> rfl
  · cases s.chst <;> rfl
  · cases s.scanst <;> rfl
  · rw [hne]; simp

/-! ## Host reads and writes -/

theorem ofBool_getLsbD_zero (v : Word128) : BitVec.ofBool (v.getLsbD 0) = v.extractLsb' 0 1 := by
  ext i hi
  obtain rfl : i = 0 := by omega
  simp

/-- A flag read as a number (log 15). -/
theorem setWidth_ofBool (b : Bool) : (BitVec.ofBool b).setWidth 128 = if b then 1 else 0 := by cases b <;> rfl

/-- One entry of a vector written: what each entry holds then. -/
theorem setEntry_getElem {α : Type} {n : Nat} (x : Vector α n) (i j : Fin n) (v : α) :
    (x.set i.val v i.isLt)[j] = if j = i then v else x[j] := by
  simp [Vector.getElem_set, Fin.val_inj, eq_comm]

/-- One lane of one register of a block written (R68): what each lane of each register holds then. -/
theorem setLane_getElem {n : Nat} (x : Vector Wide n) (w w' : Fin n) (l l' : Lane) (v : Word128) :
    (x.set w.val (x[w].set l.val v l.isLt) w.isLt)[w'][l'] = if w' = w ∧ l' = l then v else x[w'][l'] := by
  rw [setEntry_getElem]
  by_cases hw : w' = w
  · subst hw
    simp only [if_true, setEntry_getElem, true_and]
  · rw [if_neg hw, if_neg fun h => hw h.1]

/-- A host write changes nothing the host reads elsewhere (R52). -/
theorem hostRead_hostWrite_other {r q : HostReg} (h : q ≠ r) (s : State) (v : Word128) :
    hostRead (hostWrite s r v) q = hostRead s q := by
  cases r with
  | msg w l =>
    cases q with
    | msg w' l' =>
      have hn : ¬ (w' = w ∧ l' = l) := by rintro ⟨rfl, rfl⟩; exact h rfl
      simp only [hostRead, hostWrite, setLane_getElem, if_neg hn]
    | _ => rfl
  | ln l =>
    cases q with
    | ln l' =>
      have hn : l' ≠ l := by rintro rfl; exact h rfl
      simp only [hostRead, hostWrite, setEntry_getElem, if_neg hn]
    | _ => rfl
  | hdr i =>
    cases q with
    | hdr j =>
      have hn : j ≠ i := by rintro rfl; exact h rfl
      simp only [hostRead, hostWrite, setEntry_getElem, if_neg hn]
    | _ => rfl
  | tgt i =>
    cases q with
    | tgt j =>
      have hn : j ≠ i := by rintro rfl; exact h rfl
      simp only [hostRead, hostWrite, setEntry_getElem, if_neg hn]
    | _ => rfl
  | first =>
    cases q with
    | first => exact absurd rfl h
    | _ => rfl
  | max =>
    cases q with
    | max => exact absurd rfl h
    | _ => rfl
  | cancel =>
    cases q with
    | cancel => exact absurd rfl h
    | _ => rfl
  | cmd =>
    cases q with
    | cmd => exact absurd rfl h
    | _ => rfl
  | _ => rfl

/-- A host write to a register the host may not write is ignored (R52). -/
theorem hostWrite_ignored {r : HostReg} (hmsg : ∀ w l, r ≠ .msg w l) (hln : ∀ l, r ≠ .ln l) (hhdr : ∀ i, r ≠ .hdr i)
    (htgt : ∀ i, r ≠ .tgt i) (hfirst : r ≠ .first) (hmax : r ≠ .max) (hcancel : r ≠ .cancel) (hcmd : r ≠ .cmd)
    (s : State) (v : Word128) : hostWrite s r v = s := by
  cases r with
  | msg w l => exact absurd rfl (hmsg w l)
  | ln l => exact absurd rfl (hln l)
  | hdr i => exact absurd rfl (hhdr i)
  | tgt i => exact absurd rfl (htgt i)
  | first => exact absurd rfl hfirst
  | max => exact absurd rfl hmax
  | cancel => exact absurd rfl hcancel
  | cmd => exact absurd rfl hcmd
  | _ => rfl

/-- Settles O13: what a write changes is that one lane, entry or register; the reads are the fields as they stand. -/
theorem hostWriteRights : Obligations.HostWriteRights := by
  intro s v
  obtain ⟨hctx, hch, hscan, _⟩ := statusWord_fields s
  refine ⟨fun w l => ?_, fun l => ?_, fun i => ?_, fun i => ?_, rfl, rfl, ?_, rfl,
    fun r hmsg hln hhdr htgt hfirst hmax hcancel hcmd =>
      hostWrite_ignored hmsg hln hhdr htgt hfirst hmax hcancel hcmd s v,
    fun r q h => hostRead_hostWrite_other h s v,
    fun _ _ _ => ⟨rfl, rfl, rfl⟩, fun _ => ⟨rfl, rfl⟩, fun _ _ => ⟨rfl, rfl⟩, fun _ _ => rfl, rfl, rfl, rfl,
    ?_, ?_, ?_, fun _ _ => rfl, fun _ _ => rfl, fun _ _ => rfl, rfl, fun _ => rfl, fun _ => rfl, fun _ => rfl,
    fun _ => rfl, rfl, rfl, ?_, rfl, rfl, rfl, rfl, ?_, rfl⟩
  · simp only [hostRead, hostWrite, setLane_getElem, and_self, if_true]
  · simp only [hostRead, hostWrite, setEntry_getElem, if_true]
  · simp only [hostRead, hostWrite, setEntry_getElem, if_true]
  · simp only [hostRead, hostWrite, setEntry_getElem, if_true]
  · simp only [hostRead, hostWrite, ofBool_getLsbD_zero]
  · rw [hctx]; rfl
  · rw [hch]; rfl
  · rw [hscan]; rfl
  · rw [hostRead, setWidth_ofBool]
  · rw [hostRead, setWidth_ofBool]

end Sys2Proof.Machine
end

section
/-! The step that takes a command word from CMD (spec/30_encoding.md R91), and `CH.STEP` as the stage of the descriptor
it reads (spec/43_chain_orchestrator.md R199). -/

namespace Sys2Proof.Machine

variable {s : State}

/-- A word in CMD is issued, unless RESET is asserted (R91). -/
theorem step_word {cw : Word32} (hr : s.inbox.head? ≠ some .reset) (hc : s.cmd = .word cw) :
    step s = issue cw (emptyCmd s) := by
  rcases step_cases s with ⟨rest, hi, _⟩ | ⟨_, cw', hc', heq⟩ | ⟨_, hc', _⟩ | ⟨_, hc', _⟩
  · exact absurd (by rw [hi]; rfl) hr
  · rw [hc] at hc'; cases hc'; exact heq
  · rw [hc] at hc'; cases hc'
  · rw [hc] at hc'; cases hc'

/-- A CORE that is not halted runs the command a word decodes to (R91). -/
theorem issue_decoded {cw : Word32} {i : Instr} (hh : s.halted = false) (hd : decodeCommand cw = .ok i) :
    issue cw s = exec i s := by
  rcases issue_cases cw s with ⟨hh', _⟩ | ⟨_, j, hj, heq⟩ | ⟨_, e, he, _⟩
  · rw [hh] at hh'; cases hh'
  · rw [hd] at hj; cases hj; exact heq
  · rw [hd] at he; cases he

/-- A descriptor decodes to the instruction of its kind and fields, if to any (R104). -/
theorem eq_stageInstr_of_decodeDescriptor {w : Word64} {i : Instr} (hd : decodeDescriptor w = .ok i) :
    i = stageInstr (descriptorKind w) (descriptorFields w) := by
  unfold decodeDescriptor at hd
  split at hd
  · cases hd; rfl
  · cases hd

/-- The instruction of a descriptor runs the stage of its kind (R199). -/
theorem exec_stageInstr (k : StageKind) (d : StageFields) (s : State) :
    exec (stageInstr k d) s = outcome (stageOf k d s) := by
  cases k <;> rfl

/-- With a stage left to run `CH.STEP` runs the instruction `STAGES[STAGE]` decodes to (R199). -/
theorem exec_chStep_eq_descriptor {i : Instr} (hrun : s.chst = .run) (hst : s.stage.toNat < 19)
    (hd : decodeDescriptor s.conf.stages[s.stage.toNat] = .ok i) : exec .chStep s = exec i s := by
  rcases chStep_cases s with ⟨hn, _⟩ | ⟨_, _, heq⟩
  · exact absurd ⟨hrun, hst⟩ hn
  · rw [exec_chStep, heq, eq_stageInstr_of_decodeDescriptor hd, exec_stageInstr]
    rfl

/-- Settles O5: the word is taken from CMD and issued; the word of `CH.STEP` runs the descriptor at STAGE. -/
theorem stepRunsDecodedInstruction : Obligations.StepRunsDecodedInstruction := by
  refine ⟨fun s w i hr hc hh hd => ?_, fun s i hst hr hc hh hrun hd => ?_⟩
  · exact (step_word hr hc).trans (issue_decoded (s := emptyCmd s) hh hd)
  · have hword : decodeCommand 0x32000000 = .ok .chStep := rfl
    rw [step_word hr hc, issue_decoded (s := emptyCmd s) hh hword]
    exact exec_chStep_eq_descriptor (s := emptyCmd s) hrun hst hd

end Sys2Proof.Machine
end

section
/-! The chain evaluation (spec/43_chain_orchestrator.md R197 to R207) on a verified table: every stage is that of the
chain function in every lane's buffer, or the `CHAIN_FATAL` of a primitive that misbehaves; and so `CHAIN` is. -/

namespace Sys2Proof.Machine

variable {s t : State}

/-! ## Frames and memory -/

/-- A state that differs in the context only is given by its context. -/
theorem eq_of_outsideContext (h : outsideContext t = outsideContext s) :
    t = { s with
      a := t.a, b := t.b, bk := t.bk, k := t.k, k1 := t.k1, cfg := t.cfg, buf := t.buf, msg := t.msg
      pbits := t.pbits, rem := t.rem, dg := t.dg, ctxst := t.ctxst } := by
  have hrest (x : State) : x = { outsideContext x with
      a := x.a, b := x.b, bk := x.bk, k := x.k, k1 := x.k1, cfg := x.cfg, buf := x.buf, msg := x.msg
      pbits := x.pbits, rem := x.rem, dg := x.dg, ctxst := x.ctxst } := rfl
  refine (hrest t).trans ?_
  rw [h]
  rfl

/-- From the bound of its addresses on a memory reads as zero. -/
theorem Memory.read_of_below {n a : Nat} (ha : n ≤ a) : ∀ {m : Memory}, Memory.below n m = true → Memory.read m a = 0
  | [], _ => rfl
  | (k, v) :: m, hm => by
    obtain ⟨hk, hm⟩ := (Memory.below_cons n k v m).1 hm
    rw [Memory.read_cons, if_neg (by omega), Memory.read_of_below ha hm]

/-- Zeros written over all of a byte space leave it in the form of an empty one. -/
theorem Memory.store_zeros {n : Nat} {m : Memory} (hwf : Memory.wf m = true) (hb : Memory.below n m = true) :
    Memory.store m 0 (List.replicate n 0) = [] := by
  refine Memory.ext_of_wfFrom (lo := 0) (Memory.wf_store _ 0 hwf) rfl fun a => ?_
  rw [Memory.read_store _ _ _ hwf, Memory.read_nil]
  split
  · rw [List.getD_eq_getElem?_getD, List.getElem?_getD_replicate_default_eq]
  · rename_i ha
    rw [List.length_replicate] at ha
    exact Memory.read_of_below (by omega) hb

/-- What a `MemWrite` leaves in a lane of its space. -/
theorem memWrite_space (s : State) (sp : Space) (a : Nat) (v : Lane → List Byte) (l : Lane) :
    ((memWrite s sp a v).space sp)[l] = Memory.store (s.space sp)[l] a (v l) := by
  simp only [memWrite, setSpace_space, Fin.getElem_fin, Vector.getElem_ofFn]

/-- Reading back what a `MemWrite` wrote into every lane. -/
theorem memRead_memWrite_same {sp : Space} {a n : Nat} {v : Lane → List Byte} {l : Lane}
    (hwf : Memory.wf (s.space sp)[l] = true) (hn : (v l).length = n) :
    memRead (memWrite s sp a v) sp l a n = v l := by
  rw [memRead, memWrite_space, ← hn, Memory.load_store_same hwf]

/-! ## One stage -/

/-- A stage stores its output and then zeros over its clear range, in every lane of RB (R199). -/
theorem stageWrite_rb (d : StageFields) (out : Lane → List Byte) (s : State) (l : Lane) :
    (stageWrite d out s).rb[l] = Memory.store (Memory.store s.rb[l] d.outOff.toNat (out l)) d.clrOff.toNat
      (List.replicate d.clrLen.toNat 0) := by
  show ((stageClear d (memWrite s .rb d.outOff.toNat out)).space .rb)[l] = _
  unfold stageClear
  split
  · rename_i h0
    rw [memWrite_space, h0]
    rfl
  · rw [memWrite_space, memWrite_space]
    rfl

/-- A stage writes RB and STAGE only, and RB as it reads afterwards (R199). -/
theorem stageWrite_eq (d : StageFields) (out : Lane → List Byte) (s : State) :
    stageWrite d out s = { s with rb := (stageWrite d out s).rb, stage := s.stage + 1 } := by
  obtain ⟨rb, h⟩ := stageWrite_frame d out s
  rw [h]

/-- The input of a stage of a verified table is that of the chain function: the header for the first, RB from its start
for the others (R199, R207). -/
theorem stageInput_verified (hw : wfTable s.conf.stages = true) (i : Fin 19) (l : Lane) :
    stageInput (fieldsAt s.conf.stages i) s l
      = if i = 0 then memRead s .hb l 0 80
        else Memory.load s.rb[l] 0 (fieldsAt s.conf.stages i).inLen.toNat := by
  rw [stageInput, wfTable_inOff hw i]
  split
  · rename_i hi
    obtain ⟨hsrc, hlen⟩ := wfTable_first hw
    rw [hi, hsrc, hlen]
    rfl
  · rename_i hi
    rw [wfTable_src hw hi]
    rfl

/-- A stage that writes the hash of its input runs its stage of the chain function (R207). -/
theorem stageWrite_chainStage {u : State} {i : Fin 19} {out : Lane → List Byte} (hw : wfTable s.conf.stages = true)
    (hrb : u.rb = s.rb)
    (hout : ∀ l, out l = stageHash s.conf i (stageInput (fieldsAt s.conf.stages i) s l)) (l : Lane) :
    (stageWrite (fieldsAt s.conf.stages i) out u).rb[l] = chainStage s.conf (memRead s .hb l 0 80) s.rb[l] i := by
  rw [stageWrite_rb, hout l, stageInput_verified hw, hrb]
  rfl

/-- What stage `i` of an evaluation on a verified table leaves (R199, R207): its stage of the chain function in every
lane's buffer, STAGE advanced, and outside the AES stage the context as it was. -/
structure StageHashed (i : Fin 19) (s t : State) : Prop where
  frame : outsideContext t = outsideContext { s with rb := t.rb, stage := s.stage + 1 }
  external : kindAt s.conf.stages i ≠ .aes → t = { s with rb := t.rb, stage := s.stage + 1 }
  aes : kindAt s.conf.stages i = .aes → t.ctxst = .done
  buffer : ∀ l : Lane, t.rb[l] = chainStage s.conf (memRead s .hb l 0 80) s.rb[l] i

/-- Every kind but AES is a stage of an external primitive (R200). -/
theorem stageOf_external {k : StageKind} (hk : k ≠ .aes) (d : StageFields) (s : State) :
    stageOf k d s = externalStage d s := by
  cases k with
  | aes => exact absurd rfl hk
  | _ => rfl

/-- A stage of an external primitive of a verified table runs, or a lane's digest has the wrong length (R200, R204). -/
theorem externalStage_verified {i : Fin 19} (hc : InChain s) (hw : wfTable s.conf.stages = true)
    (hk : kindAt s.conf.stages i ≠ .aes) :
    (∃ t, externalStage (fieldsAt s.conf.stages i) s = .ok (ran t) ∧ StageHashed i s t)
    ∨ (primsOk s.conf = false
        ∧ externalStage (fieldsAt s.conf.stages i) s = .ok (raise (.chainFatal s.stage) s)) := by
  rcases externalStage_cases (fieldsAt s.conf.stages i) s with
    ⟨hn, _⟩ | ⟨_, hsp, _⟩ | ⟨_, _, _, heq⟩ | ⟨_, _, hfit, heq⟩
  · exact absurd hc hn
  · rw [wfTable_inSpace hw i] at hsp; cases hsp
  · have hhash (l : Lane) : externalOutput (fieldsAt s.conf.stages i) s l
        = stageHash s.conf i (stageInput (fieldsAt s.conf.stages i) s l) := by
      unfold stageHash
      split
      · rename_i ha; exact absurd ha hk
      · rfl
    have hframe := stageWrite_eq (fieldsAt s.conf.stages i) (externalOutput (fieldsAt s.conf.stages i) s) s
    exact .inl ⟨_, heq, congrArg outsideContext hframe, fun _ => hframe, fun ha => absurd ha hk,
      stageWrite_chainStage hw rfl hhash⟩
  · refine .inr ⟨?_, heq⟩
    by_contra hp
    rw [Bool.not_eq_false] at hp
    have hlen : outputsFit (fieldsAt s.conf.stages i) s = true := (outputsFit_iff _ _).2 fun l => by
      rw [externalOutput, primCall_length hp]
      omega
    rw [hlen] at hfit
    cases hfit

/-- The AES stage of a verified table runs (R201). -/
theorem aesStage_verified {i : Fin 19} (hc : InChain s) (hw : wfTable s.conf.stages = true)
    (hk : kindAt s.conf.stages i = .aes) :
    ∃ t, aesStage (fieldsAt s.conf.stages i) s = .ok (ran t) ∧ StageHashed i s t := by
  obtain ⟨h, hlen, hn⟩ := wfTable_aes hw hk
  have hb : h.bits = 8 * (fieldsAt s.conf.stages i).outLen.toNat := (hsOfLength_eq hlen).symm
  have hwords := wfTable_words hw i
  have hhash (l : Lane) : digestBytes (hashedState h (fieldsAt s.conf.stages i) s)
      (fieldsAt s.conf.stages i).outLen.toNat l
        = stageHash s.conf i (stageInput (fieldsAt s.conf.stages i) s l) := by
    have hout : (fieldsAt s.conf.stages i).outLen.toNat = h.bits / 8 := by omega
    simp only [stageHash, hk, hlen, Option.getD_some]
    rw [hout, digestBytes_hashedState hwords hn]
  have hframe := hashedState_frame h (fieldsAt s.conf.stages i) s
  refine ⟨_, aesStage_ready hc (wfTable_inSpace hw i) hwords hb hn, ?_, fun hne => absurd hk hne, fun _ => ?_,
    stageWrite_chainStage hw (by rw [hframe]) hhash⟩
  · rw [stageWrite_eq, hframe]
    rfl
  · rw [stageWrite_eq, hframe]

/-- A stage of a verified table runs, or a primitive misbehaves in it (R199, R204). -/
theorem chStep_verified (hc : InChain s) (hw : wfTable s.conf.stages = true) :
    (∃ t, chStep s = .ok (ran t) ∧ StageHashed ⟨s.stage.toNat, hc.2⟩ s t)
    ∨ (primsOk s.conf = false ∧ chStep s = .ok (raise (.chainFatal s.stage) s)) := by
  rcases chStep_cases s with ⟨hn, _⟩ | ⟨hst, _, heq⟩
  · exact absurd hc hn
  · by_cases hk : kindAt s.conf.stages ⟨s.stage.toNat, hst⟩ = .aes
    · rw [heq, hk]
      exact .inl (aesStage_verified hc hw hk)
    · rw [heq, stageOf_external hk]
      exact externalStage_verified hc hw hk

/-! ## The stages that are left -/

/-- What the stages from STAGE on leave (R206, R207). -/
structure StagesHashed (s t : State) : Prop where
  frame : outsideContext t = outsideContext { s with rb := t.rb, stage := 19 }
  context : s.ctxst = .done ∨ (∃ i : Fin 19, s.stage.toNat ≤ i.val ∧ kindAt s.conf.stages i = .aes) → t.ctxst = .done
  buffer : ∀ l : Lane, t.rb[l] =
    ((List.finRange 19).drop s.stage.toNat).foldl (chainStage s.conf (memRead s .hb l 0 80)) s.rb[l]

/-- With no stage left nothing is to be done. -/
theorem stagesHashed_self (hst : s.stage.toNat = 19) : StagesHashed s s where
  frame := by
    have h19 : s.stage = 19 := BitVec.eq_of_toNat_eq hst
    rw [← h19]
  context hd := by
    rcases hd with hd | ⟨i, hi, _⟩
    · exact hd
    · have := i.isLt
      omega
  buffer l := by rw [hst]; rfl

/-- One stage, then those after it. -/
theorem StageHashed.stagesHashed {hst : s.stage.toNat < 19} {u : State} (h : StageHashed ⟨s.stage.toNat, hst⟩ s u)
    (hu : StagesHashed u t) : StagesHashed s t := by
  have hstage : u.stage = s.stage + 1 := (field_of_outsideContext State.stage h.frame :)
  have hnext : u.stage.toNat = s.stage.toNat + 1 := by rw [hstage]; bv_omega
  have hconf : u.conf = s.conf := (field_of_outsideContext State.conf h.frame :)
  have hhb : u.hb = s.hb := (field_of_outsideContext State.hb h.frame :)
  refine ⟨?_, fun hd => hu.context ?_, fun l => ?_⟩
  · exact hu.frame.trans (congrArg (fun x : State => { x with rb := t.rb, stage := 19 }) h.frame)
  · by_cases hk : kindAt s.conf.stages ⟨s.stage.toNat, hst⟩ = .aes
    · exact .inl (h.aes hk)
    · rcases hd with hd | ⟨i, hi, hki⟩
      · rw [h.external hk]
        exact .inl hd
      · have hne : i.val ≠ s.stage.toNat := by
          rintro he
          obtain rfl : i = ⟨s.stage.toNat, hst⟩ := Fin.ext he
          exact hk hki
        exact .inr ⟨i, by omega, by rw [hconf]; exact hki⟩
  · have hdrop : (List.finRange 19).drop s.stage.toNat
        = ⟨s.stage.toNat, hst⟩ :: (List.finRange 19).drop (s.stage.toNat + 1) := by
      rw [List.drop_eq_getElem_cons (by simpa using hst), List.getElem_finRange]
      rfl
    have hheader : memRead u .hb l 0 80 = memRead s .hb l 0 80 := by
      simp only [memRead, State.space, hhb]
    rw [hu.buffer l, hdrop, List.foldl_cons, h.buffer l, hnext, hconf, hheader]

/-- The stages left on a verified table run to the last, or a primitive misbehaves in one of them (R206). -/
theorem stages_verified (n : Nat) (hr : s.chst = .run) (hn : s.stage.toNat + n = 19)
    (hw : wfTable s.conf.stages = true) :
    (∃ t, repeated chStep n s = .ok (ran t) ∧ StagesHashed s t)
    ∨ (primsOk s.conf = false
        ∧ ∃ g u, repeated chStep n s = .ok (raise (.chainFatal g) u) ∧ outsideChain u = outsideChain s) := by
  induction n generalizing s with
  | zero => exact .inl ⟨s, rfl, stagesHashed_self hn⟩
  | succ n ih =>
    have hc : InChain s := ⟨hr, by omega⟩
    rw [repeated_succ]
    rcases chStep_verified hc hw with ⟨u, heq, hu⟩ | ⟨hp, heq⟩ <;> rw [heq]
    · have hstage : u.stage = s.stage + 1 := (field_of_outsideContext State.stage hu.frame :)
      have hconf : u.conf = s.conf := (field_of_outsideContext State.conf hu.frame :)
      have hchain : outsideChain u = outsideChain s := (outsideChain_of_outsideContext hu.frame :)
      have hnext := ih (s := u) ((field_of_outsideContext State.chst hu.frame).trans hr) (by rw [hstage]; bv_omega)
        (by rw [hconf]; exact hw)
      rw [andThen_ran]
      rcases hnext with ⟨t, ht, hst⟩ | ⟨hp, g, v, hv, hvo⟩
      · exact .inl ⟨t, ht, hu.stagesHashed hst⟩
      · exact .inr ⟨by rw [← hconf]; exact hp, g, v, hv, hvo.trans hchain⟩
    · exact .inr ⟨hp, s.stage, s, rfl, rfl⟩

/-! ## `CHAIN` -/

/-- A verified table has an AES stage (R196 W2). -/
theorem wfTable_has_aes {c : StageTable} (h : wfTable c = true) : ∃ i : Fin 19, kindAt c i = .aes := by
  obtain ⟨_, hW2, _⟩ := (wfTable_iff c).1 h
  simp only [wfW2, Bool.and_eq_true, beq_iff_eq] at hW2
  obtain ⟨⟨⟨hone, _⟩, _⟩, _⟩ := hW2
  have hpos : 0 < kindCount c .aes := by omega
  obtain ⟨i, _, hi⟩ := List.countP_pos_iff.1 hpos
  exact ⟨i, beq_iff_eq.1 hi⟩

/-- `s` with the registers of the chain as a finished evaluation that left `t` has them (R205). -/
def withChain (s t : State) : State := { s with hb := t.hb, rb := t.rb, cd := t.cd, stage := 19, chst := .done }

/-- What `CHAIN` leaves where it runs to its end (R206, R207). -/
structure ChainHashed (s t : State) : Prop where
  frame : outsideContext t = outsideContext (withChain s t)
  context : t.ctxst = .done
  header : MemOk s → ∀ l : Lane, memRead t .hb l 0 80 = headerWith s.hdr s.ln[l]
  digest : MemOk s → ∀ l : Lane, memRead t .cd l 0 32 = chainHash s.conf (headerWith s.hdr s.ln[l])

/-- The header `CH.BEGIN` leaves in HB (R198). -/
theorem memRead_hb_chBeginState (hm : MemOk s) (l : Lane) :
    memRead (chBeginState s) .hb l 0 80 = headerWith s.hdr s.ln[l] :=
  memRead_memWrite_same (s := s) (sp := .hb) (hm .hb l).1 (headerBytes_length s l)

/-- `CH.BEGIN` clears RB (R198). -/
theorem rb_chBeginState (hm : MemOk s) (l : Lane) : (chBeginState s).rb[l] = [] := by
  obtain ⟨hwf, hbelow⟩ := hm .rb l
  exact (memWrite_space (memWrite s .hb 0 (headerBytes s)) .rb 0 _ l).trans (Memory.store_zeros hwf hbelow)

theorem outsideChain_chBeginState (s : State) : outsideChain (chBeginState s) = outsideChain s :=
  (outsideChain_memWrite (memWrite s .hb 0 (headerBytes s)) .rb 0 fun _ => List.replicate 128 0).trans
    (outsideChain_memWrite ..)

/-- The state `CH.END` leaves after the last stage (R205). -/
def chEndState (s : State) : State :=
  { memWrite s .cd 0 (fun l => memRead s .rb l (lastOutOff s.conf) 32) with chst := .done }

/-- The beginning, all stages and the end make up the chain function (R206, R207). -/
theorem StagesHashed.chainHashed (hw : wfTable s.conf.stages = true) (h : StagesHashed (chBeginState s) t) :
    ChainHashed s (chEndState t) where
  frame := congrArg (fun x : State =>
    { x with hb := t.hb, rb := t.rb, cd := (chEndState t).cd, chst := .done }) h.frame
  context := by
    obtain ⟨i, hi⟩ := wfTable_has_aes hw
    exact h.context (.inr ⟨i, Nat.zero_le _, hi⟩)
  header hm l := by
    have hhb : t.hb = (chBeginState s).hb := (field_of_outsideContext State.hb h.frame :)
    rw [← memRead_hb_chBeginState hm l, memRead, memRead, State.space, State.space, ← hhb]
    rfl
  digest hm l := by
    have hcd : t.cd = s.cd := (field_of_outsideContext State.cd h.frame :)
    have hconf : t.conf = s.conf := (field_of_outsideContext State.conf h.frame :)
    have hrb := h.buffer l
    rw [memRead_hb_chBeginState hm, rb_chBeginState hm] at hrb
    have hwf : Memory.wf (t.space .cd)[l] = true := by
      rw [State.space, hcd]
      exact (hm .cd l).1
    have hread : memRead (chEndState t) .cd l 0 32 = memRead t .rb l (lastOutOff t.conf) 32 :=
      memRead_memWrite_same (s := t) (sp := .cd) hwf (memRead_length ..)
    rw [hread, hconf, memRead, State.space, hrb]
    rfl

/-- On a verified table `CHAIN` leaves the chain hash of every lane's header, or a primitive misbehaves (R204, R206). -/
theorem chain_verified (hw : wfTable s.conf.stages = true) :
    (∃ t, chain s = .ok (ran t) ∧ ChainHashed s t)
    ∨ (primsOk s.conf = false
        ∧ ∃ g u, chain s = .ok (raise (.chainFatal g) u) ∧ outsideChain u = outsideChain s) := by
  have hbegin : chBegin s = .ok (ran (chBeginState s)) := by rw [chBegin, if_pos hw]
  rw [chain, hbegin, andThen_ran]
  rcases stages_verified (s := chBeginState s) 19 rfl rfl hw with ⟨t, ht, hst⟩ | ⟨hp, g, u, hu, huo⟩
  · have hrun : t.chst = .run := (field_of_outsideContext State.chst hst.frame :)
    have h19 : t.stage = 19 := (field_of_outsideContext State.stage hst.frame :)
    have hconf : t.conf = s.conf := (field_of_outsideContext State.conf hst.frame :)
    have hend : chEnd t = .ok (ran (chEndState t)) := by
      rw [chEnd, if_pos ⟨hrun, h19⟩, if_pos (wfTable_lastOutOff (by rw [hconf]; exact hw))]
      rfl
    exact .inl ⟨chEndState t, by rw [ht, andThen_ran, hend], hst.chainHashed hw⟩
  · refine .inr ⟨hp, g, u, by rw [hu, andThen_raise], huo.trans (outsideChain_chBeginState s)⟩

/-- On an ill-formed table `CHAIN` ends with its `CH.BEGIN` (R197). -/
theorem chain_ill_formed (hw : wfTable s.conf.stages = false) : chain s = .ok (raise (.chainFatal 0) s) := by
  rw [chain, chBegin, hw]
  rfl

/-- Settles O43: on a verified table only a misbehaving primitive keeps `CHAIN` from the chain hash. -/
theorem chainComputesChainHash : Obligations.ChainComputesChainHash := by
  refine ⟨fun s hw hp hm => ?_, fun s hw => ?_⟩
  · rcases chain_verified hw with ⟨t, ht, hash⟩ | ⟨hp', _⟩
    · refine ⟨t, by rw [exec_chain, ht, outcome_ok, ran_st], ?_, fun l => ⟨hash.header hm l, hash.digest hm l⟩⟩
      have hframe := eq_of_outsideContext hash.frame
      rw [hash.context] at hframe
      exact hframe
    · rw [hp] at hp'; cases hp'
  · rw [exec_chain, chain_ill_formed hw, outcome_ok, raise_st, recordFault_chainFatal]

end Sys2Proof.Machine
end

section
/-! One iteration of the scan (spec/44_comparator_scanloop.md R222 to R231, R260): the digests it compares, QUAL, the
events, and what a `CHAIN_FATAL` inside it leaves. -/

namespace Sys2Proof.Machine

variable {s t u : State}

/-! ## The digest of a lane and QUAL -/

/-- Part of a string of bytes loaded from memory is loaded from further on. -/
theorem Memory.load_drop_take (m : Memory) (a : Nat) {n k j : Nat} (h : k + j ≤ n) :
    ((Memory.load m a n).drop k).take j = Memory.load m (a + k) j := by
  apply List.ext_getElem
  · simp
    omega
  · intro i h1 h2
    simp [Memory.load, Nat.add_assoc]

/-- The words compared are those of the lane's digest in CD (R221). -/
theorem digestWords_eq (t : State) (l : Lane) : digestWords t l = wordsOfDigest (memRead t .cd l 0 32) := by
  refine congrArg Vector.ofFn (funext fun i => ?_)
  rw [memRead, memRead, Memory.load_drop_take _ _ (by omega), Nat.zero_add]

/-- QUAL with one bit replaced: what each bit holds then (R222). -/
theorem setQual_getLsbD (q : BitVec 4) (l m : Lane) (b : Bool) :
    (setQual q l b).getLsbD m.val = if m = l then b else q.getLsbD m.val := by
  have hbit : (1#4 <<< l.val).getLsbD m.val = decide (m = l) := by
    rw [BitVec.getLsbD_shiftLeft, BitVec.getLsbD_one, Bool.eq_iff_iff]
    simp only [Bool.and_eq_true, Bool.not_eq_true', decide_eq_true_eq, decide_eq_false_iff_not, Fin.ext_iff]
    omega
  cases b with
  | true =>
    rw [setQual, if_pos rfl, BitVec.getLsbD_or, hbit]
    by_cases hm : m = l <;> simp [hm]
  | false =>
    rw [setQual, if_neg Bool.false_ne_true, BitVec.getLsbD_and, BitVec.getLsbD_not, hbit]
    by_cases hm : m = l <;> simp [hm, Nat.lt_of_lt_of_le m.isLt]

/-- QUAL with all bits written: bit `l` is what was written for lane `l` (R227). -/
theorem packQual_getLsbD (f : Lane → Bool) (l : Lane) : (packQual f).getLsbD l.val = f l := by
  rw [packQual, setQual_getLsbD, setQual_getLsbD, setQual_getLsbD, setQual_getLsbD]
  fin_cases l <;> rfl

/-! ## The iteration -/

/-- The header does not depend on HDR[19], which the nonce stands for (R198). -/
theorem headerWith_set_last (hdr : Vector Word32 20) (n x : Word32) :
    headerWith (hdr.set 19 n) x = headerWith hdr x := by
  unfold headerWith
  rw [Vector.toList_set, List.take_set_of_le (Nat.le_refl 19)]

/-- The writes before the chain evaluation (R227). -/
theorem scPrepare_eq (s : State) : scPrepare s = nonceWritten s := rfl

/-- A running scan runs its chain evaluation on the nonces it wrote (R227). -/
theorem scIter_running (hr : s.scanst = .run) : scIter s =
    andThen (chain (nonceWritten s)) fun t => .ok (ran (scFinish s.nonce (activeCount s) t)) := by
  rw [scIter, if_pos hr, scPrepare_eq]

/-- The state after an iteration that found `t` after its chain evaluation, with the poll written out (R227, R231). -/
def scFinished (n : Word32) (cnt : Nat) (t : State) : State :=
  { t with
    qual := packQual (qualifies cnt t), subq := t.subq ++ scEvents n cnt t
    nonce := BitVec.ofNat 32 (n.toNat + cnt), attempts := BitVec.ofNat 32 (n.toNat + cnt) - t.first
    cancel := polled t, polls := t.polls.tail, scanst := scanStateAfter (n.toNat + cnt) t.max (polled t) }

theorem scFinish_eq (n : Word32) (cnt : Nat) (t : State) : scFinish n cnt t = scFinished n cnt t := by
  rw [scFinish, pollCancel_eq]
  rfl

/-- The lanes that qualify, by their digests (R227). -/
theorem qualifies_of_digests {cnt : Nat} {dig : Lane → List Byte} {ok : Lane → Bool}
    (hdig : ∀ l, memRead t .cd l 0 32 = dig l)
    (hok : ∀ l : Lane, ok l = (decide (l.val < cnt) && accept (wordsOfDigest (dig l)) t.tgt)) :
    qualifies cnt t = ok := by
  funext l
  rw [hok l, qualifies, acceptLane, digestWords_eq, hdig l]

/-- The events of an iteration, by the digests and the lanes that qualify (R229). -/
theorem scEvents_of_digests {n : Word32} {cnt : Nat} {dig : Lane → List Byte} {ok : Lane → Bool}
    (hdig : ∀ l, memRead t .cd l 0 32 = dig l) (hok : qualifies cnt t = ok) :
    scEvents n cnt t = ((List.finRange 4).filter ok).map fun l =>
      { nonce := n + BitVec.ofNat 32 l.val, digest := dig l } := by
  simp only [scEvents, hok, hdig]

/-- Every lane's digest in CD is the chain hash of its nonce's header (R207, R227). -/
theorem ChainHashed.digest_of_nonce (h : ChainHashed (nonceWritten s) u) (hm : MemOk s) (l : Lane) :
    memRead u .cd l 0 32 = chainHash s.conf (headerWith s.hdr
      (if l.val < activeCount s then s.nonce + BitVec.ofNat 32 l.val else s.nonce)) := by
  have hln : (nonceWritten s).ln[l]
      = if l.val < activeCount s then s.nonce + BitVec.ofNat 32 l.val else s.nonce := by
    simp only [nonceWritten, Fin.getElem_fin, Vector.getElem_ofFn]
  rw [h.digest hm l, hln]
  exact congrArg (chainHash s.conf) (headerWith_set_last ..)

/-- A `CHAIN_FATAL` in the chain evaluation ends the iteration with it (R260). -/
theorem exec_scIter_chainFatal {g : BitVec 5} (hr : s.scanst = .run)
    (h : chain (nonceWritten s) = .ok (raise (.chainFatal g) u)) : exec .scIter s = .next (faultedHalt 4 u) := by
  rw [exec_scIter, scIter_running hr, h, andThen_raise, outcome_ok, raise_st, recordFault_chainFatal]

/-- A chain evaluation leaves the scan's registers and FAULT as they were, but for a fault it raises (R241). -/
theorem scanRegisters_of_outsideChain (h : outsideChain t = outsideChain s) :
    t.fault = s.fault ∧ t.hdr = s.hdr ∧ t.ln = s.ln ∧ t.nonce = s.nonce ∧ t.attempts = s.attempts ∧ t.qual = s.qual
      ∧ t.scanst = s.scanst ∧ t.subq = s.subq ∧ t.cancel = s.cancel ∧ t.polls = s.polls :=
  ⟨field_of_outsideChain State.fault h, field_of_outsideChain State.hdr h, field_of_outsideChain State.ln h,
    field_of_outsideChain State.nonce h, field_of_outsideChain State.attempts h, field_of_outsideChain State.qual h,
    field_of_outsideChain State.scanst h, field_of_outsideChain State.subq h, field_of_outsideChain State.cancel h,
    field_of_outsideChain State.polls h⟩

/-- The only fault of `CHAIN` is `CHAIN_FATAL`, and it leaves all but the context and the chain's registers alone
(R204, R206). -/
theorem chain_cases (s : State) :
    (∃ t, chain s = .ok (ran t) ∧ ChainHashed s t)
    ∨ ∃ g u, chain s = .ok (raise (.chainFatal g) u) ∧ outsideChain u = outsideChain s := by
  cases hw : wfTable s.conf.stages with
  | true => exact (chain_verified hw).imp_right And.right
  | false => exact .inr ⟨0, s, chain_ill_formed hw, rfl⟩

/-- A `CHAIN` that halts the CORE has raised `CHAIN_FATAL` (R204). -/
theorem chain_halts (hh : s.halted = false) (h : exec .chain s = .next u) (hu : u.halted = true) :
    ∃ g v, chain s = .ok (raise (.chainFatal g) v) ∧ u = faultedHalt 4 v ∧ outsideChain v = outsideChain s := by
  rw [exec_chain] at h
  rcases chain_cases s with ⟨t, ht, hash⟩ | ⟨g, v, hv, hvo⟩
  · rw [ht] at h
    cases h
    have hsame : t.halted = s.halted := (field_of_outsideContext State.halted hash.frame :)
    exact absurd (hsame.symm.trans hu) (by rw [hh]; decide)
  · rw [hv] at h
    cases h
    exact ⟨g, v, hv, recordFault_chainFatal g v, hvo⟩

/-- An iteration whose chain evaluation runs to its end does so too (R227). -/
theorem scIter_of_chain (hr : s.scanst = .run) (h : chain (nonceWritten s) = .ok (ran u)) :
    scIter s = .ok (ran (scFinished s.nonce (activeCount s) u)) := by
  rw [scIter_running hr, h, andThen_ran, scFinish_eq]

/-- The registers the end of an iteration leaves outside the context: those of the chain evaluation, and the scan's
(R227). -/
theorem ChainHashed.scFinished_frame (h : ChainHashed (nonceWritten s) u) {cnt : Nat} {dig : Lane → List Byte}
    {ok : Lane → Bool} (hdig : ∀ l, memRead u .cd l 0 32 = dig l)
    (hok : ∀ l : Lane, ok l = (decide (l.val < cnt) && accept (wordsOfDigest (dig l)) s.tgt)) :
    qualifies cnt u = ok ∧ outsideContext (scFinished s.nonce cnt u) = outsideContext
      { withChain (nonceWritten s) u with
        qual := (scFinished s.nonce cnt u).qual
        subq := s.subq ++ ((List.finRange 4).filter ok).map fun l =>
          { nonce := s.nonce + BitVec.ofNat 32 l.val, digest := dig l }
        nonce := BitVec.ofNat 32 (s.nonce.toNat + cnt)
        attempts := BitVec.ofNat 32 (s.nonce.toNat + cnt) - s.first
        cancel := polled s, polls := s.polls.tail
        scanst := scanStateAfter (s.nonce.toNat + cnt) s.max (polled s) } := by
  have htgt : u.tgt = s.tgt := (field_of_outsideContext State.tgt h.frame :)
  have hu : qualifies cnt u = ok := qualifies_of_digests hdig (by rw [htgt]; exact hok)
  have hv : qualifies cnt (withChain (nonceWritten s) u) = ok := qualifies_of_digests hdig hok
  refine ⟨hu, ?_⟩
  rw [← scEvents_of_digests (t := withChain (nonceWritten s) u) hdig hv,
    show (scFinished s.nonce cnt u).qual = packQual (qualifies cnt u) from rfl, hu, ← hv]
  exact congrArg (fun x : State => scFinished s.nonce cnt x) h.frame

/-- Settles O50: an iteration is the chain evaluation of the nonces it wrote, then the record of what is accepted, or
the `CHAIN_FATAL` of that evaluation. -/
theorem scIterTriesTheActiveLanes : Obligations.ScIterTriesTheActiveLanes := by
  refine ⟨fun s cnt dig ok hr hw hp hm hcnt hdig hok => ?_, fun s hr => ?_, fun s hr hw => ?_,
    fun s u hr hh h hu => ?_⟩
  · rcases chain_verified (s := nonceWritten s) hw with ⟨u, hu, hash⟩ | ⟨hp', _⟩
    · subst hcnt
      have hcd (l : Lane) : memRead u .cd l 0 32 = dig l := by rw [hdig l, hash.digest_of_nonce hm]
      obtain ⟨hqual, hframe⟩ := hash.scFinished_frame hcd hok
      have hstate := eq_of_outsideContext hframe
      rw [show (scFinished s.nonce (activeCount s) u).ctxst = .done from hash.context] at hstate
      refine ⟨scFinished s.nonce (activeCount s) u, ?_, hstate, hcd, fun l => ?_⟩
      · rw [exec_scIter, scIter_of_chain hr hu, outcome_ok, ran_st]
      · rw [← hqual]
        exact packQual_getLsbD ..
    · exact absurd (hp.symm.trans hp') (by decide)
  · rcases scIter_cases s with ⟨hr', _⟩ | ⟨_, heq⟩
    · exact absurd hr' hr
    · rw [exec_scIter, heq, outcome_ok, raise_st, recordFault_seqError]
  · exact exec_scIter_chainFatal hr (chain_ill_formed (s := nonceWritten s) hw)
  · obtain ⟨g, v, hv, rfl, hvo⟩ := chain_halts (s := nonceWritten s) hh h hu
    obtain ⟨hfault, hhdr, hln, hnonce, hattempts, hqual, hscanst, hsubq, hcancel, hpolls⟩ :=
      scanRegisters_of_outsideChain hvo
    exact ⟨exec_scIter_chainFatal hr hv, congrArg (· ||| 0x10) hfault, hhdr, hln, hnonce, hattempts, hqual,
      hscanst.trans hr, hsubq, hcancel, hpolls⟩

end Sys2Proof.Machine
end

section
/-! The encoding (spec/30_encoding.md R92 to R107): decoding and encoding are inverse to each other, for command words
by opcode and format and for stage descriptors by their fields, and the rows of the opcode table cover exactly the
words that decode. -/

namespace Sys2Proof.Machine

/-! ## Command words by opcode and operand -/

/-- The operand field of a command word (R92). -/
def operand (cw : Word32) : BitVec 24 := cw.extractLsb' 0 24

/-- A command word is its opcode and its operand field (R92). -/
theorem commandWord_operand (cw : Word32) : commandWord (cw.extractLsb' 24 8) (operand cw) = cw :=
  BitVec.extractLsb'_append_extractLsb' (w := 8) (len := 24)

theorem opcode_commandWord (op : Byte) (x : BitVec 24) : (commandWord op x).extractLsb' 24 8 = op :=
  BitVec.extractLsb'_append_eq_left

theorem operand_commandWord (op : Byte) (x : BitVec 24) : operand (commandWord op x) = x :=
  BitVec.extractLsb'_append_eq_right

/-- The fields of a command word below the opcode are fields of its operand. -/
theorem extractLsb'_eq_operand (cw : Word32) {lo n : Nat} (h : lo + n ≤ 24) :
    cw.extractLsb' lo n = (operand cw).extractLsb' lo n := by
  apply BitVec.eq_of_getLsbD_eq
  intro i hi
  simp [operand, hi, show lo + i < 24 by omega]

theorem getLsbD_zero_eq_operand (cw : Word32) : cw.getLsbD 0 = (operand cw).getLsbD 0 := by simp [operand]

/-! ## The five formats (R93 to R97) -/

theorem formatZ_commandWord (op : Byte) (i : Instr) : formatZ (commandWord op 0) i = .ok i :=
  if_pos (operand_commandWord op 0)

theorem formatG_commandWord (op : Byte) (g : GridSel) (i : GridSel → Instr) :
    formatG (commandWord op g.code) i = .ok (i g) := by
  rw [formatG, extractLsb'_eq_operand _ (by decide), getLsbD_zero_eq_operand, operand_commandWord]
  cases g <;> rfl

theorem formatS_commandWord (op : Byte) (src : BlockSrc) (i : BlockSrc → Instr) :
    formatS (commandWord op src.code) i = .ok (i src) := by
  rw [formatS, extractLsb'_eq_operand _ (by decide), getLsbD_zero_eq_operand, operand_commandWord]
  cases src <;> rfl

theorem formatI_commandWord (op : Byte) (imm : BitVec 16) (i : BitVec 16 → Instr) :
    formatI (commandWord op (imm.setWidth 24)) i = .ok (i imm) := by
  have hhigh : (imm.setWidth 24).extractLsb' 16 8 = 0 := by
    apply BitVec.eq_of_toNat_eq
    have := imm.isLt
    simp [Nat.shiftRight_eq_div_pow]
    omega
  have hlow : (imm.setWidth 24).extractLsb' 0 16 = imm := by
    apply BitVec.eq_of_toNat_eq
    simpa using imm.isLt
  rw [formatI, extractLsb'_eq_operand _ (by decide), extractLsb'_eq_operand _ (by decide), operand_commandWord,
    if_pos hhigh, hlow]

theorem formatL_commandWord (op : Byte) (lane : Lane) (i : Lane → Instr) :
    formatL (commandWord op (BitVec.ofNat 24 lane.val)) i = .ok (i lane) := by
  rw [formatL, extractLsb'_eq_operand _ (by decide), extractLsb'_eq_operand _ (by decide), operand_commandWord]
  fin_cases lane <;> rfl

variable {cw : Word32} {op : Nat} {j : Instr}

/-- The command word of an opcode and an operand, found in the word that holds them. -/
theorem command_eq {x : BitVec 24} (hop : cw.extractLsb' 24 8 = BitVec.ofNat 8 op) (hx : operand cw = x) :
    Encoded.command (commandWord (BitVec.ofNat 8 op) x) = .command cw := by
  rw [← hop, ← hx, commandWord_operand]

theorem opcode_eq_ofNat (hop : (cw.extractLsb' 24 8).toNat = op) : cw.extractLsb' 24 8 = BitVec.ofNat 8 op := by
  rw [← hop, BitVec.ofNat_toNat, BitVec.setWidth_eq]

/-! ### The operand of a word whose format is kept -/

/-- An operand field with nothing above bit 0 is that bit. -/
theorem operand_eq_bit (hz : cw.extractLsb' 1 23 = 0) : operand cw = if cw.getLsbD 0 then 1 else 0 := by
  have hnat := congrArg BitVec.toNat hz
  have hbit : cw.getLsbD 0 = decide (cw.toNat % 2 = 1) := by simp [BitVec.getLsbD, Nat.testBit_zero]
  simp only [BitVec.extractLsb'_toNat, Nat.shiftRight_eq_div_pow] at hnat
  apply BitVec.eq_of_toNat_eq
  rw [hbit, operand, BitVec.extractLsb'_toNat, Nat.shiftRight_eq_div_pow]
  by_cases hb : cw.toNat % 2 = 1
  · simp [hb] at hnat ⊢
    omega
  · simp [hb] at hnat ⊢
    omega

theorem operand_eq_gridCode (hz : cw.extractLsb' 1 23 = 0) :
    operand cw = GridSel.code (if cw.getLsbD 0 then .b else .a) := by
  rw [operand_eq_bit hz]
  cases cw.getLsbD 0 <;> rfl

theorem operand_eq_blockCode (hz : cw.extractLsb' 1 23 = 0) :
    operand cw = BlockSrc.code (if cw.getLsbD 0 then .buf else .msg) := by
  rw [operand_eq_bit hz]
  cases cw.getLsbD 0 <;> rfl

theorem operand_eq_immediate (hz : cw.extractLsb' 16 8 = 0) : operand cw = (cw.extractLsb' 0 16).setWidth 24 := by
  have hnat := congrArg BitVec.toNat hz
  simp only [BitVec.extractLsb'_toNat, Nat.shiftRight_eq_div_pow] at hnat
  apply BitVec.eq_of_toNat_eq
  simp [operand] at hnat ⊢
  omega

theorem operand_eq_lane (hz : cw.extractLsb' 2 22 = 0) :
    operand cw = BitVec.ofNat 24 (cw.extractLsb' 0 2).toFin.val := by
  have hnat := congrArg BitVec.toNat hz
  simp only [BitVec.extractLsb'_toNat, Nat.shiftRight_eq_div_pow] at hnat
  apply BitVec.eq_of_toNat_eq
  simp [operand] at hnat ⊢
  omega

/-! ### A word that decodes by a format is the word of the instruction -/

theorem encode_of_formatZ {i : Instr} (hi : encode i = .command (commandWord (BitVec.ofNat 8 op) 0))
    (hop : (cw.extractLsb' 24 8).toNat = op) (h : formatZ cw i = .ok j) : encode j = .command cw := by
  unfold formatZ at h
  split at h
  · rename_i hz
    cases h
    rw [hi, command_eq (opcode_eq_ofNat hop) hz]
  · cases h

theorem encode_of_formatG {i : GridSel → Instr}
    (hi : ∀ g, encode (i g) = .command (commandWord (BitVec.ofNat 8 op) g.code))
    (hop : (cw.extractLsb' 24 8).toNat = op) (h : formatG cw i = .ok j) : encode j = .command cw := by
  unfold formatG at h
  split at h
  · rename_i hz
    cases h
    rw [hi, command_eq (opcode_eq_ofNat hop) (operand_eq_gridCode hz)]
  · cases h

theorem encode_of_formatS {i : BlockSrc → Instr}
    (hi : ∀ src, encode (i src) = .command (commandWord (BitVec.ofNat 8 op) src.code))
    (hop : (cw.extractLsb' 24 8).toNat = op) (h : formatS cw i = .ok j) : encode j = .command cw := by
  unfold formatS at h
  split at h
  · rename_i hz
    cases h
    rw [hi, command_eq (opcode_eq_ofNat hop) (operand_eq_blockCode hz)]
  · cases h

theorem encode_of_formatI {i : BitVec 16 → Instr}
    (hi : ∀ imm, encode (i imm) = .command (commandWord (BitVec.ofNat 8 op) (imm.setWidth 24)))
    (hop : (cw.extractLsb' 24 8).toNat = op) (h : formatI cw i = .ok j) : encode j = .command cw := by
  unfold formatI at h
  split at h
  · rename_i hz
    cases h
    rw [hi, command_eq (opcode_eq_ofNat hop) (operand_eq_immediate hz)]
  · cases h

theorem encode_of_formatL {i : Lane → Instr}
    (hi : ∀ lane, encode (i lane) = .command (commandWord (BitVec.ofNat 8 op) (BitVec.ofNat 24 lane.val)))
    (hop : (cw.extractLsb' 24 8).toNat = op) (h : formatL cw i = .ok j) : encode j = .command cw := by
  unfold formatL at h
  split at h
  · rename_i hz
    cases h
    rw [hi, command_eq (opcode_eq_ofNat hop) (operand_eq_lane hz)]
  · cases h

/-- A legal command word is the word of the instruction it decodes to (R107). -/
theorem encode_of_decodeCommand (h : decodeCommand cw = .ok j) : encode j = .command cw := by
  unfold decodeCommand at h
  split at h
  next hop => exact encode_of_formatZ rfl hop h
  next hop => exact encode_of_formatI (fun _ => rfl) hop h
  next hop => exact encode_of_formatZ rfl hop h
  next hop => exact encode_of_formatS (fun _ => rfl) hop h
  next hop => exact encode_of_formatZ rfl hop h
  next hop => exact encode_of_formatG (fun _ => rfl) hop h
  next hop => exact encode_of_formatG (fun _ => rfl) hop h
  next hop => exact encode_of_formatZ rfl hop h
  next hop => exact encode_of_formatS (fun _ => rfl) hop h
  next hop => exact encode_of_formatI (fun _ => rfl) hop h
  next hop => exact encode_of_formatZ rfl hop h
  next hop => exact encode_of_formatZ rfl hop h
  next hop => exact encode_of_formatI (fun _ => rfl) hop h
  next hop => exact encode_of_formatZ rfl hop h
  next hop => exact encode_of_formatZ rfl hop h
  next hop => exact encode_of_formatZ rfl hop h
  next hop => exact encode_of_formatZ rfl hop h
  next hop => exact encode_of_formatL (fun _ => rfl) hop h
  next hop => exact encode_of_formatZ rfl hop h
  next hop => exact encode_of_formatZ rfl hop h
  next hop => exact encode_of_formatZ rfl hop h
  next => cases h

/-! ## Stage descriptors (R103, R104) -/

theorem encode_stageInstr (k : StageKind) (d : StageFields) :
    encode (stageInstr k d) = .descriptor (descriptorWord k d) := by
  cases k <;> rfl

theorem descriptorReserved_descriptorWord (k : StageKind) (d : StageFields) :
    descriptorReserved (descriptorWord k d) = 0 := by
  unfold descriptorReserved descriptorWord
  simp only [BitVec.extractLsb'_append_eq_ite]
  simp

theorem descriptorKind_descriptorWord (k : StageKind) (d : StageFields) :
    descriptorKind (descriptorWord k d) = k := by
  have hbits : (descriptorWord k d).extractLsb' 5 2 = k.code := by
    unfold descriptorWord
    simp only [BitVec.extractLsb'_append_eq_ite]
    simp
  rw [descriptorKind, hbits]
  cases k <;> rfl

theorem descriptorFields_descriptorWord (k : StageKind) (d : StageFields) :
    descriptorFields (descriptorWord k d) = d := by
  have hsrc : (descriptorWord k d).getLsbD 7 = d.src.code.getLsbD 0 := by
    unfold descriptorWord
    simp only [BitVec.getLsbD_append]
    simp
  unfold descriptorFields
  rw [hsrc]
  unfold descriptorWord
  simp only [BitVec.extractLsb'_append_eq_ite]
  obtain ⟨prim, src, inOff, inLen, outOff, outLen, clrOff, clrLen⟩ := d
  cases src <;> simp [StageSrc.code]

/-- A descriptor's kind as the two bits that give it. -/
theorem code_descriptorKind (w : Word64) : (descriptorKind w).code = w.extractLsb' 5 2 := by
  unfold descriptorKind
  generalize w.extractLsb' 5 2 = k
  revert k
  decide

/-- A descriptor's source as the bit that gives it. -/
theorem code_src_descriptorFields (w : Word64) : (descriptorFields w).src.code = w.extractLsb' 7 1 := by
  have hbit : w.extractLsb' 7 1 = BitVec.ofBool (w.getLsbD 7) := by
    apply BitVec.eq_of_getLsbD_eq
    intro i hi
    obtain rfl : i = 0 := by omega
    simp
  rw [hbit]
  show (if w.getLsbD 7 then StageSrc.hb else .rb).code = _
  cases w.getLsbD 7 <;> rfl

/-- A descriptor with the reserved byte zero is the word of its kind and fields. -/
theorem descriptorWord_of_reserved {w : Word64} (h : descriptorReserved w = 0) :
    descriptorWord (descriptorKind w) (descriptorFields w) = w := by
  rw [descriptorWord, code_descriptorKind, code_src_descriptorFields, ← h]
  show w.extractLsb' 56 8 ++ w.extractLsb' 48 8 ++ w.extractLsb' 40 8 ++ w.extractLsb' 32 8 ++ w.extractLsb' 24 8
    ++ w.extractLsb' 16 8 ++ w.extractLsb' 8 8 ++ w.extractLsb' 7 1 ++ w.extractLsb' 5 2 ++ w.extractLsb' 0 5 = w
  simp only [BitVec.extractLsb'_append_extractLsb'_eq_extractLsb']
  exact BitVec.extractLsb'_eq_self

theorem encode_of_decodeDescriptor {w : Word64} (h : decodeDescriptor w = .ok j) : encode j = .descriptor w := by
  unfold decodeDescriptor at h
  split at h
  · rename_i hz
    cases h
    rw [encode_stageInstr, descriptorWord_of_reserved hz]
  · cases h

theorem decodeDescriptor_descriptorWord (k : StageKind) (d : StageFields) :
    decodeDescriptor (descriptorWord k d) = .ok (stageInstr k d) := by
  rw [decodeDescriptor, if_pos (descriptorReserved_descriptorWord k d), descriptorKind_descriptorWord,
    descriptorFields_descriptorWord]

/-! ## Decoding and encoding -/

/-- The word of an instruction decodes to it (R107). -/
theorem decode_encode (i : Instr) : decode (encode i) = .ok i := by
  cases i with
  | nop | ctrAdv | save | ffwd | ctrFix | xtract | chain | chBegin | chStep | chEnd | scan | scBegin | scIter =>
    rw [encode, decode, decodeCommand, opcode_commandWord]
    exact formatZ_commandWord _ _
  | ctxInit | pad | finalize =>
    rw [encode, decode, decodeCommand, opcode_commandWord]
    exact formatI_commandWord _ _ _
  | ldm | compress =>
    rw [encode, decode, decodeCommand, opcode_commandWord]
    exact formatS_commandWord _ _ _
  | subw | mixb =>
    rw [encode, decode, decodeCommand, opcode_commandWord]
    exact formatG_commandWord _ _ _
  | cmp lane =>
    rw [encode, decode, decodeCommand, opcode_commandWord]
    exact formatL_commandWord _ _ _
  | stgOrd d => exact decodeDescriptor_descriptorWord .ord d
  | stgAes d => exact decodeDescriptor_descriptorWord .aes d
  | stgLat d => exact decodeDescriptor_descriptorWord .lat d
  | stgMh d => exact decodeDescriptor_descriptorWord .mh d

/-- Settles O2, format by format and field by field. -/
theorem decodeOfEncode : Obligations.DecodeOfEncode := decode_encode

theorem encode_of_decode {e : Encoded} (h : decode e = .ok j) : encode j = e := by
  cases e with
  | command cw => exact encode_of_decodeCommand h
  | descriptor w => exact encode_of_decodeDescriptor h

/-- Settles O3: the fields a word decodes by make it up, as the bits its format leaves out are zero. -/
theorem encodeOfDecode : Obligations.EncodeOfDecode := fun _ _ => encode_of_decode

/-! ## The rows of the opcode table (R99, R104) -/

/-- The word of an instruction lies in its row. -/
theorem row_covers_encode (i : Instr) : i.row.covers (encode i) = true := by
  cases i with
  | nop => exact Laws.RowMatch.nop
  | ctxInit imm => exact Laws.RowMatch.ctxInit imm
  | ctrAdv => exact Laws.RowMatch.ctrAdv
  | ldm src => exact Laws.RowMatch.ldm src
  | save => exact Laws.RowMatch.save
  | subw g => exact Laws.RowMatch.subw g
  | mixb g => exact Laws.RowMatch.mixb g
  | ffwd => exact Laws.RowMatch.ffwd
  | compress src => exact Laws.RowMatch.compress src
  | pad imm => exact Laws.RowMatch.pad imm
  | ctrFix => exact Laws.RowMatch.ctrFix
  | xtract => exact Laws.RowMatch.xtract
  | finalize imm => exact Laws.RowMatch.finalize imm
  | chain => exact Laws.RowMatch.chain
  | chBegin => exact Laws.RowMatch.chBegin
  | chStep => exact Laws.RowMatch.chStep
  | chEnd => exact Laws.RowMatch.chEnd
  | cmp lane => exact Laws.RowMatch.cmp lane
  | scan => exact Laws.RowMatch.scan
  | scBegin => exact Laws.RowMatch.scBegin
  | scIter => exact Laws.RowMatch.scIter
  | stgOrd d => exact Laws.RowMatch.stgOrd d
  | stgAes d => exact Laws.RowMatch.stgAes d
  | stgLat d => exact Laws.RowMatch.stgLat d
  | stgMh d => exact Laws.RowMatch.stgMh d

/-- A field of a word that a mask keeps whole is that field of the match. -/
theorem field_of_masked {n mask value : Nat} {w : BitVec n} (h : w.toNat &&& mask = value) (lo len : Nat)
    (hm : (BitVec.ofNat n mask).extractLsb' lo len = BitVec.allOnes len) :
    w.extractLsb' lo len = (BitVec.ofNat n value).extractLsb' lo len := by
  have hw : w &&& BitVec.ofNat n mask = BitVec.ofNat n value := by
    rw [← h, BitVec.ofNat_and, BitVec.ofNat_toNat, BitVec.setWidth_eq]
  rw [← hw, BitVec.extractLsb'_and, hm, BitVec.and_allOnes]

/-- `e` decodes to an instruction of row `r`. -/
def DecodesTo (r : Row) (e : Encoded) : Prop := ∃ i : Instr, decode e = .ok i ∧ i.row = r

theorem decodesTo_of_encode {e : Encoded} {r : Row} {i : Instr} (he : encode i = e) (hr : i.row = r) : DecodesTo r e :=
  ⟨i, he ▸ decode_encode i, hr⟩

/-- The row of the commands of an opcode whose operand is free in the bits `mask` leaves out (R99). -/
abbrev commandRow (op : Nat) (mask : BitVec 24) : Row :=
  ⟨32, (commandWord (BitVec.ofNat 8 op) 0).toNat, (commandWord 0xFF mask).toNat⟩

/-- A word in the row of an opcode is a command word of that opcode, with zeros in a field that the mask keeps whole. -/
theorem command_of_covers {e : Encoded} {mask : BitVec 24} (h : (commandRow op mask).covers e = true) (lo n : Nat)
    (hm : mask.extractLsb' lo n = BitVec.allOnes n) (hn : lo + n ≤ 24) :
    ∃ cw : Word32, e = .command cw ∧ cw.extractLsb' 24 8 = BitVec.ofNat 8 op
      ∧ cw.extractLsb' lo n = 0 := by
  cases e with
  | command cw =>
    simp only [Row.covers, Encoded.bits, Bool.and_eq_true, beq_iff_eq, true_and] at h
    refine ⟨cw, rfl, ?_, ?_⟩
    · rw [field_of_masked h 24 8 (by rw [BitVec.ofNat_toNat, BitVec.setWidth_eq, opcode_commandWord]; rfl),
        BitVec.ofNat_toNat, BitVec.setWidth_eq, opcode_commandWord]
    · rw [field_of_masked h lo n (by
          rw [BitVec.ofNat_toNat, BitVec.setWidth_eq, extractLsb'_eq_operand _ hn, operand_commandWord, hm]),
        BitVec.ofNat_toNat, BitVec.setWidth_eq, extractLsb'_eq_operand _ hn, operand_commandWord]
      simp
  | descriptor w => simp [Row.covers, Encoded.bits] at h

theorem decodesTo_of_coversZ {i : Instr} {e : Encoded}
    (hi : encode i = .command (commandWord (BitVec.ofNat 8 op) 0)) (hr : i.row = commandRow op 0xFFFFFF)
    (h : (commandRow op 0xFFFFFF).covers e = true) : DecodesTo (commandRow op 0xFFFFFF) e := by
  obtain ⟨cw, rfl, hop, hz⟩ := command_of_covers h 0 24 rfl (by decide)
  exact decodesTo_of_encode (hi.trans (command_eq hop hz)) hr

theorem decodesTo_of_coversG {i : GridSel → Instr} {e : Encoded}
    (hi : ∀ g, encode (i g) = .command (commandWord (BitVec.ofNat 8 op) g.code))
    (hr : ∀ g, (i g).row = commandRow op 0xFFFFFE) (h : (commandRow op 0xFFFFFE).covers e = true) :
    DecodesTo (commandRow op 0xFFFFFE) e := by
  obtain ⟨cw, rfl, hop, hz⟩ := command_of_covers h 1 23 rfl (by decide)
  exact decodesTo_of_encode ((hi _).trans (command_eq hop (operand_eq_gridCode hz))) (hr _)

theorem decodesTo_of_coversS {i : BlockSrc → Instr} {e : Encoded}
    (hi : ∀ src, encode (i src) = .command (commandWord (BitVec.ofNat 8 op) src.code))
    (hr : ∀ src, (i src).row = commandRow op 0xFFFFFE) (h : (commandRow op 0xFFFFFE).covers e = true) :
    DecodesTo (commandRow op 0xFFFFFE) e := by
  obtain ⟨cw, rfl, hop, hz⟩ := command_of_covers h 1 23 rfl (by decide)
  exact decodesTo_of_encode ((hi _).trans (command_eq hop (operand_eq_blockCode hz))) (hr _)

theorem decodesTo_of_coversI {i : BitVec 16 → Instr} {e : Encoded}
    (hi : ∀ imm, encode (i imm) = .command (commandWord (BitVec.ofNat 8 op) (imm.setWidth 24)))
    (hr : ∀ imm, (i imm).row = commandRow op 0xFF0000) (h : (commandRow op 0xFF0000).covers e = true) :
    DecodesTo (commandRow op 0xFF0000) e := by
  obtain ⟨cw, rfl, hop, hz⟩ := command_of_covers h 16 8 rfl (by decide)
  exact decodesTo_of_encode ((hi _).trans (command_eq hop (operand_eq_immediate hz))) (hr _)

theorem decodesTo_of_coversL {i : Lane → Instr} {e : Encoded}
    (hi : ∀ lane, encode (i lane) = .command (commandWord (BitVec.ofNat 8 op) (BitVec.ofNat 24 lane.val)))
    (hr : ∀ lane, (i lane).row = commandRow op 0xFFFFFC) (h : (commandRow op 0xFFFFFC).covers e = true) :
    DecodesTo (commandRow op 0xFFFFFC) e := by
  obtain ⟨cw, rfl, hop, hz⟩ := command_of_covers h 2 22 rfl (by decide)
  exact decodesTo_of_encode ((hi _).trans (command_eq hop (operand_eq_lane hz))) (hr _)

/-- The row of the descriptors of a kind (R104). -/
abbrev descriptorRow (k : StageKind) : Row := ⟨64, (k.code.setWidth 64 <<< 5).toNat, 0xFF00000000000060⟩

theorem row_stageInstr (k : StageKind) (d : StageFields) : (stageInstr k d).row = descriptorRow k := by
  cases k <;> rfl

theorem decodesTo_of_coversDescriptor {k : StageKind} {e : Encoded} (h : (descriptorRow k).covers e = true) :
    DecodesTo (descriptorRow k) e := by
  cases e with
  | command cw => simp [Row.covers, Encoded.bits] at h
  | descriptor w =>
    simp only [Row.covers, Encoded.bits, Bool.and_eq_true, beq_iff_eq, true_and] at h
    have hreserved : descriptorReserved w = 0 := by
      rw [descriptorReserved, field_of_masked h 56 8 (by decide)]
      cases k <;> rfl
    have hkind : descriptorKind w = k := by
      rw [descriptorKind, field_of_masked h 5 2 (by decide)]
      cases k <;> rfl
    have henc := descriptorWord_of_reserved hreserved
    rw [hkind] at henc
    exact decodesTo_of_encode ((encode_stageInstr k _).trans (congrArg Encoded.descriptor henc)) (row_stageInstr k _)

/-- Every word a row covers decodes to an instruction of that row. -/
theorem decodesTo_of_covers {e : Encoded} (h : j.row.covers e = true) : DecodesTo j.row e := by
  cases j with
  | nop => exact decodesTo_of_coversZ (op := 0x00) (i := .nop) rfl rfl h
  | ctxInit => exact decodesTo_of_coversI (op := 0x01) (i := .ctxInit) (fun _ => rfl) (fun _ => rfl) h
  | ctrAdv => exact decodesTo_of_coversZ (op := 0x10) (i := .ctrAdv) rfl rfl h
  | ldm => exact decodesTo_of_coversS (op := 0x11) (i := .ldm) (fun _ => rfl) (fun _ => rfl) h
  | save => exact decodesTo_of_coversZ (op := 0x12) (i := .save) rfl rfl h
  | subw => exact decodesTo_of_coversG (op := 0x13) (i := .subw) (fun _ => rfl) (fun _ => rfl) h
  | mixb => exact decodesTo_of_coversG (op := 0x14) (i := .mixb) (fun _ => rfl) (fun _ => rfl) h
  | ffwd => exact decodesTo_of_coversZ (op := 0x15) (i := .ffwd) rfl rfl h
  | compress => exact decodesTo_of_coversS (op := 0x18) (i := .compress) (fun _ => rfl) (fun _ => rfl) h
  | pad => exact decodesTo_of_coversI (op := 0x20) (i := .pad) (fun _ => rfl) (fun _ => rfl) h
  | ctrFix => exact decodesTo_of_coversZ (op := 0x21) (i := .ctrFix) rfl rfl h
  | xtract => exact decodesTo_of_coversZ (op := 0x22) (i := .xtract) rfl rfl h
  | finalize => exact decodesTo_of_coversI (op := 0x28) (i := .finalize) (fun _ => rfl) (fun _ => rfl) h
  | chain => exact decodesTo_of_coversZ (op := 0x30) (i := .chain) rfl rfl h
  | chBegin => exact decodesTo_of_coversZ (op := 0x31) (i := .chBegin) rfl rfl h
  | chStep => exact decodesTo_of_coversZ (op := 0x32) (i := .chStep) rfl rfl h
  | chEnd => exact decodesTo_of_coversZ (op := 0x33) (i := .chEnd) rfl rfl h
  | cmp => exact decodesTo_of_coversL (op := 0x40) (i := .cmp) (fun _ => rfl) (fun _ => rfl) h
  | scan => exact decodesTo_of_coversZ (op := 0x41) (i := .scan) rfl rfl h
  | scBegin => exact decodesTo_of_coversZ (op := 0x42) (i := .scBegin) rfl rfl h
  | scIter => exact decodesTo_of_coversZ (op := 0x43) (i := .scIter) rfl rfl h
  | stgOrd => exact decodesTo_of_coversDescriptor (k := .ord) h
  | stgAes => exact decodesTo_of_coversDescriptor (k := .aes) h
  | stgLat => exact decodesTo_of_coversDescriptor (k := .lat) h
  | stgMh => exact decodesTo_of_coversDescriptor (k := .mh) h

theorem decodesTo_iff_covers {e : Encoded} : j.row.covers e = true ↔ DecodesTo j.row e := by
  refine ⟨decodesTo_of_covers, ?_⟩
  rintro ⟨i, hi, hr⟩
  rw [← hr, ← encode_of_decode hi]
  exact row_covers_encode i

/-- Settles O4: a word that lies in two rows decodes to an instruction of both. -/
theorem rowsCoverExactlyWhatDecodes : Obligations.RowsCoverExactlyWhatDecodes := by
  refine ⟨fun e j => decodesTo_iff_covers, fun e i j hi hj => ?_⟩
  obtain ⟨x, hx, hxi⟩ := decodesTo_of_covers hi
  obtain ⟨y, hy, hyj⟩ := decodesTo_of_covers hj
  obtain rfl : x = y := Except.ok.inj (hx.symm.trans hy)
  exact hxi.symm.trans hyj

/-- Settles O1, by evaluation of the decoder on each word. -/
theorem decodeSampleWords : Obligations.DecodeSampleWords := ⟨rfl, rfl, rfl, rfl, rfl, rfl, rfl, rfl, rfl⟩

end Sys2Proof.Machine
end

section
/-! The issue of words one after another (spec/30_encoding.md R91, R108): a halted CORE drops them all (R254), and a
command is the words of its expansion, COMPRESS and FINALIZE in a `READY` context and CHAIN in any state. -/

namespace Sys2Proof.Machine

variable {h : Hs} {s : State}

/-! ## A halted CORE -/

theorem issue_halted (hh : s.halted = true) (cw : Word32) : issue cw s = .next s := by
  rcases issue_cases cw s with ⟨_, heq⟩ | ⟨hf, _⟩ | ⟨hf, _⟩
  · exact heq
  · rw [hh] at hf; cases hf
  · rw [hh] at hf; cases hf

/-- Settles O7: the step empties CMD and issues the word, and the issue drops it. -/
theorem haltedCoreDropsEveryWord : Obligations.HaltedCoreDropsEveryWord := by
  intro s w hr hh hc
  rw [step_word hr hc]
  exact issue_halted (s := emptyCmd s) hh w

theorem issueAll_halted (hh : s.halted = true) (ws : List Word32) : issueAll ws s = .next s := by
  induction ws with
  | nil => rfl
  | cons w ws ih =>
    rw [issueAll, issue_halted hh]
    exact ih

/-! ## Words one after another -/

/-- Words of a list and then those of another, where the first have run. -/
theorem issueAll_append_of_next {ws : List Word32} {t : State} (hw : issueAll ws s = .next t) (vs : List Word32) :
    issueAll (ws ++ vs) s = issueAll vs t := by
  induction ws generalizing s with
  | nil => cases hw; rfl
  | cons w ws ih =>
    rw [issueAll] at hw
    rw [List.cons_append, issueAll]
    cases hi : issue w s with
    | next u => rw [hi] at hw; exact ih hw
    | fault e => rw [hi] at hw; cases hw
    | refused e => rw [hi] at hw; cases hw

/-- A stop of the model ends the words. -/
theorem issueAll_append_of_fault {ws : List Word32} {e : Fault} (hw : issueAll ws s = .fault e) (vs : List Word32) :
    issueAll (ws ++ vs) s = .fault e := by
  induction ws generalizing s with
  | nil => cases hw
  | cons w ws ih =>
    rw [issueAll] at hw
    rw [List.cons_append, issueAll]
    cases hi : issue w s with
    | next u => rw [hi] at hw; exact ih hw
    | fault e' => rw [hi] at hw; exact hw
    | refused e' => rw [hi] at hw; cases hw

/-- One word of a CORE that is not halted. -/
theorem issueAll_singleton {cw : Word32} {i : Instr} (hh : s.halted = false) (hd : decodeCommand cw = .ok i) :
    issueAll [cw] s = exec i s := by
  rw [issueAll, issue_decoded hh hd]
  cases exec i s <;> rfl

/-- A fault that ends the micro-operation halts the CORE. -/
def HaltsOnFault (r : Res) : Prop := ∀ g u, r = .ok ⟨u, some g⟩ → u.halted = true

/-- Two micro-operations in sequence are the words of both (R108): a fault of the first one ends the sequence, and the
CORE drops the words that are left (R254). -/
theorem issueAll_andThen {ws vs : List Word32} {r : Res} {g : State → Res} (hw : issueAll ws s = outcome r)
    (hh : HaltsOnFault r) (hg : ∀ t, r = .ok (ran t) → issueAll vs t = outcome (g t)) :
    issueAll (ws ++ vs) s = outcome (andThen r g) := by
  rcases r with e | ⟨t, _ | f⟩
  · exact issueAll_append_of_fault hw vs
  · rw [issueAll_append_of_next hw, andThen_none]
    exact hg t rfl
  · rw [issueAll_append_of_next hw, andThen_some, issueAll_halted (hh f t rfl)]
    rfl

theorem haltsOnFault_ran (t : State) : HaltsOnFault (.ok (ran t)) := fun _ _ he => by cases he

/-! ## `COMPRESS` and `FINALIZE` -/

/-- In every `READY` context of width `h` of a CORE that is not halted, the words do what the micro-operation does. -/
def Expands (h : Hs) (ws : List Word32) (f : State → Res) : Prop :=
  ∀ s, Ready h s → s.halted = false → issueAll ws s = outcome (f s)

theorem Expands.andThen {ws vs : List Word32} {f g : State → Res} (hf : Expands h ws f) (hr : RunsIn h f)
    (hg : Expands h vs g) : Expands h (ws ++ vs) fun s => Machine.andThen (f s) g := by
  intro s hs hh
  obtain ⟨t, ht, hrt, hot⟩ := hr s hs
  refine issueAll_andThen (hf s hs hh) (ht ▸ haltsOnFault_ran t) fun u hu => ?_
  obtain rfl : t = u := by rw [ht] at hu; cases hu; rfl
  exact hg t hrt ((field_of_outsideContext State.halted hot).trans hh)

theorem Expands.repeated {ws : List Word32} {f : State → Res} (hf : Expands h ws f) (hr : RunsIn h f) :
    ∀ n, Expands h (List.replicate n ws).flatten (Machine.repeated f n)
  | 0 => fun _ _ _ => rfl
  | n + 1 => hf.andThen hr (hf.repeated hr n)

theorem expands_word {cw : Word32} {i : Instr} {f : State → Res} (hd : decodeCommand cw = .ok i)
    (hi : ∀ s, exec i s = outcome (f s)) : Expands h [cw] f :=
  fun s _ hh => (issueAll_singleton hh hd).trans (hi s)

theorem expands_roundPair : Expands h roundPairWords roundPair :=
  (((expands_word rfl (exec_subw .a)).andThen (runsIn_subw .a) (expands_word rfl (exec_mixb .a))).andThen
    ((runsIn_subw .a).andThen (runsIn_mixb .a)) (expands_word rfl (exec_subw .b))).andThen
      (((runsIn_subw .a).andThen (runsIn_mixb .a)).andThen (runsIn_subw .b)) (expands_word rfl (exec_mixb .b))

theorem expands_roundPairs : Expands h (List.replicate (h.rounds / 2) roundPairWords).flatten roundPairs := by
  intro s hs hh
  rw [roundPairs, hs.2, cfgROUNDS_cfgWord]
  exact expands_roundPair.repeated runsIn_roundPair _ s hs hh

/-- The expansion of `COMPRESS` (R108, R149). -/
theorem expands_compress {src : BlockSrc} {block : Word32} (hb : decodeCommand block = .ok (.ldm src)) :
    Expands h (compressWords h block) (compress src) :=
  have hldm := (expands_word rfl exec_ctrAdv).andThen runsIn_ctrAdv (expands_word hb (exec_ldm src))
  have rldm := runsIn_ctrAdv.andThen (runsIn_ldm src)
  have hsave := hldm.andThen rldm (expands_word rfl exec_save)
  have hrounds := hsave.andThen (rldm.andThen runsIn_save) expands_roundPairs
  hrounds.andThen ((rldm.andThen runsIn_save).andThen runsIn_roundPairs) (expands_word rfl exec_ffwd)

theorem decodeCommand_ldm (src : BlockSrc) : decodeCommand (0x11000000 ||| src.code.setWidth 32) = .ok (.ldm src) := by
  cases src <;> rfl

/-- Settles O25: the expansion runs in a `READY` context. -/
theorem compressEqualsItsExpansion : Obligations.CompressEqualsItsExpansion :=
  fun _ src s hs hh => expands_compress (decodeCommand_ldm src) s hs hh

/-- The word of `PAD`, written out. -/
theorem decodeCommand_pad (n : BitVec 16) : decodeCommand (0x20000000 ||| n.setWidth 32) = .ok (.pad n) := by
  have hword : (0x20000000 ||| n.setWidth 32 : Word32) = commandWord 0x20 (n.setWidth 24) := by
    have hn : (n.setWidth 32 : BitVec (8 + 24)) = (0 : Byte) ++ n.setWidth 24 := by
      apply BitVec.eq_of_getLsbD_eq
      intro i hi
      have hhigh : 16 ≤ i → n.getLsbD i = false := BitVec.getLsbD_of_ge n i
      simp only [BitVec.getLsbD_append, BitVec.getLsbD_setWidth, hi, decide_true, Bool.true_and]
      split
      · rename_i hlt
        simp [hlt]
      · rw [hhigh (by omega)]
        simp
    have hor : (0 : BitVec 24) ||| n.setWidth 24 = n.setWidth 24 := BitVec.zero_or
    refine (congrArg (((0x20 : Byte) ++ (0 : BitVec 24)) ||| ·) hn).trans (BitVec.or_append.trans ?_)
    rw [hor]
    rfl
  rw [hword]
  exact decode_encode (.pad n)

/-- The check of a legal length takes no word. -/
theorem expands_checkLength {n : BitVec 16} (hn : legalLength h n = true) : Expands h [] (checkLength n) := by
  intro s hs _
  rw [checkLength_ready hs, if_pos hn]
  rfl

/-- The compression of a full block is a word of its own (R177). -/
theorem expands_fullBlock (n : BitVec 16) :
    Expands h (if n.toNat = 128 * h.blkw then [0x18000000] else []) (fullBlock n) := by
  intro s hs hh
  rw [fullBlock, hs.2, cfgBLKW_cfgWord]
  split
  · exact issueAll_singleton (i := .compress .msg) hh rfl
  · rfl

/-- The expansion of `FINALIZE` of a legal length (R108, R177). -/
theorem expands_finalize {n : BitVec 16} (hn : legalLength h n = true) :
    Expands h (((((if n.toNat = 128 * h.blkw then [0x18000000] else []) ++ [0x20000000 ||| n.setWidth 32])
      ++ [0x21000000]) ++ [0x18000001]) ++ [0x22000000]) (finalize n) :=
  have hfull := (expands_checkLength hn).andThen (runsIn_checkLength hn) (expands_fullBlock n)
  have rfull := (runsIn_checkLength hn).andThen (runsIn_fullBlock n)
  have hpad := hfull.andThen rfull (expands_word (decodeCommand_pad n) (exec_pad n))
  have rpad := rfull.andThen (runsIn_pad hn)
  have hfix := hpad.andThen rpad (expands_word rfl exec_ctrFix)
  have rfix := rpad.andThen runsIn_ctrFix
  have hlast := hfix.andThen rfix (expands_word rfl (exec_compress .buf))
  hlast.andThen (rfix.andThen (runsIn_compress .buf)) (expands_word rfl exec_xtract)

/-- Settles O34: a legal length passes the check, and everything after it runs in a `READY` context. -/
theorem finalizeEqualsItsExpansion : Obligations.FinalizeEqualsItsExpansion := by
  intro h s n hs hn hh
  rw [exec_finalize, ← expands_finalize hn s hs hh]
  simp only [List.append_assoc, List.cons_append, List.nil_append]

/-! ## `CHAIN` -/

theorem haltsOnFault_chainFatal (g : BitVec 5) (u : State) : HaltsOnFault (.ok (raise (.chainFatal g) u)) := by
  intro f v hv
  cases hv
  exact Bool.or_true _

/-- The stages of an evaluation on a verified table, word by word (R206). -/
theorem issueAll_chSteps (n : Nat) (hr : s.chst = .run) (hn : s.stage.toNat + n = 19)
    (hw : wfTable s.conf.stages = true) (hh : s.halted = false) :
    issueAll (List.replicate n 0x32000000) s = outcome (repeated chStep n s) := by
  induction n generalizing s with
  | zero => rfl
  | succ n ih =>
    have hc : InChain s := ⟨hr, by omega⟩
    rw [repeated_succ, List.replicate_succ, ← List.singleton_append]
    refine issueAll_andThen (issueAll_singleton (i := .chStep) hh rfl) ?_ fun t ht => ?_
    · rcases chStep_verified hc hw with ⟨u, hu, _⟩ | ⟨_, hu⟩ <;> rw [hu]
      · exact haltsOnFault_ran u
      · exact haltsOnFault_chainFatal _ s
    · rcases chStep_verified hc hw with ⟨u, hu, hash⟩ | ⟨_, hu⟩ <;> rw [hu] at ht <;> cases ht
      have hstage : t.stage = s.stage + 1 := (field_of_outsideContext State.stage hash.frame :)
      have hconf : t.conf = s.conf := (field_of_outsideContext State.conf hash.frame :)
      have hrun : t.chst = s.chst := (field_of_outsideContext State.chst hash.frame :)
      have hhalted : t.halted = s.halted := (field_of_outsideContext State.halted hash.frame :)
      exact ih (hrun.trans hr) (by rw [hstage]; bv_omega) (by rw [hconf]; exact hw) (hhalted.trans hh)

theorem haltsOnFault_chSteps (n : Nat) (hr : s.chst = .run) (hn : s.stage.toNat + n = 19)
    (hw : wfTable s.conf.stages = true) : HaltsOnFault (repeated chStep n s) := by
  rcases stages_verified n hr hn hw with ⟨t, ht, _⟩ | ⟨_, g, u, hu, _⟩
  · exact ht ▸ haltsOnFault_ran t
  · exact hu ▸ haltsOnFault_chainFatal g u

/-- Settles O44: every fault inside `CHAIN` is `CHAIN_FATAL`, which halts the CORE. -/
theorem chainEqualsItsExpansion : Obligations.ChainEqualsItsExpansion := by
  intro s hh
  have hbegin : issueAll [0x31000000] s = outcome (chBegin s) := issueAll_singleton (i := .chBegin) hh rfl
  rw [exec_chain, chain, chainWords]
  rcases chBegin_cases s with ⟨hw, heq⟩ | ⟨_, heq⟩
  · rw [heq] at hbegin ⊢
    have hsteps : issueAll (List.replicate 19 0x32000000) (chBeginState s)
        = outcome (repeated chStep 19 (chBeginState s)) := issueAll_chSteps 19 rfl rfl hw hh
    rw [List.append_assoc, issueAll_append_of_next hbegin, andThen_ran]
    refine issueAll_andThen hsteps (haltsOnFault_chSteps 19 rfl rfl hw) fun t ht =>
      issueAll_singleton (i := .chEnd) ?_ rfl
    rcases stages_verified (s := chBeginState s) 19 rfl rfl hw with ⟨u, hu, hash⟩ | ⟨_, g, u, hu, _⟩ <;>
      rw [hu] at ht <;> cases ht
    have hhalted : t.halted = s.halted := (field_of_outsideContext State.halted hash.frame :)
    exact hhalted.trans hh
  · rw [heq] at hbegin ⊢
    rw [List.append_assoc, issueAll_append_of_next hbegin, issueAll_halted (Bool.or_true _)]
    rfl

end Sys2Proof.Machine
end

section
/-! SCAN and its expansion (spec/30_encoding.md R108, spec/44_comparator_scanloop.md R233): one turn of the loop is one
`SC.ITER`, and a scan the host leaves alone ends after as many of them as it makes iterations. -/

namespace Sys2Proof.Machine

variable {s t u : State}

/-! ## The lanes of an iteration -/

/-- The active lanes: lane 0, and with it the lanes of the batch whose nonces lie below MAX (R228). -/
theorem activeCount_eq (s : State) :
    activeCount s = max 1 (min (batchSize s.conf.batch) (s.max.toNat - s.nonce.toNat)) := by
  have hlanes : List.finRange 4 = [0, 1, 2, 3] := rfl
  have hmax := s.max.isLt
  simp only [activeCount, hlanes, List.countP_cons, List.countP_nil, activeLane, Bool.or_eq_true, Bool.and_eq_true,
    decide_eq_true_eq]
  cases s.conf.batch <;> simp [batchSize]
  split_ifs <;> omega

theorem one_le_activeCount (s : State) : 1 ≤ activeCount s := by
  rw [activeCount_eq]
  exact le_max_left ..

/-! ## One iteration, whatever the table and the primitives -/

/-- An iteration that has run tried the active lanes' nonces, and if SCANST is still `RUN` it left some to
try (R227). -/
structure Iterated (s t : State) : Prop where
  frame : outsideIteration t = outsideIteration s
  nonce : t.nonce = BitVec.ofNat 32 (s.nonce.toNat + activeCount s)
  more : t.scanst = .run → s.nonce.toNat + activeCount s < s.max.toNat

/-- An iteration of a running scan runs, or a `CHAIN_FATAL` halts the CORE (R227, R260). -/
theorem scIter_iterated (hr : s.scanst = .run) :
    (∃ t, scIter s = .ok (ran t) ∧ Iterated s t)
    ∨ ∃ g u, scIter s = .ok (raise (.chainFatal g) u) ∧ outsideIteration u = outsideIteration s := by
  rcases chain_cases (nonceWritten s) with ⟨u, hu, hash⟩ | ⟨g, u, hu, huo⟩
  · have hmax : u.max = s.max := (field_of_outsideContext State.max hash.frame :)
    have heq := scIter_of_chain hr hu
    refine .inl ⟨_, heq, (always_scIter s _ heq).frame, rfl, fun hrun => ?_⟩
    have hst : scanStateAfter (s.nonce.toNat + activeCount s) u.max (polled u) = .run := hrun
    by_contra hge
    rw [scanStateAfter, hmax, if_pos (by omega)] at hst
    cases hst
  · have heq : scIter s = .ok (raise (.chainFatal g) u) := by rw [scIter_running hr, hu, andThen_raise]
    refine .inr ⟨g, u, heq, ?_⟩
    have hprep : outsideIteration (nonceWritten s) = outsideIteration s := (effect_scPrepare s).frame
    exact (field_of_outsideChain outsideIteration huo).trans hprep

/-! ## A turn of the loop as a word -/

/-- A scan under way: SCANST is `RUN` and no fault has halted the CORE. -/
abbrev UnderWay (s : State) : Prop := s.scanst = .run ∧ s.halted = false

/-- `u` with `SCAN` in hand while the scan is under way, and with the command `c` once it has ended (R233). -/
def inHand (c : Command) (u : State) : State := { u with cmd := if UnderWay u then .scan else c }

theorem inHand_of_underWay {c : Command} (hu : UnderWay u) : inHand c u = { u with cmd := .scan } := by
  rw [inHand, if_pos hu]

theorem inHand_of_ended {c : Command} (hc : u.cmd = c) (hu : ¬ UnderWay u) : inHand c u = u := by
  rw [inHand, if_neg hu, ← hc]

/-- A turn of the loop is one `SC.ITER`, and the scan stays in hand exactly while it is under way (R233). -/
theorem scanTurn_eq_scIter (hs : UnderWay s) : ∃ u, exec .scIter s = .next u ∧ u.cmd = s.cmd
    ∧ outcome (scanTurn s) = .next (inHand s.cmd u) ∧ (UnderWay u → Iterated s u) := by
  obtain ⟨hr, hh⟩ := hs
  rcases scIter_iterated hr with ⟨t, ht, hiter⟩ | ⟨g, u, hu, huo⟩
  · have hcmd : t.cmd = s.cmd := (field_of_erased State.cmd hiter.frame :)
    have hhalted : t.halted = false := (field_of_erased State.halted hiter.frame :).trans hh
    refine ⟨t, by rw [exec_scIter, ht, outcome_ok, ran_st], hcmd, ?_, fun _ => hiter⟩
    rw [scanTurn_runs hr ht, outcome_ok, ran_st, scanGoesOn]
    split
    · rename_i hrun
      rw [inHand_of_underWay ⟨hrun, hhalted⟩]
    · rename_i hrun
      rw [inHand_of_ended hcmd fun hw => hrun hw.1]
  · have hcmd : (recordFault (.chainFatal g) u).cmd = s.cmd := (field_of_erased State.cmd huo :)
    have hended : ¬ UnderWay (recordFault (.chainFatal g) u) := fun hw =>
      absurd hw.2 (by rw [recordFault_chainFatal]; exact Bool.noConfusion)
    refine ⟨_, by rw [exec_scIter, hu, outcome_ok, raise_st], hcmd, ?_, fun hw => absurd hw hended⟩
    rw [inHand_of_ended hcmd hended, scanTurn, if_pos hr, hu, andThen_raise, outcome_ok, raise_st]

/-- `SC.ITER` of a scan under way, as a word, is the turn of the loop (R108). -/
theorem issueAll_scIter (hs : UnderWay s) : ∃ u, issueAll [0x43000000] s = .next u ∧ u.cmd = s.cmd
    ∧ outcome (scanTurn s) = .next (inHand s.cmd u) ∧ (UnderWay u → Iterated s u) := by
  rw [issueAll_singleton (i := .scIter) hs.2 rfl]
  exact scanTurn_eq_scIter hs

theorem issueAll_scanWords_zero (hh : s.halted = false) : issueAll (scanWords 0) s = .next (scBegun s) :=
  issueAll_singleton (i := .scBegin) hh rfl

theorem scanWords_succ (n : Nat) : scanWords (n + 1) = scanWords n ++ [0x43000000] := by
  rw [scanWords, scanWords, List.replicate_succ', List.cons_append]

/-- `SCAN` is `SC.BEGIN` and the first `SC.ITER` (R108, R233). -/
theorem issueAll_scanWords_one (hh : s.halted = false) : ∃ u, issueAll (scanWords 1) s = .next u ∧ u.cmd = s.cmd
    ∧ exec .scan s = .next (inHand s.cmd u) ∧ (UnderWay u → Iterated (scBegun s) u) := by
  obtain ⟨u, hu, hturn⟩ := issueAll_scIter (s := scBegun s) ⟨rfl, hh⟩
  refine ⟨u, ?_, ?_⟩
  · rw [scanWords_succ, issueAll_append_of_next (issueAll_scanWords_zero hh), hu]
  · rw [exec_scan, scan_eq]
    exact hturn

/-- A step of a scan in hand that the host leaves alone is one `SC.ITER` (R108, R233). -/
theorem step_scan_eq_scIter (hc : s.cmd = .scan) (hi : s.inbox = []) (hs : UnderWay s) :
    ∃ u, issueAll [0x43000000] (emptyCmd s) = .next u ∧ u.cmd = .idle ∧ step s = .next (inHand .idle u)
      ∧ (UnderWay u → Iterated (emptyCmd s) u) := by
  have hstep : step s = outcome (scanTurn (emptyCmd s)) := by
    rw [step_scan hc (by rw [hi]; rintro ⟨⟩), scanStep, hi]
    rfl
  rw [hstep]
  exact issueAll_scIter (s := emptyCmd s) hs

/-! ## A scan the host leaves alone -/

/-- Steps, and steps after them. -/
theorem runSteps_succ_of_next {n : Nat} (h : runSteps n s = .next t) : runSteps (n + 1) s = step t := by
  induction n generalizing s with
  | zero =>
    cases h
    rw [runSteps]
    cases step t <;> rfl
  | succ n ih =>
    rw [runSteps] at h ⊢
    cases hs : step s with
    | next u => rw [hs] at h; exact ih h
    | fault e => rw [hs] at h; cases h
    | refused e => rw [hs] at h; cases h

/-- After `m` iterations of a scan that the word `SCAN` started: the state that `SC.BEGIN` and `m` times `SC.ITER`
leave, with the scan in hand or ended. -/
structure ScanAfter (s : State) (m : Nat) (u : State) : Prop where
  words : issueAll (scanWords m) (emptyCmd s) = .next u
  steps : runSteps m s = .next (inHand .idle u)
  cmd : u.cmd = .idle
  inbox : u.inbox = s.inbox
  max : u.max = s.max
  more : UnderWay u → s.first.toNat + m ≤ u.nonce.toNat ∧ u.nonce.toNat < s.max.toNat

/-- The nonce of a scan under way after an iteration. -/
theorem Iterated.nonce_toNat (h : Iterated s t) (hr : t.scanst = .run) :
    t.nonce.toNat = s.nonce.toNat + activeCount s := by
  have hlt := h.more hr
  have := s.max.isLt
  rw [h.nonce, BitVec.toNat_ofNat, Nat.mod_eq_of_lt (by omega)]

/-- The word `SCAN` makes the first iteration. -/
theorem scanAfter_one (hc : s.cmd = .word 0x41000000) (hi : s.inbox = []) (hh : s.halted = false) :
    ∃ u, ScanAfter s 1 u := by
  obtain ⟨u, hu, hcmd, hscan, hiter⟩ := issueAll_scanWords_one (s := emptyCmd s) hh
  have hstep : step s = exec .scan (emptyCmd s) := by
    rw [step_word (by rw [hi]; rintro ⟨⟩) hc]
    exact issue_decoded (s := emptyCmd s) hh rfl
  obtain ⟨_, heff⟩ := exec_effect hscan
  refine ⟨u, hu, ?_, hcmd, ?_, ?_, fun hw => ?_⟩
  · rw [runSteps_succ_of_next (n := 0) rfl, hstep, hscan]
    rfl
  · exact (heff.field State.inbox :)
  · exact (heff.field State.max :)
  · have hn := (hiter hw).nonce_toNat hw.1
    have hlt := (hiter hw).more hw.1
    have := one_le_activeCount (scBegun (emptyCmd s))
    rw [hn]
    simp only [scBegun_nonce, scBegun_max, emptyCmd_first, emptyCmd_max] at hlt ⊢
    omega

/-- Each further step of a scan under way makes one iteration more. -/
theorem ScanAfter.succ {m : Nat} (h : ScanAfter s m u) (hi : s.inbox = []) (hw : UnderWay u) :
    ∃ v, ScanAfter s (m + 1) v := by
  have hempty : emptyCmd { u with cmd := .scan } = u := by
    show { u with cmd := .idle } = u
    rw [← h.cmd]
  obtain ⟨v, hv, hcmd, hstep, hiter⟩ := step_scan_eq_scIter (s := { u with cmd := .scan }) rfl (h.inbox.trans hi) hw
  rw [hempty] at hv hiter
  have hexec : exec .scIter u = .next v := (issueAll_singleton (i := .scIter) hw.2 rfl).symm.trans hv
  obtain ⟨_, heff⟩ := exec_effect hexec
  refine ⟨v, ?_, ?_, hcmd, (heff.field State.inbox :).trans h.inbox, (heff.field State.max :).trans h.max,
    fun hw' => ?_⟩
  · rw [scanWords_succ, issueAll_append_of_next h.words, hv]
  · rw [runSteps_succ_of_next h.steps, inHand_of_underWay hw, hstep]
  · obtain ⟨hle, _⟩ := h.more hw
    have hn := (hiter hw').nonce_toNat hw'.1
    have hlt := (hiter hw').more hw'.1
    rw [h.max] at hlt
    have := one_le_activeCount u
    omega

/-- The scan is under way after `m` iterations. -/
def GoesOnAfter (s : State) (m : Nat) : Prop := ∃ v, ScanAfter s m v ∧ UnderWay v

theorem one_le_scanBound (s : State) : 1 ≤ scanBound s := Nat.le_max_left ..

/-- A scan under way after `m` iterations has more than `m` nonces to try (R234). -/
theorem GoesOnAfter.lt_scanBound {m : Nat} (h : GoesOnAfter s m) : m < scanBound s := by
  obtain ⟨v, hv, hw⟩ := h
  obtain ⟨hle, hlt⟩ := hv.more hw
  have : s.max.toNat - s.first.toNat ≤ scanBound s := Nat.le_max_right ..
  omega

/-- A scan the host leaves alone ends, after the iterations that leave it under way (R234). -/
theorem scan_ends (hc : s.cmd = .word 0x41000000) (hi : s.inbox = []) (hh : s.halted = false) :
    ∃ n u, n < scanBound s ∧ ScanAfter s (n + 1) u ∧ ¬ UnderWay u ∧ ∀ m, m < n → GoesOnAfter s (m + 1) := by
  classical
  have hends : ∃ n, ¬ GoesOnAfter s (n + 1) := ⟨scanBound s, fun h => absurd h.lt_scanBound (by omega)⟩
  obtain ⟨n, hn, hbefore⟩ : ∃ n, ¬ GoesOnAfter s (n + 1) ∧ ∀ m, m < n → GoesOnAfter s (m + 1) :=
    ⟨Nat.find hends, Nat.find_spec hends, fun m hm => not_not.1 (Nat.find_min hends hm)⟩
  have hlast : n < scanBound s ∧ ∃ u, ScanAfter s (n + 1) u := by
    cases n with
    | zero => exact ⟨one_le_scanBound s, scanAfter_one hc hi hh⟩
    | succ n =>
      obtain ⟨v, hv, hw⟩ := hbefore n (by omega)
      exact ⟨(hbefore n (by omega)).lt_scanBound, hv.succ hi hw⟩
  obtain ⟨hlt, u, hu⟩ := hlast
  exact ⟨n, u, hlt, hu, fun hw => hn ⟨u, hu, hw⟩, hbefore⟩

/-- Settles O54: a turn of the loop is one `SC.ITER`, and the scan ends with the first that leaves it not under way. -/
theorem scanEqualsItsExpansion : Obligations.ScanEqualsItsExpansion := by
  refine ⟨fun s hh => ?_, fun s hc hi hr hh => ?_, fun s hc hi hh => ?_⟩
  · obtain ⟨u, hu, _, hscan, _⟩ := issueAll_scanWords_one hh
    exact ⟨u, hu, hscan⟩
  · obtain ⟨u, hu, _, hstep, _⟩ := step_scan_eq_scIter hc hi ⟨hr, hh⟩
    exact ⟨u, hu, hstep⟩
  · obtain ⟨n, t, hn, ht, hended, hbefore⟩ := scan_ends hc hi hh
    refine ⟨n + 1, t, by omega, hn, ?_, ht.cmd, ?_, ht.words, fun m h1 hm => ?_⟩
    · rw [ht.steps, inHand_of_ended ht.cmd hended]
    · rw [← Bool.not_eq_false, ← not_and_or]
      exact hended
    · obtain ⟨u, hu, hw⟩ := hbefore (m - 1) (by omega)
      rw [Nat.sub_add_cancel h1] at hu
      exact ⟨u, hu.words, hw.1, hw.2, by rw [hu.steps, inHand_of_underWay hw]⟩

end Sys2Proof.Machine
end

section
/-! The byte spaces stay inside their bounds through every chain evaluation (spec/20_memory.md R60), whatever the state
it starts from. -/

namespace Sys2Proof.Machine

variable {s t u : State} {d : Done}

/-- A micro-operation of the context leaves the byte spaces alone. -/
theorem memOk_of_contextEffect (h : Effect outsideContext s d) (hm : MemOk s) : MemOk d.st := by
  intro sp l
  have hspace : d.st.space sp = s.space sp :=
    h.field (State.space · sp) (fun x => by cases sp <;> rfl) fun g x => by cases sp <;> rfl
  rw [hspace]
  exact hm sp l

theorem memOk_chBeginState (hm : MemOk s) : MemOk (chBeginState s) :=
  memOk_memWrite (memOk_memWrite hm (headerBytes_length s) (by decide)) (fun _ => List.length_replicate) (by decide)

theorem memOk_externalStage {f : StageFields} (hm : MemOk s) (h : externalStage f s = .ok d) : MemOk d.st := by
  rcases externalStage_cases f s with ⟨_, heq⟩ | ⟨_, _, heq⟩ | ⟨_, hsp, hfit, heq⟩ | ⟨_, _, _, heq⟩ <;>
    rw [heq] at h <;> cases h
  · exact hm
  · exact memOk_stageWrite hm hsp ((outputsFit_iff f s).1 hfit) (Nat.le_refl _)
  · exact hm

theorem memOk_aesStage {f : StageFields} (hm : MemOk s) (h : aesStage f s = .ok d) : MemOk d.st := by
  rcases aesStage_cases f s with ⟨_, heq⟩ | heq | ⟨_, hsp, heq⟩ <;> rw [heq] at h
  · cases h
  · cases h; exact hm
  · refine andThen_keeps (P := MemOk) (fun e he => ?_) (fun v hv e he => ?_) h
    · exact memOk_of_contextEffect (always_stageContext f s e he) hm
    · cases he
      have hlen (l : Lane) : (digestBytes v f.outLen.toNat l).length = min f.outLen.toNat 64 := by simp [digestBytes]
      exact memOk_stageWrite hv hsp hlen (Nat.min_le_left ..)

theorem memOk_chStep (hm : MemOk s) (h : chStep s = .ok d) : MemOk d.st := by
  rcases chStep_cases s with ⟨_, heq⟩ | ⟨hst, _, heq⟩ <;> rw [heq] at h
  · cases h; exact hm
  · by_cases hk : kindAt s.conf.stages ⟨s.stage.toNat, hst⟩ = .aes
    · rw [hk] at h; exact memOk_aesStage hm h
    · rw [stageOf_external hk] at h; exact memOk_externalStage hm h

theorem memOk_chEnd (hm : MemOk s) (h : chEnd s = .ok d) : MemOk d.st := by
  rcases chEnd_cases s with ⟨_, heq⟩ | ⟨_, _, _, heq⟩ | ⟨_, _, _, heq⟩ <;> rw [heq] at h <;> cases h
  · exact hm
  · exact memOk_memWrite hm (fun l => memRead_length ..) (by decide)

/-- A chain evaluation keeps the byte spaces inside their bounds. -/
theorem memOk_chain (hm : MemOk s) (h : chain s = .ok d) : MemOk d.st := by
  refine andThen_keeps (P := MemOk) (fun e he => ?_) (fun v hv e he => memOk_chEnd hv he) h
  refine andThen_keeps (P := MemOk) (fun e he => ?_) (fun v hv e he => ?_) he
  · rcases chBegin_cases s with ⟨_, heq⟩ | ⟨_, heq⟩ <;> rw [heq] at he <;> cases he
    · exact memOk_chBeginState hm
    · exact hm
  · exact repeated_keeps (P := MemOk) (fun _ _ hv he => memOk_chStep hv he) 19 v e hv he

end Sys2Proof.Machine
end

section
/-! A scan of a range on a verified table with primitives that behave (spec/44_comparator_scanloop.md R233 to R235):
what holds of it after each iteration and each action of the host, and that it ends. -/

namespace Sys2Proof.Machine

variable {s t u v w : State} {n : Nat}

/-! ## The events of an iteration (R235) -/

/-- The events of some nonces, then those of the nonces that follow. -/
theorem scanEvents_add (c : Conf) (hdr : Vector Word32 20) (tgt : Vector Word32 8) (first : Word32) (n cnt : Nat) :
    scanEvents c hdr tgt first (n + cnt)
      = scanEvents c hdr tgt first n ++ scanEvents c hdr tgt (first + BitVec.ofNat 32 n) cnt := by
  simp only [scanEvents, List.range_add, List.filterMap_append, List.filterMap_map]
  refine congrArg _ (List.filterMap_congr fun j _ => ?_)
  rw [Function.comp_apply, BitVec.ofNat_add, BitVec.add_assoc]

/-- The lanes below a count are the numbers below it. -/
theorem range_eq_lanes {cnt : Nat} (h : cnt ≤ 4) :
    List.range cnt = ((List.finRange 4).filter fun l => decide (l.val < cnt)).map Fin.val := by
  interval_cases cnt <;> rfl

/-- The events of the lanes that qualify are those of the nonces they try. -/
theorem scanEvents_of_lanes {c : Conf} {hdr : Vector Word32 20} {tgt : Vector Word32 8} {x : Word32} {cnt : Nat}
    {dig : Lane → List Byte} (h : cnt ≤ 4)
    (hdig : ∀ l : Lane, l.val < cnt → dig l = chainHash c (headerWith hdr (x + BitVec.ofNat 32 l.val))) :
    (((List.finRange 4).filter fun l => decide (l.val < cnt) && accept (wordsOfDigest (dig l)) tgt).map fun l =>
        ({ nonce := x + BitVec.ofNat 32 l.val, digest := dig l } : Submit))
      = scanEvents c hdr tgt x cnt := by
  have hswap : (fun l : Lane => decide (l.val < cnt) && accept (wordsOfDigest (dig l)) tgt)
      = fun l => accept (wordsOfDigest (dig l)) tgt && decide (l.val < cnt) := funext fun l => Bool.and_comm ..
  rw [scanEvents, range_eq_lanes h, List.filterMap_map, hswap, ← List.filter_filter, ← List.filterMap_eq_map,
    List.filterMap_filter]
  refine List.filterMap_congr fun l hl => ?_
  have hlt : l.val < cnt := of_decide_eq_true (List.mem_filter.1 hl).2
  simp only [Function.comp_apply, scanEvent, ← hdig l hlt]

/-! ## What holds after the first nonces are tried -/

/-- The scan that found `s` has tried the first `n` nonces of its range and left `v`: the events of these nonces are
behind those of `s`, some of them taken by the host (R235). -/
structure Tried (s : State) (n : Nat) (v : State) : Prop where
  nonce : v.nonce = s.first + BitVec.ofNat 32 n
  attempts : v.attempts = BitVec.ofNat 32 n
  first : v.first = s.first
  max : v.max = s.max
  tgt : v.tgt = s.tgt
  conf : v.conf = s.conf
  fault : v.fault = s.fault
  halted : v.halted = s.halted
  hdr : v.hdr.set 19 0 = s.hdr.set 19 0
  mem : MemOk v
  events : ∃ removed : List Submit,
    removed ++ v.subq = s.subq ++ scanEvents s.conf s.hdr s.tgt s.first n ∧ (HostAct.take ∉ s.inbox → removed = [])
  inbox : ∀ a ∈ v.inbox, a ∈ s.inbox
  done : 0 < n → v.ctxst = .done ∧ v.chst = .done ∧ v.stage = 19

/-- `SC.BEGIN` leaves all nonces to be tried (R226). -/
theorem tried_scBegun (hm : MemOk s) : Tried s 0 (scBegun s) where
  nonce := (BitVec.add_zero _).symm
  attempts := rfl
  first := rfl
  max := rfl
  tgt := rfl
  conf := rfl
  fault := rfl
  halted := rfl
  hdr := rfl
  mem := hm
  events := ⟨[], (List.append_nil _).symm, fun _ => rfl⟩
  inbox _ := id
  done h := absurd h (Nat.lt_irrefl 0)

/-- The command in hand is none of it. -/
theorem Tried.withCmd (h : Tried s n v) (c : Command) : Tried s n { v with cmd := c } :=
  { h with }

/-- A nonce of the range is left, or none was tried yet: `SCAN` makes its first iteration on an empty range too
(R234). -/
def Left (s : State) (n : Nat) : Prop := n = 0 ∨ s.first.toNat + n < s.max.toNat

theorem Tried.nonce_toNat (h : Tried s n v) (hn : Left s n) : v.nonce.toNat = s.first.toNat + n := by
  have := s.first.isLt
  have := s.max.isLt
  rw [h.nonce]
  rcases hn with rfl | hn
  · simp
  · rw [BitVec.toNat_add, BitVec.toNat_ofNat]
    omega

/-- The nonces an iteration tries after the first `n` (R228). -/
def batchAt (s : State) (n : Nat) : Nat :=
  max 1 (min (batchSize s.conf.batch) (s.max.toNat - (s.first.toNat + n)))

theorem Tried.activeCount_eq (h : Tried s n v) (hn : Left s n) : activeCount v = batchAt s n := by
  rw [Machine.activeCount_eq, h.nonce_toNat hn, h.conf, h.max, batchAt]

theorem batchSize_le (b : ScanBatch) : 1 ≤ batchSize b ∧ batchSize b ≤ 4 := by cases b <;> decide

theorem batchAt_le (s : State) (n : Nat) : 1 ≤ batchAt s n ∧ batchAt s n ≤ 4 := by
  have := batchSize_le s.conf.batch
  unfold batchAt
  omega

theorem Tried.headerWith (h : Tried s n v) (x : Word32) : headerWith v.hdr x = headerWith s.hdr x := by
  rw [← headerWith_set_last v.hdr 0 x, h.hdr, headerWith_set_last]

/-- The registers that an iteration on a verified table with primitives that behave leaves to the scan (R227). -/
structure IterationDone (s : State) (w : State) : Prop where
  nonce : w.nonce = BitVec.ofNat 32 (s.nonce.toNat + activeCount s)
  attempts : w.attempts = BitVec.ofNat 32 (s.nonce.toNat + activeCount s) - s.first
  scanst : w.scanst = scanStateAfter (s.nonce.toNat + activeCount s) s.max (polled s)
  cancel : w.cancel = polled s
  polls : w.polls = s.polls.tail
  subq : w.subq = s.subq ++ scanEvents s.conf s.hdr s.tgt s.nonce (activeCount s)
  hdr : w.hdr = s.hdr.set 19 s.nonce
  mem : MemOk w
  done : w.ctxst = .done ∧ w.chst = .done ∧ w.stage = 19
  first : w.first = s.first
  max : w.max = s.max
  tgt : w.tgt = s.tgt
  conf : w.conf = s.conf
  fault : w.fault = s.fault
  halted : w.halted = s.halted
  inbox : w.inbox = s.inbox
  cmd : w.cmd = s.cmd

theorem activeCount_le (s : State) : activeCount s ≤ 4 := by
  have := batchSize_le s.conf.batch
  rw [activeCount_eq]
  omega

theorem scIter_done (hr : s.scanst = .run) (hw : wfTable s.conf.stages = true) (hp : primsOk s.conf = true)
    (hm : MemOk s) : ∃ w, scIter s = .ok (ran w) ∧ IterationDone s w := by
  obtain ⟨w, hscan, _⟩ := scIter_runs hr hw hp
  obtain ⟨w', hexec, hstate, _⟩ := scIterTriesTheActiveLanes.1 s (activeCount s) _ _ hr hw hp hm rfl
    (fun _ => rfl) (fun _ => rfl)
  obtain rfl : w = w' := by
    rw [exec_scIter, hscan] at hexec
    cases hexec
    rfl
  have hmem : MemOk w := by
    rw [scIter_running hr] at hscan
    refine andThen_keeps (P := MemOk) (d := ran w) (fun e he => memOk_chain (s := nonceWritten s) hm he)
      (fun x hx e he => ?_) hscan
    cases he
    rw [scFinish_eq]
    exact hx
  have hevents := scanEvents_of_lanes (c := s.conf) (hdr := s.hdr) (tgt := s.tgt) (x := s.nonce) (activeCount_le s)
    (dig := fun l => chainHash s.conf (headerWith s.hdr
      (if l.val < activeCount s then s.nonce + BitVec.ofNat 32 l.val else s.nonce)))
    fun l hl => by rw [if_pos hl]
  refine ⟨w, hscan, ?_⟩
  exact
    { nonce := (congrArg State.nonce hstate :)
      attempts := (congrArg State.attempts hstate :)
      scanst := (congrArg State.scanst hstate :)
      cancel := (congrArg State.cancel hstate :)
      polls := (congrArg State.polls hstate :)
      subq := (congrArg State.subq hstate :).trans (congrArg (s.subq ++ ·) hevents)
      hdr := (congrArg State.hdr hstate :)
      mem := hmem
      done := ⟨(congrArg State.ctxst hstate :), (congrArg State.chst hstate :), (congrArg State.stage hstate :)⟩
      first := (congrArg State.first hstate :)
      max := (congrArg State.max hstate :)
      tgt := (congrArg State.tgt hstate :)
      conf := (congrArg State.conf hstate :)
      fault := (congrArg State.fault hstate :)
      halted := (congrArg State.halted hstate :)
      inbox := (congrArg State.inbox hstate :)
      cmd := (congrArg State.cmd hstate :) }

/-- An iteration tries the next nonces of the range (R227, R235). -/
theorem Tried.iterate (h : Tried s n v) (hn : Left s n) (hi : IterationDone v w) : Tried s (n + batchAt s n) w where
  nonce := by
    rw [hi.nonce, h.nonce_toNat hn, h.activeCount_eq hn, Nat.add_assoc, BitVec.ofNat_add, BitVec.ofNat_toNat,
      BitVec.setWidth_eq]
  attempts := by
    rw [hi.attempts, h.nonce_toNat hn, h.activeCount_eq hn, h.first, Nat.add_assoc, BitVec.ofNat_add,
      BitVec.ofNat_toNat, BitVec.setWidth_eq, BitVec.add_comm, BitVec.add_sub_cancel]
  first := hi.first.trans h.first
  max := hi.max.trans h.max
  tgt := hi.tgt.trans h.tgt
  conf := hi.conf.trans h.conf
  fault := hi.fault.trans h.fault
  halted := hi.halted.trans h.halted
  hdr := by rw [hi.hdr, Vector.set_set, h.hdr]
  mem := hi.mem
  events := by
    obtain ⟨removed, heq, htake⟩ := h.events
    have hsame : scanEvents v.conf v.hdr v.tgt v.nonce (activeCount v)
        = scanEvents s.conf s.hdr s.tgt (s.first + BitVec.ofNat 32 n) (batchAt s n) := by
      simp only [scanEvents, scanEvent, h.headerWith, h.conf, h.tgt, h.nonce, h.activeCount_eq hn]
    refine ⟨removed, ?_, htake⟩
    rw [hi.subq, ← List.append_assoc, heq, hsame, scanEvents_add, List.append_assoc]
  inbox a ha := h.inbox a (hi.inbox ▸ ha)
  done _ := hi.done

/-! ## A turn of the loop -/

/-- The scan is under way, between two iterations, with nonces left. -/
structure ScanGoing (s : State) (n : Nat) (v : State) : Prop where
  tried : Tried s n v
  cmd : v.cmd = .scan
  scanst : v.scanst = .run
  pos : 1 ≤ n
  more : s.first.toNat + n < s.max.toNat

/-- The scan has ended: it tried its whole range, or it was cancelled with nonces left (R227, R234). -/
structure ScanEnded (s : State) (n : Nat) (v : State) : Prop where
  tried : Tried s n v
  cmd : v.cmd = .idle
  pos : 1 ≤ n
  result : v.scanst = .exhausted ∧ n = scanBound s
    ∨ v.scanst = .cancelled ∧ s.first.toNat + n < s.max.toNat ∧ v.cancel = true

/-- An iteration that reaches MAX has tried the whole range (R234). -/
theorem scanBound_of_exhausted (hn : Left s n) (hx : s.max.toNat ≤ s.first.toNat + (n + batchAt s n)) :
    n + batchAt s n = scanBound s := by
  have hbound : scanBound s = max 1 (s.max.toNat - s.first.toNat) := rfl
  have := batchSize_le s.conf.batch
  rw [hbound]
  unfold Left at hn
  unfold batchAt at hx ⊢
  omega

/-- A turn of a scan with nonces left tries the next of them, and leaves it under way or ended. -/
theorem turn_of_tried (h : Tried s n v) (hn : Left s n) (hc : v.cmd = .idle) (hr : v.scanst = .run)
    (hw : wfTable s.conf.stages = true) (hp : primsOk s.conf = true) :
    ∃ w, outcome (scanTurn v) = .next w ∧ w.inbox = v.inbox ∧ w.cancel = polled v ∧ w.polls = v.polls.tail
      ∧ (ScanGoing s (n + batchAt s n) w ∨ ScanEnded s (n + batchAt s n) w) := by
  obtain ⟨w, hscan, hi⟩ := scIter_done hr (by rw [h.conf]; exact hw) (by rw [h.conf]; exact hp) h.mem
  have htried := h.iterate hn hi
  have hcmd : w.cmd = .idle := hi.cmd.trans hc
  have hpos : 1 ≤ n + batchAt s n := (batchAt_le s n).1.trans (Nat.le_add_left ..)
  have hst : w.scanst = scanStateAfter (s.first.toNat + (n + batchAt s n)) s.max (polled v) := by
    rw [hi.scanst, h.nonce_toNat hn, h.activeCount_eq hn, h.max, Nat.add_assoc]
  refine ⟨scanGoesOn w, by rw [scanTurn_runs hr hscan, outcome_ok, ran_st],
    (scanGoesOn_inbox w).trans hi.inbox, (scanGoesOn_cancel w).trans hi.cancel,
    (scanGoesOn_polls w).trans hi.polls, ?_⟩
  unfold scanStateAfter at hst
  unfold scanGoesOn
  split at hst
  · rename_i hmax
    rw [if_neg (by rw [hst]; decide)]
    exact .inr ⟨htried, hcmd, hpos, .inl ⟨hst, scanBound_of_exhausted hn hmax⟩⟩
  · rename_i hmax
    split at hst
    · rename_i hpoll
      rw [if_neg (by rw [hst]; decide)]
      exact .inr ⟨htried, hcmd, hpos, .inr ⟨hst, Nat.lt_of_not_le hmax, hi.cancel.trans hpoll⟩⟩
    · rw [if_pos hst]
      exact .inl ⟨htried.withCmd .scan, rfl, hst, hpos, Nat.lt_of_not_le hmax⟩

theorem ScanGoing.left (h : ScanGoing s n v) : Left s n := .inr h.more

/-- The next iteration of a scan under way. -/
theorem nextIteration_of_going (h : ScanGoing s n v) (hw : wfTable s.conf.stages = true)
    (hp : primsOk s.conf = true) :
    ∃ w, nextIteration v = .next w ∧ w.inbox = v.inbox ∧ w.cancel = polled v ∧ w.polls = v.polls.tail
      ∧ (ScanGoing s (n + batchAt s n) w ∨ ScanEnded s (n + batchAt s n) w) :=
  turn_of_tried (v := emptyCmd v) (h.tried.withCmd .idle) h.left rfl h.scanst hw hp

/-! ## The host's actions between iterations (R109) -/

theorem Tried.withInbox {rest : List HostAct} (h : Tried s n v) (hi : ∀ a ∈ rest, a ∈ v.inbox) :
    Tried s n (withInbox v rest) :=
  { h with inbox := fun a ha => h.inbox a (hi a ha) }

/-- The host takes the front event: it joins those taken before. -/
theorem Tried.takeEvent (h : Tried s n v) (ht : HostAct.take ∈ s.inbox) : Tried s n (takeEvent v) :=
  { h with
    events := by
      obtain ⟨removed, heq, _⟩ := h.events
      refine ⟨removed ++ v.subq.take 1, ?_, fun hn => absurd ht hn⟩
      rw [takeEvent_subq, ← List.drop_one, List.append_assoc, List.take_append_drop, heq] }

theorem Tried.hostAct {a : HostAct} (h : Tried s n v) (ha : allowedInScan a = true) (hs : a ∈ s.inbox) :
    Tried s n (hostAct a v) := by
  cases a with
  | write r x =>
    obtain rfl := write_allowedInScan ha
    exact { h with }
  | take => exact h.takeEvent hs
  | read | readFront => exact h
  | wait | reset => cases ha

/-- An action allowed between two iterations leaves the scan in hand, and the host's list. -/
theorem allowedInScan_keeps_scan {a : HostAct} (ha : allowedInScan a = true) (v : State) :
    (hostAct a v).cmd = v.cmd ∧ (hostAct a v).scanst = v.scanst ∧ (hostAct a v).inbox = v.inbox := by
  cases a with
  | write r x =>
    obtain rfl := write_allowedInScan ha
    exact ⟨rfl, rfl, rfl⟩
  | take | read | readFront => exact ⟨rfl, rfl, rfl⟩
  | wait | reset => cases ha

theorem ScanGoing.hostAct {a : HostAct} (h : ScanGoing s n v) (ha : allowedInScan a = true) (hs : a ∈ s.inbox) :
    ScanGoing s n (hostAct a v) := by
  obtain ⟨hcmd, hst, _⟩ := allowedInScan_keeps_scan ha v
  exact ⟨h.tried.hostAct ha hs, hcmd.trans h.cmd, hst.trans h.scanst, h.pos, h.more⟩

theorem ScanGoing.withInbox {rest : List HostAct} (h : ScanGoing s n v) (hi : ∀ a ∈ rest, a ∈ v.inbox) :
    ScanGoing s n (withInbox v rest) :=
  ⟨h.tried.withInbox hi, h.cmd, h.scanst, h.pos, h.more⟩

/-! ## The scan ends -/

/-- What is left to do of a scan: nonces to try and actions of the host to take. -/
def remaining (s : State) (n : Nat) (v : State) : Nat := s.max.toNat - (s.first.toNat + n) + v.inbox.length

/-- A step of a scan under way ends it, or leaves less of it to do. -/
theorem step_of_going (h : ScanGoing s n v) (hw : wfTable s.conf.stages = true) (hp : primsOk s.conf = true)
    (hr : HostAct.reset ∉ s.inbox) :
    ∃ w m, step v = .next w ∧ (ScanGoing s m w ∧ remaining s m w < remaining s n v ∨ ScanEnded s m w) := by
  have hhead : v.inbox.head? ≠ some .reset := fun hh => hr (h.tried.inbox _ (List.mem_of_head? hh))
  have hturn {x : State} (hx : ScanGoing s n x) (hle : x.inbox.length ≤ v.inbox.length) :
      ∃ w m, nextIteration x = .next w ∧ (ScanGoing s m w ∧ remaining s m w < remaining s n v ∨ ScanEnded s m w) := by
    obtain ⟨w, hnext, hinbox, _, _, hgo | hend⟩ := nextIteration_of_going hx hw hp
    · refine ⟨w, _, hnext, .inl ⟨hgo, ?_⟩⟩
      have := (batchAt_le s n).1
      have := h.more
      unfold remaining
      rw [hinbox]
      omega
    · exact ⟨w, _, hnext, .inr hend⟩
  rw [step_scan h.cmd hhead]
  rcases scanStep_cases v with ⟨a, rest, hi, ha, heq⟩ | ⟨rest, hi, heq⟩ | ⟨_, heq⟩ <;> rw [heq]
  · have hrest : ∀ b ∈ rest, b ∈ v.inbox := fun b hb => hi ▸ List.mem_cons_of_mem a hb
    have ha' : a ∈ s.inbox := h.tried.inbox a (hi ▸ List.mem_cons_self)
    obtain ⟨_, _, hinbox⟩ := allowedInScan_keeps_scan ha (withInbox v rest)
    refine ⟨_, n, rfl, .inl ⟨(h.withInbox hrest).hostAct ha ha', ?_⟩⟩
    unfold remaining
    rw [hinbox, withInbox_inbox, hi, List.length_cons]
    omega
  · have hrest : ∀ b ∈ rest, b ∈ v.inbox := fun b hb => hi ▸ List.mem_cons_of_mem .wait hb
    exact hturn (h.withInbox hrest) (by rw [hi]; exact Nat.le_succ _)
  · exact hturn h (Nat.le_refl _)

/-- A scan under way ends, whatever the host does meanwhile but assert RESET (R109, R234). -/
theorem going_ends (hw : wfTable s.conf.stages = true) (hp : primsOk s.conf = true) (hr : HostAct.reset ∉ s.inbox)
    (h : ScanGoing s n v) : ∃ k t m, runSteps k v = .next t ∧ ScanEnded s m t := by
  induction hk : remaining s n v using Nat.strong_induction_on generalizing n v with
  | _ r ih =>
    obtain ⟨w, m, hstep, ⟨hgo, hlt⟩ | hend⟩ := step_of_going h hw hp hr
    · obtain ⟨k, t, m', hrun, hend⟩ := ih _ (hk ▸ hlt) hgo rfl
      exact ⟨k + 1, t, m', by rw [runSteps, hstep]; exact hrun, hend⟩
    · exact ⟨1, w, m, by rw [runSteps, hstep]; rfl, hend⟩

/-- The iteration `SCAN` makes at once. -/
theorem exec_scan_first (hw : wfTable s.conf.stages = true) (hp : primsOk s.conf = true) (hm : MemOk s)
    (hc : s.cmd = .idle) : ∃ u, exec .scan s = .next u
      ∧ (ScanGoing s (0 + batchAt s 0) u ∨ ScanEnded s (0 + batchAt s 0) u) := by
  obtain ⟨u, hu, _, _, _, hends⟩ := turn_of_tried (tried_scBegun hm) (.inl rfl) hc rfl hw hp
  exact ⟨u, by rw [exec_scan, scan_eq, hu], hends⟩

theorem ScanEnded.le_scanBound (h : ScanEnded s n t) : n ≤ scanBound s := by
  have hbound : s.max.toNat - s.first.toNat ≤ scanBound s := Nat.le_max_right ..
  rcases h.result with ⟨_, hn⟩ | ⟨_, hn, _⟩ <;> omega

/-- Settles O51: the first iteration leaves the scan under way or ended, and a scan under way ends. -/
theorem scanTriesEachNonceOnce : Obligations.ScanTriesEachNonceOnce := by
  intro s hw hp hm hc hh hr
  obtain ⟨u, hu, hfirst⟩ := exec_scan_first hw hp hm hc
  obtain ⟨k, t, n, hrun, hend⟩ : ∃ k t n, runSteps k u = .next t ∧ ScanEnded s n t := by
    rcases hfirst with hgo | hend
    · exact going_ends hw hp hr hgo
    · exact ⟨0, u, _, rfl, hend⟩
  have ht := hend.tried
  obtain ⟨removed, hevents, htake⟩ := ht.events
  obtain ⟨hctx, hch, hstage⟩ := ht.done hend.pos
  refine ⟨u, t, k, n, removed, hu, hrun, hend.cmd, hend.pos, hend.le_scanBound, hevents, htake, ht.attempts, ht.nonce,
    hend.result.imp_right fun ⟨hst, hmore, _⟩ => ⟨hst, hmore⟩, hctx, hch, hstage, ht.fault, ht.halted.trans hh, ht.tgt,
    ht.first, ht.max, ht.conf, fun i hi => ?_⟩
  have hget := congrArg (·[i]) ht.hdr
  simpa [Vector.getElem_set, show ¬ 19 = i.val by omega] using hget

/-! ## A scan that nobody disturbs -/

/-- The host does nothing, and CANCEL is and stays 0. -/
structure Quiet (v : State) : Prop where
  inbox : v.inbox = []
  polls : v.polls = []
  cancel : v.cancel = false

theorem Quiet.polled (h : Quiet v) : polled v = false := by
  rw [Machine.polled, h.polls]
  exact h.cancel

/-- A turn of an undisturbed scan: under way while nonces are left, and then `EXHAUSTED` (R227). -/
theorem turn_of_quiet (h : Tried s n v) (hq : Quiet v) (hn : Left s n) (hc : v.cmd = .idle) (hr : v.scanst = .run)
    (hw : wfTable s.conf.stages = true) (hp : primsOk s.conf = true) :
    ∃ w, outcome (scanTurn v) = .next w ∧ Quiet w
      ∧ (s.first.toNat + (n + batchAt s n) < s.max.toNat → ScanGoing s (n + batchAt s n) w)
      ∧ (s.max.toNat ≤ s.first.toNat + (n + batchAt s n) →
          ScanEnded s (n + batchAt s n) w ∧ w.scanst = .exhausted) := by
  obtain ⟨w, hturn, hinbox, hcancel, hpolls, hends⟩ := turn_of_tried h hn hc hr hw hp
  have hwc : w.cancel = false := hcancel.trans hq.polled
  have hwq : Quiet w := ⟨hinbox.trans hq.inbox, by rw [hpolls, hq.polls]; rfl, hwc⟩
  refine ⟨w, hturn, hwq, ?_⟩
  rcases hends with hgo | hend
  · exact ⟨fun _ => hgo, fun hmax => absurd hgo.more (Nat.not_lt.2 hmax)⟩
  · rcases hend.result with ⟨hst, hall⟩ | ⟨_, _, hyes⟩
    · have hbound : s.max.toNat - s.first.toNat ≤ scanBound s := Nat.le_max_right ..
      exact ⟨fun hmore => by omega, fun _ => ⟨hend, hst⟩⟩
    · rw [hwc] at hyes; cases hyes

/-- A whole batch, where the range holds one (R228). -/
theorem batchAt_of_le (h : s.first.toNat + (n + batchSize s.conf.batch) ≤ s.max.toNat) :
    batchAt s n = batchSize s.conf.batch := by
  have := batchSize_le s.conf.batch
  unfold batchAt
  omega

/-- A turn of an undisturbed scan whose range holds more than a batch. -/
theorem turn_of_whole_batch (h : Tried s n v) (hq : Quiet v) (hc : v.cmd = .idle) (hr : v.scanst = .run)
    (hw : wfTable s.conf.stages = true) (hp : primsOk s.conf = true)
    (hn : s.first.toNat + (n + batchSize s.conf.batch) < s.max.toNat) :
    ∃ w, outcome (scanTurn v) = .next w ∧ Quiet w ∧ ScanGoing s (n + batchSize s.conf.batch) w := by
  obtain ⟨w, hturn, hwq, hgo, _⟩ := turn_of_quiet h hq (.inr (by omega)) hc hr hw hp
  rw [batchAt_of_le (Nat.le_of_lt hn)] at hgo
  exact ⟨w, hturn, hwq, hgo hn⟩

/-- Iteration `j` of an undisturbed scan, counted from 0, is a turn after `j` whole batches (R234). -/
theorem quiet_turns (hu : outcome (scanTurn (scBegun s)) = .next u) (hm : MemOk s) (hq : Quiet s) (hc : s.cmd = .idle)
    (hw : wfTable s.conf.stages = true) (hp : primsOk s.conf = true) (j : Nat)
    (hj : s.first.toNat + j * batchSize s.conf.batch < s.max.toNat) :
    ∃ x, runSteps j u = outcome (scanTurn x) ∧ Tried s (j * batchSize s.conf.batch) x ∧ Quiet x ∧ x.cmd = .idle
      ∧ x.scanst = .run := by
  induction j with
  | zero =>
    rw [Nat.zero_mul]
    exact ⟨scBegun s, hu.symm, tried_scBegun hm, ⟨hq.inbox, hq.polls, hq.cancel⟩, hc, rfl⟩
  | succ j ih =>
    rw [Nat.add_one_mul] at hj ⊢
    obtain ⟨x, hx, hxt, hxq, hxc, hxr⟩ := ih (by omega)
    obtain ⟨w, hturn, hwq, hgo⟩ := turn_of_whole_batch hxt hxq hxc hxr hw hp hj
    refine ⟨emptyCmd w, ?_, hgo.tried.withCmd .idle, ⟨hwq.inbox, hwq.polls, hwq.cancel⟩, rfl, hgo.scanst⟩
    rw [runSteps_succ_of_next (hx.trans hturn), step_scan hgo.cmd (by rw [hwq.inbox]; rintro ⟨⟩), scanStep, hwq.inbox]
    rfl

/-- All but the last of the batches that cover a range are whole, and the last is not empty. -/
theorem batches_of_ceil {k r b : Nat} (hb : 1 ≤ b) (hk : k + 1 = (r + b - 1) / b) :
    k * b < r ∧ r ≤ k * b + b := by
  have hle := Nat.div_mul_le_self (r + b - 1) b
  have hlt := Nat.lt_div_mul_add (a := r + b - 1) hb
  rw [← hk, Nat.add_one_mul] at hle hlt
  omega

/-- Settles O52: whole batches until the last iteration, which ends the range. -/
theorem uncancelledScanCoversTheRange : Obligations.UncancelledScanCoversTheRange := by
  intro s k hw hp hm hc hh hi hpolls hcancel hrange hk
  have hlt : s.first.toNat < s.max.toNat := hrange
  obtain ⟨hmore, hfull⟩ := batches_of_ceil (batchSize_le s.conf.batch).1 hk
  obtain ⟨u, hu, _⟩ := turn_of_tried (tried_scBegun hm) (.inl rfl) hc rfl hw hp
  have hturn (j : Nat) (hj : j ≤ k) := quiet_turns hu hm ⟨hi, hpolls, hcancel⟩ hc hw hp j (by
    have := Nat.mul_le_mul_right (batchSize s.conf.batch) hj
    omega)
  obtain ⟨x, hx, hxt, hxq, hxc, hxr⟩ := hturn k (Nat.le_refl k)
  obtain ⟨t, ht, _, _, hend⟩ := turn_of_quiet hxt hxq (.inr (by omega)) hxc hxr hw hp
  have hall : k * batchSize s.conf.batch + batchAt s (k * batchSize s.conf.batch)
      = s.max.toNat - s.first.toNat := by
    unfold batchAt
    omega
  rw [hall] at hend
  obtain ⟨hend, hst⟩ := hend (by omega)
  obtain ⟨removed, hevents, htake⟩ := hend.tried.events
  have hcount : BitVec.ofNat 32 (s.max.toNat - s.first.toNat) = s.max - s.first := by bv_omega
  refine ⟨u, t, by rw [exec_scan, scan_eq, hu], hx.trans ht, hend.cmd, hst, ?_, ?_, ?_, fun j v hj hv => ?_⟩
  · rw [hend.tried.nonce, hcount, BitVec.add_comm, BitVec.sub_add_cancel]
  · rw [hend.tried.attempts, hcount]
  · rw [htake (by rw [hi]; exact List.not_mem_nil)] at hevents
    exact hevents
  · obtain ⟨y, hy, hyt, hyq, hyc, hyr⟩ := hturn j (Nat.le_of_lt hj)
    have hroom := Nat.mul_le_mul_right (batchSize s.conf.batch) (Nat.succ_le_of_lt hj)
    rw [Nat.succ_mul] at hroom
    obtain ⟨w, hw', _, hgo⟩ := turn_of_whole_batch hyt hyq hyc hyr hw hp (by omega)
    obtain rfl : w = v := by
      rw [hy, hw'] at hv
      cases hv
      rfl
    refine ⟨hgo.cmd, ?_, ?_⟩
    · rw [hostRead, hgo.scanst]
      rfl
    · rw [hgo.tried.attempts, Nat.add_one_mul]

end Sys2Proof.Machine
end

section
/-! The AES round (spec/40_aes_primitives.md R124 to R130): the bytes of the columns the round mixes, and the byte it
leaves in each place of a column. -/

namespace Sys2Proof.Machine

/-- Addition of words is addition of their bytes (R11). -/
theorem byteOf_xor (x y : Word128) (k : Nat) : byteOf (x ^^^ y) k = byteOf x k ^^^ byteOf y k :=
  BitVec.extractLsb'_xor

/-- Row 0 is not rotated (R126). -/
theorem shiftedByte_row_zero (x : Word128) {col : Nat} (hcol : col < 4) :
    shiftedByte x 0 col = sbox (byteOf x (4 * col)) := by
  rw [shiftedByte, subByte, Nat.add_zero, Nat.add_zero, Nat.mod_eq_of_lt hcol]

/-- The byte an AES round leaves in row `row` of column `col` (R128). -/
theorem byteOf_aesRound (x k : Word128) {row col : Nat} (hrow : row < 4) (hcol : col < 4) :
    byteOf (aesRound x k) (4 * col + row) = mixedByte x row col ^^^ byteOf k (4 * col + row) := by
  have hmod : (4 * col + row) % 4 = row := by omega
  have hdiv : (4 * col + row) / 4 = col := by omega
  rw [aesRound, byteOf_xor, byteOf_wordOfBytes _ (by omega), hmod, hdiv]

/-- Settles O15: `byteOf_aesRound` at the four rows of a column, whose shifted bytes are the four S-box bytes named. -/
theorem aesRoundByColumns : Obligations.AesRoundByColumns := by
  refine ⟨fun x k col a0 a1 a2 a3 hcol h0 h1 h2 h3 => ?_, fun _ _ => rfl⟩
  have hbyte (row : Nat) (hrow : row < 4) := byteOf_aesRound x k hrow hcol
  obtain rfl : a0 = shiftedByte x 0 col := h0.trans (shiftedByte_row_zero x hcol).symm
  obtain rfl : a1 = shiftedByte x 1 col := h1
  obtain rfl : a2 = shiftedByte x 2 col := h2
  obtain rfl : a3 = shiftedByte x 3 col := h3
  exact ⟨hbyte 0 (by decide), hbyte 1 (by decide), hbyte 2 (by decide), hbyte 3 (by decide)⟩

end Sys2Proof.Machine
end

section
/-! The commands of the compression engine (spec/41_compression_engine.md R140 to R152): their words, the words of the
grids they write, and `CTX_STATE` without a `READY` context. -/

namespace Sys2Proof.Machine

variable {h : Hs} {s : State}

/-! ## Words of the commands -/

/-- A command word stands for the instruction it encodes (R107). -/
theorem encodes_of_encode {i : Instr} {w : Word32} (hw : encode i = .command w) : Encodes i w := by
  refine ⟨hw, ?_⟩
  have hdecode := decode_encode i
  rwa [hw] at hdecode

/-- The word of a command with a 16-bit immediate, written out (R96). -/
theorem commandWord_immediate (op : Byte) (imm : BitVec 16) :
    commandWord op (imm.setWidth 24) = commandWord op 0 ||| imm.setWidth 32 := by
  apply BitVec.eq_of_toNat_eq
  have hfits24 : imm.toNat < 2 ^ 24 := imm.isLt.trans (by decide)
  have hfits32 : imm.toNat < 2 ^ 32 := imm.isLt.trans (by decide)
  have hzero : (0 : BitVec 24).toNat = 0 := rfl
  simp only [commandWord, BitVec.toNat_or, BitVec.toNat_append, BitVec.toNat_setWidth, hzero, Nat.or_zero,
    Nat.mod_eq_of_lt hfits24, Nat.mod_eq_of_lt hfits32]

/-! ## Running and being refused -/

/-- The command of a micro-operation that has run answers the state it left. -/
theorem outcome_of_ran {r : Res} {t : State} (hr : r = .ok (ran t)) : outcome r = .next t := by
  rw [hr, outcome_ok, ran_st]

/-- Without a `READY` context a command of the context raises `CTX_STATE` (R152). -/
theorem exec_not_ready {i : Instr} (hi : needsReady i = true) (hs : s.ctxst ≠ .ready) :
    exec i s = .next (faulted 2 s) := by
  have hraised {r : Res} (hr : r = .ok (raise .ctxState s)) : outcome r = .next (faulted 2 s) := by
    rw [hr, outcome_ok, raise_st, recordFault_ctxState]
  cases i with
  | ctrAdv => exact hraised (ctrAdv_not_ready hs)
  | ldm src => exact hraised (ldm_not_ready src hs)
  | save => exact hraised (save_not_ready hs)
  | subw g => exact hraised (subw_not_ready g hs)
  | mixb g => exact hraised (mixb_not_ready g hs)
  | ffwd => exact hraised (ffwd_not_ready hs)
  | compress src => exact hraised (compress_not_ready src hs)
  | pad n => exact hraised (pad_not_ready n hs)
  | ctrFix => exact hraised (ctrFix_not_ready hs)
  | xtract => exact hraised (xtract_not_ready hs)
  | finalize n => exact hraised (finalize_not_ready n hs)
  | nop | ctxInit | chain | chBegin | chStep | chEnd | cmp | scan | scBegin | scIter | stgOrd | stgAes | stgLat
  | stgMh => cases hi

/-- Settles O26, command by command in `exec_not_ready`. -/
theorem contextCommandsNeedReady : Obligations.ContextCommandsNeedReady := fun _ _ => exec_not_ready

/-! ## `NOP`, `CTX.INIT`, `CTR.ADV` and `SAVE` -/

/-- Settles O16: `NOP` runs without a write, and its word is issued as `NOP`. -/
theorem nopChangesNothing : Obligations.NopChangesNothing :=
  have hword : Encodes .nop 0x00000000 := encodes_of_encode rfl
  ⟨hword, fun _ => rfl, fun s hh => (issue_decoded hh hword.2).trans (exec_nop s)⟩

/-- Settles O17: the two legal widths construct, any other is refused, and a dead context is not `READY`. -/
theorem ctxInitConstructsOrRejects : Obligations.CtxInitConstructsOrRejects := by
  refine ⟨fun imm => encodes_of_encode (congrArg Encoded.command (commandWord_immediate 0x01 imm)), fun s => ?_,
    fun s => ?_, fun s imm h256 h512 => ?_, fun s i hdead hi => exec_not_ready hi (by rw [hdead]; decide)⟩
  · have hcfg : (0x018C0100 : Word32) = Hs.h256.cfgWord := rfl
    rw [hcfg]
    exact outcome_of_ran (ctxInit_bits .h256 s)
  · have hcfg : (0x02A80200 : Word32) = Hs.h512.cfgWord := rfl
    rw [hcfg]
    exact outcome_of_ran (ctxInit_bits .h512 s)
  · have hnone : hsOfImm imm = none := by rw [hsOfImm, if_neg h256, if_neg h512]
    rw [exec_ctxInit, ctxInit_illegal hnone, outcome_ok, raise_st, recordFault_cfgError]

/-- Settles O18: the block length is 1536 for width 256 and 1024 for width 512. -/
theorem ctrAdvAddsBlockLength : Obligations.CtrAdvAddsBlockLength := by
  have h256 : (1536 : Word128) = BitVec.ofNat 128 Hs.h256.blockInc := rfl
  have h512 : (1024 : Word128) = BitVec.ofNat 128 Hs.h512.blockInc := rfl
  refine ⟨encodes_of_encode rfl, fun s hr => ?_, fun s hr => ?_, fun _ => exec_not_ready rfl⟩
  · rw [h256]
    exact outcome_of_ran (ctrAdv_ready hr)
  · rw [h512]
    exact outcome_of_ran (ctrAdv_ready hr)

/-- Settles O20: `SAVE` does the same for both widths. -/
theorem saveCopiesGridAndCounter : Obligations.SaveCopiesGridAndCounter :=
  ⟨encodes_of_encode rfl, fun _ _ hr => outcome_of_ran (save_ready hr), fun _ => exec_not_ready rfl⟩

/-! ## `LDM` -/

/-- A word of the loaded grid: the grid's own in a chaining column, the block's in a message column (R144). -/
theorem loadedGrid_getElem (h : Hs) (a : Grid) (block : Vector Wide 12) (r c : Fin 4) (l : Lane) :
    (loadedGrid h a block)[r][c][l] =
      if c.val < h.cc then a[r][c][l] else laneBlock block l (4 * (c.val - h.cc) + r.val) := by
  rw [loadedGrid, grid_getElem]
  by_cases hc : c.val < h.cc
  · rw [if_neg (Nat.not_le.2 hc), if_pos hc]
  · rw [if_pos (Nat.not_lt.1 hc), if_neg hc]
    exact (laneBlock_of_lt block l (blockIndex h r c).isLt).symm

/-- Settles O19, word by word. -/
theorem ldmFillsMessageColumns : Obligations.LdmFillsMessageColumns := by
  refine ⟨encodes_of_encode rfl, encodes_of_encode rfl, fun h src s hr => ?_, fun _ _ => exec_not_ready rfl⟩
  refine ⟨_, outcome_of_ran (ldm_ready src hr), rfl, fun r c l => (loadedGrid_getElem h _ _ r c l).trans ?_⟩
  cases src <;> rfl

/-! ## `SUBW` -/

/-- A word after SubBytes: two AES rounds, keyed by its place in the grid (R130, R146). -/
theorem subGrid_getElem (x : Grid) (k1 : Wide) (r c : Fin 4) (l : Lane) :
    (subGrid x k1)[r][c][l] = aesRound (aesRound x[r][c][l] (k1[l] + BitVec.ofNat 128 (4 * c.val + r.val))) 0 := by
  rw [subGrid, grid_getElem, wide_getElem, sub2, wordKey]

/-- Settles O21 for each of the two grids. -/
theorem subwUsesRisingKeys : Obligations.SubwUsesRisingKeys :=
  ⟨encodes_of_encode rfl, encodes_of_encode rfl,
    fun _ s hr => ⟨_, outcome_of_ran (subw_a_ready hr), rfl, keysTaken_getElem s.k1, subGrid_getElem s.a s.k1⟩,
    fun _ s hr => ⟨_, outcome_of_ran (subw_b_ready hr), rfl, keysTaken_getElem s.k1, subGrid_getElem s.b s.k1⟩,
    fun _ _ => exec_not_ready rfl⟩

/-! ## `MIXB` -/

/-- MixBytes is the four assignments of the rule: a row of `MIX` gives the four coefficients of one (R147). -/
theorem mixedFrom_mixGrid (x : Grid) : MixedFrom x (mixGrid x) := by
  rintro j l s0 s1 s2 s3 rfl rfl rfl rfl
  have hfirst : mixSource x j 0 l = x[(0 : Fin 4)][j][l] := by simp only [mixSource, add_zero]
  have hword (i : Fin 4) : (mixGrid x)[i][j][l]
      = scaleWord (mixCoeff i 0) x[(0 : Fin 4)][j][l] ^^^ scaleWord (mixCoeff i 1) x[(1 : Fin 4)][j + 1][l]
        ^^^ scaleWord (mixCoeff i 2) x[(2 : Fin 4)][j + 2][l]
        ^^^ scaleWord (mixCoeff i 3) x[(3 : Fin 4)][j + 3][l] := by
    rw [mixGrid, grid_getElem, wide_getElem, hfirst]
    rfl
  exact ⟨hword 0, hword 1, hword 2, hword 3⟩

/-- Settles O22 for each of the two directions. -/
theorem mixbMixesIntoOtherGrid : Obligations.MixbMixesIntoOtherGrid :=
  ⟨encodes_of_encode rfl, encodes_of_encode rfl,
    fun _ s hr => ⟨_, outcome_of_ran (mixb_a_ready hr), rfl, mixedFrom_mixGrid s.a⟩,
    fun _ s hr => ⟨_, outcome_of_ran (mixb_b_ready hr), rfl, mixedFrom_mixGrid s.b⟩,
    fun _ _ => exec_not_ready rfl⟩

/-! ## `FFWD` -/

theorem feedForward_h256_getElem (a bk : Grid) (r c : Fin 4) (l : Lane) :
    (feedForward .h256 a bk)[r][c][l] =
      if c = 0 then
        a[r][(0 : Fin 4)][l] ^^^ a[r][(1 : Fin 4)][l] ^^^ a[r][(2 : Fin 4)][l] ^^^ a[r][(3 : Fin 4)][l]
          ^^^ bk[r][(0 : Fin 4)][l] ^^^ bk[r][(1 : Fin 4)][l] ^^^ bk[r][(2 : Fin 4)][l] ^^^ bk[r][(3 : Fin 4)][l]
      else a[r][c][l] := by
  rw [feedForward, grid_getElem, wide_getElem]
  rfl

theorem feedForward_h512_getElem (a bk : Grid) (r c : Fin 4) (l : Lane) :
    (feedForward .h512 a bk)[r][c][l] =
      if c = 0 then
        a[r][(0 : Fin 4)][l] ^^^ a[r][(2 : Fin 4)][l] ^^^ bk[r][(0 : Fin 4)][l] ^^^ bk[r][(2 : Fin 4)][l]
      else if c = 1 then
        a[r][(1 : Fin 4)][l] ^^^ a[r][(3 : Fin 4)][l] ^^^ bk[r][(1 : Fin 4)][l] ^^^ bk[r][(3 : Fin 4)][l]
      else a[r][c][l] := by
  rw [feedForward, grid_getElem, wide_getElem]
  rfl

/-- Settles O23: the collapsed columns are column 0, and for width 512 column 1. -/
theorem ffwdCollapsesGridAndBackup : Obligations.FfwdCollapsesGridAndBackup := by
  refine ⟨encodes_of_encode rfl, fun s hr => ?_, fun s hr => ?_, fun _ => exec_not_ready rfl⟩
  · refine ⟨_, outcome_of_ran (ffwd_ready hr), rfl, fun r l => ?_⟩
    have hword (c : Fin 4) := feedForward_h256_getElem s.a s.bk r c l
    exact ⟨(hword 0).trans (if_pos rfl), fun c h0 => (hword c).trans (if_neg h0)⟩
  · refine ⟨_, outcome_of_ran (ffwd_ready hr), rfl, fun r l => ?_⟩
    have hword (c : Fin 4) := feedForward_h512_getElem s.a s.bk r c l
    exact ⟨(hword 0).trans (if_pos rfl), (hword 1).trans ((if_neg (by decide)).trans (if_pos rfl)),
      fun c h0 h1 => (hword c).trans ((if_neg h0).trans (if_neg h1))⟩

/-! ## `COMPRESS` -/

/-- A round-pair takes 32 keys (R149). -/
theorem iterate_pairState_k1 (n : Nat) (s : State) (l : Lane) :
    (pairState^[n] s).k1[l] = s.k1[l] + BitVec.ofNat 128 (32 * n) := by
  induction n generalizing s with
  | zero => exact (BitVec.add_zero _).symm
  | succ n ih =>
    have hkeys : BitVec.ofNat 128 (32 * (n + 1)) = 16 + (16 + BitVec.ofNat 128 (32 * n)) := by
      rw [Nat.mul_succ, Nat.add_comm, BitVec.ofNat_add, ← BitVec.add_assoc]
      rfl
    rw [Function.iterate_succ_apply, ih, pairState, keysTaken_getElem, keysTaken_getElem, hkeys, BitVec.add_assoc,
      BitVec.add_assoc]

theorem compressState_k (h : Hs) (src : BlockSrc) (s : State) (l : Lane) :
    (compressState h src s).k[l] = s.k[l] + BitVec.ofNat 128 h.blockBits := by
  rw [compressState_frame, wide_getElem, Hs.blockInc]

/-- The running key starts at the advanced counter and takes 16 keys a round (R146, R149). -/
theorem compressState_k1 (h : Hs) (src : BlockSrc) (s : State) (l : Lane) :
    (compressState h src s).k1[l] = (compressState h src s).k[l] + BitVec.ofNat 128 (16 * h.rounds) := by
  have hrounds : 32 * (h.rounds / 2) = 16 * h.rounds := by cases h <;> rfl
  have hstart : (loadedState h src s).k1[l] = (compressState h src s).k[l] := by
    rw [compressState_frame]
    rfl
  rw [← hrounds, ← hstart]
  exact iterate_pairState_k1 (h.rounds / 2) (loadedState h src s) l

/-- A loaded grid holds of the old one the chaining columns only (R144). -/
theorem laneLoad_congr (h : Hs) {x y : LaneGrid} (block : Nat → Word128)
    (hxy : ∀ r c : Fin 4, c.val < h.cc → x[r][c] = y[r][c]) : laneLoad h x block = laneLoad h y block :=
  laneGrid_congr fun r c => by
    split
    · rfl
    next hc => exact hxy r c (Nat.not_le.1 hc)

/-- Settles O24: `COMPRESS` runs in a `READY` context, and the lane function sees the grid only as it is loaded. -/
theorem compressIsTheLaneFunction : Obligations.CompressIsTheLaneFunction := by
  refine ⟨fun h src s hr => ⟨_, outcome_of_ran (compress_ready src hr), ?_, fun l =>
    ⟨laneOf_compressState h src s l, compressState_k h src s l, compressState_k1 h src s l⟩⟩,
    fun h k x y block hxy => ?_⟩
  · rw [compressState_frame]
  · rw [laneCompress, laneCompress, laneLoad_congr h block hxy]

end Sys2Proof.Machine
end

section
/-! Lanes do not interact (spec/41_compression_engine.md R141): from two states that agree in a lane, every
micro-operation of a context does the same and leaves states that agree in that lane. -/

namespace Sys2Proof.Machine

variable {l : Lane} {s t : State}

/-! ## Writes of registers that agree in the lane -/

theorem laneOf_eq_iff {x y : Grid} : laneOf x l = laneOf y l ↔ ∀ r c : Fin 4, x[r][c][l] = y[r][c][l] :=
  ⟨fun h r c => by rw [← laneOf_getElem x, h, laneOf_getElem], laneGrid_congr⟩

theorem LaneAgree.laneOf_gridOf (hst : LaneAgree l s t) (g : GridSel) :
    laneOf (s.gridOf g) l = laneOf (t.gridOf g) l := by
  cases g with
  | a => exact laneOf_eq_iff.2 hst.a
  | b => exact laneOf_eq_iff.2 hst.b

theorem LaneAgree.laneBlock_blockOf (hst : LaneAgree l s t) (src : BlockSrc) :
    laneBlock (s.blockOf src) l = laneBlock (t.blockOf src) l := by
  funext w
  unfold laneBlock
  split
  next hw =>
    cases src with
    | msg => exact hst.msg ⟨w, hw⟩
    | buf => exact hst.buf ⟨w, hw⟩
  next => rfl

theorem LaneAgree.setGrid (hst : LaneAgree l s t) (g : GridSel) {x y : Grid} (hxy : laneOf x l = laneOf y l) :
    LaneAgree l (s.setGrid g x) (t.setGrid g y) := by
  cases g with
  | a => exact { hst with a := laneOf_eq_iff.1 hxy }
  | b => exact { hst with b := laneOf_eq_iff.1 hxy }

theorem LaneAgree.setK (hst : LaneAgree l s t) {x y : Wide} (hxy : x[l] = y[l]) :
    LaneAgree l { s with k := x } { t with k := y } := { hst with k := hxy }

theorem LaneAgree.setK1 (hst : LaneAgree l s t) {x y : Wide} (hxy : x[l] = y[l]) :
    LaneAgree l { s with k1 := x } { t with k1 := y } := { hst with k1 := hxy }

theorem LaneAgree.recordFault (hst : LaneAgree l s t) (g : HwFault) :
    LaneAgree l (recordFault g s) (recordFault g t) := { hst with }

/-- The terminal block reads lane `l` of MSG and BUF only (R172). -/
theorem terminalBlock_getElem_congr (m : LenHiMode) (h : Hs) (n : BitVec 16) (pbits : Word64)
    {msg msg' buf buf' : Vector Wide 12} (hmsg : ∀ w : Fin 12, msg[w][l] = msg'[w][l])
    (hbuf : ∀ w : Fin 12, buf[w][l] = buf'[w][l]) (w : Fin 12) :
    (terminalBlock m h n pbits msg buf)[w][l] = (terminalBlock m h n pbits msg' buf')[w][l] := by
  simp only [terminalBlock, Fin.getElem_fin, Vector.getElem_ofFn]
  split_ifs
  · exact hmsg w
  · rfl
  · rfl
  · rfl
  · rfl
  · exact hbuf w

theorem LaneAgree.padState (hst : LaneAgree l s t) (h : Hs) (n : BitVec 16) :
    LaneAgree l (padState h n s) (padState h n t) where
  __ := hst
  buf := by
    rw [padState_buf, padState_buf, hst.conf, hst.pbits]
    exact terminalBlock_getElem_congr _ h n _ hst.msg hst.buf
  pbits := congrArg (padPbits n) hst.pbits
  rem := rfl

/-! ## Micro-operations that keep lanes apart -/

/-- Two runs that ended alike, in states that agree in lane `l`. -/
structure DoneAgree (l : Lane) (d e : Done) : Prop where
  st : LaneAgree l d.st e.st
  raised : d.raised = e.raised

theorem LaneAgree.ran (hst : LaneAgree l s t) : DoneAgree l (ran s) (ran t) := ⟨hst, rfl⟩

theorem LaneAgree.raise (hst : LaneAgree l s t) (g : HwFault) : DoneAgree l (raise g s) (raise g t) :=
  ⟨hst.recordFault g, rfl⟩

/-- What a micro-operation does from states that agree in lane `l` agrees in lane `l` (R141). -/
def LaneLocal (l : Lane) (f : State → Res) : Prop :=
  ∀ s t d, LaneAgree l s t → f s = .ok d → ∃ e, f t = .ok e ∧ DoneAgree l d e

theorem LaneLocal.andThen {f g : State → Res} (hf : LaneLocal l f) (hg : LaneLocal l g) :
    LaneLocal l fun s => Machine.andThen (f s) g := by
  intro s t d hst hd
  rcases (andThen_ok_iff _ _ _).1 hd with ⟨u, hu, hrest⟩ | ⟨x, hx, hfault⟩
  · obtain ⟨⟨v, o⟩, hv, huv, ho⟩ := hf s t _ hst hu
    obtain rfl : none = o := ho
    obtain ⟨e, he, hde⟩ := hg u v d huv hrest
    exact ⟨e, (andThen_ok_iff _ _ _).2 (.inl ⟨v, hv, he⟩), hde⟩
  · obtain ⟨e, he, hde⟩ := hf s t d hst hfault
    exact ⟨e, (andThen_ok_iff _ _ _).2 (.inr ⟨x, hde.raised ▸ hx, he⟩), hde⟩

theorem LaneLocal.repeated {f : State → Res} (hf : LaneLocal l f) : ∀ n, LaneLocal l (Machine.repeated f n)
  | 0 => fun s t _ hst hd => by
    cases hd
    exact ⟨ran t, rfl, hst.ran⟩
  | n + 1 => hf.andThen (hf.repeated n)

/-- The context check reads CTXST and CFG, which no lane has for itself. -/
theorem laneLocal_inContext {f : State → Hs → Done}
    (hf : ∀ h s t, LaneAgree l s t → DoneAgree l (f s h) (f t h)) : LaneLocal l fun s => inContext s (f s) := by
  intro s t d hst hd
  rcases inContext_cases s (f s) with ⟨h, hc, hw, heq⟩ | ⟨hc, heq⟩ | ⟨_, _, heq⟩
  · cases heq.symm.trans hd
    exact ⟨f t h, inContext_of_ready (hst.ctxst ▸ hc) (hst.cfg ▸ hw) _, hf h s t hst⟩
  · cases heq.symm.trans hd
    exact ⟨_, inContext_of_not_ready (hst.ctxst ▸ hc) _, hst.raise .ctxState⟩
  · cases heq.symm.trans hd

theorem laneLocal_ctrAdv : LaneLocal l ctrAdv :=
  laneLocal_inContext fun _ _ _ hst => (hst.setK (by rw [wide_getElem, wide_getElem, hst.k])).ran

theorem laneLocal_ctrFix : LaneLocal l ctrFix :=
  laneLocal_inContext fun _ _ _ hst => (hst.setK (by rw [wide_getElem, wide_getElem, hst.k, hst.rem])).ran

theorem laneLocal_ldm (src : BlockSrc) : LaneLocal l (ldm src) :=
  laneLocal_inContext fun h s t hst => by
    have hgrid : laneOf (loadedGrid h s.a (s.blockOf src)) l = laneOf (loadedGrid h t.a (t.blockOf src)) l := by
      rw [laneOf_loadedGrid, laneOf_loadedGrid, hst.laneBlock_blockOf, laneOf_eq_iff.2 hst.a]
    exact (hst.setGrid .a hgrid).ran

theorem laneLocal_save : LaneLocal l save :=
  laneLocal_inContext fun _ _ _ hst => LaneAgree.ran { hst with bk := hst.a, k1 := hst.k }

theorem laneLocal_subw (g : GridSel) : LaneLocal l (subw g) :=
  laneLocal_inContext fun _ s t hst => by
    have hgrid : laneOf (subGrid (s.gridOf g) s.k1) l = laneOf (subGrid (t.gridOf g) t.k1) l := by
      rw [laneOf_subGrid, laneOf_subGrid, hst.laneOf_gridOf, hst.k1]
    have hkeys : (keysTaken s.k1)[l] = (keysTaken t.k1)[l] := by rw [keysTaken_getElem, keysTaken_getElem, hst.k1]
    exact ((hst.setGrid g hgrid).setK1 hkeys).ran

theorem laneLocal_mixb (g : GridSel) : LaneLocal l (mixb g) :=
  laneLocal_inContext fun _ s t hst => by
    have hgrid : laneOf (mixGrid (s.gridOf g)) l = laneOf (mixGrid (t.gridOf g)) l := by
      rw [laneOf_mixGrid, laneOf_mixGrid, hst.laneOf_gridOf]
    exact (hst.setGrid (otherGrid g) hgrid).ran

theorem laneLocal_ffwd : LaneLocal l ffwd :=
  laneLocal_inContext fun h s t hst => by
    have hgrid : laneOf (feedForward h s.a s.bk) l = laneOf (feedForward h t.a t.bk) l := by
      rw [laneOf_feedForward, laneOf_feedForward, laneOf_eq_iff.2 hst.a, laneOf_eq_iff.2 hst.bk]
    exact (hst.setGrid .a hgrid).ran

theorem laneLocal_roundPair : LaneLocal l roundPair :=
  (((laneLocal_subw .a).andThen (laneLocal_mixb .a)).andThen (laneLocal_subw .b)).andThen (laneLocal_mixb .b)

/-- The number of round-pairs is read from CFG, which no lane has for itself (R149). -/
theorem laneLocal_roundPairs : LaneLocal l roundPairs := fun s t d hst hd => by
  have hcount : roundPairs t = repeated roundPair (cfgROUNDS s.cfg / 2) t := by rw [roundPairs, hst.cfg]
  rw [hcount]
  exact laneLocal_roundPair.repeated _ s t d hst hd

theorem laneLocal_compress (src : BlockSrc) : LaneLocal l (compress src) :=
  (((laneLocal_ctrAdv.andThen (laneLocal_ldm src)).andThen laneLocal_save).andThen laneLocal_roundPairs).andThen
    laneLocal_ffwd

theorem laneLocal_checkLength (n : BitVec 16) : LaneLocal l (checkLength n) :=
  laneLocal_inContext fun h _ _ hst => by
    cases legalLength h n with
    | true => exact hst.ran
    | false => exact hst.raise (.badLength n)

theorem laneLocal_pad (n : BitVec 16) : LaneLocal l (pad n) :=
  laneLocal_inContext fun h _ _ hst => by
    cases legalLength h n with
    | true => exact (hst.padState h n).ran
    | false => exact hst.raise (.badLength n)

theorem laneLocal_fullBlock (n : BitVec 16) : LaneLocal l (fullBlock n) := fun s t d hst hd => by
  unfold fullBlock at hd ⊢
  rw [← hst.cfg]
  split at hd
  next hn => rw [if_pos hn]; exact laneLocal_compress .msg s t d hst hd
  next hn => rw [if_neg hn]; cases hd; exact ⟨ran t, rfl, hst.ran⟩

theorem laneLocal_xtract : LaneLocal l xtract :=
  laneLocal_inContext fun h s t hst => by
    have hdigest (w : Fin 4) : (digestRegisters h s.a)[w][l] = (digestRegisters h t.a)[w][l] := by
      simp only [digestRegisters, Fin.getElem_fin, Vector.getElem_ofFn]
      split
      · exact hst.a w 0
      · rfl
    exact LaneAgree.ran { hst with dg := hdigest, ctxst := rfl }

theorem laneLocal_finalize (n : BitVec 16) : LaneLocal l (finalize n) :=
  (((((laneLocal_checkLength n).andThen (laneLocal_fullBlock n)).andThen (laneLocal_pad n)).andThen
    laneLocal_ctrFix).andThen (laneLocal_compress .buf)).andThen laneLocal_xtract

/-- `CTX.INIT` reads no lane at all (R142). -/
theorem laneLocal_ctxInit (imm : BitVec 16) : LaneLocal l (ctxInit imm) := fun s t d hst hd => by
  cases hi : hsOfImm imm with
  | some h =>
    have hfresh : LaneAgree l (freshState h s) (freshState h t) :=
      { hst with a := fun _ _ => rfl, k := rfl, cfg := rfl, pbits := rfl, rem := rfl, ctxst := rfl }
    rw [ctxInit_legal hi] at hd
    cases hd
    exact ⟨_, ctxInit_legal hi t, hfresh.ran⟩
  | none =>
    have hdead : LaneAgree l { s with cfg := 0, ctxst := .dead } { t with cfg := 0, ctxst := .dead } :=
      { hst with cfg := rfl, ctxst := rfl }
    rw [ctxInit_illegal hi] at hd
    cases hd
    exact ⟨_, ctxInit_illegal hi t, hdead.raise (.cfgError imm)⟩

/-! ## The commands -/

/-- The command of a lane-local micro-operation answers alike in the lane. -/
theorem LaneLocal.outcome_next {f : State → Res} (hf : LaneLocal l f) {s' : State} (hst : LaneAgree l s t)
    (h : outcome (f s) = .next s') : ∃ t' : State, outcome (f t) = .next t' ∧ LaneAgree l s' t' := by
  obtain ⟨_, hs⟩ := (outcome_next_iff _ _).1 h
  obtain ⟨e, he, hde⟩ := hf s t _ hst hs
  exact ⟨e.st, by rw [he, outcome_ok], hde.st⟩

/-- Settles O27: every context command is a lane-local micro-operation, and CTX.INIT reads no lane. -/
theorem lanesDoNotInteract : Obligations.LanesDoNotInteract := by
  intro i l s t s' hi hst h
  cases i with
  | ctxInit imm => exact (laneLocal_ctxInit imm).outcome_next hst h
  | ctrAdv => exact laneLocal_ctrAdv.outcome_next hst h
  | ldm src => exact (laneLocal_ldm src).outcome_next hst h
  | save => exact laneLocal_save.outcome_next hst h
  | subw g => exact (laneLocal_subw g).outcome_next hst h
  | mixb g => exact (laneLocal_mixb g).outcome_next hst h
  | ffwd => exact laneLocal_ffwd.outcome_next hst h
  | compress src => exact (laneLocal_compress src).outcome_next hst h
  | pad n => exact (laneLocal_pad n).outcome_next hst h
  | ctrFix => exact laneLocal_ctrFix.outcome_next hst h
  | xtract => exact laneLocal_xtract.outcome_next hst h
  | finalize n => exact (laneLocal_finalize n).outcome_next hst h
  | nop | chain | chBegin | chStep | chEnd | cmp | scan | scBegin | scIter | stgOrd | stgAes | stgLat | stgMh =>
    cases hi

end Sys2Proof.Machine
end

section
/-! The commands of the finalizer (spec/42_finalizer.md R171 to R178): the legal lengths, the terminal block word by
word, the counter through `CTR.FIX` and `FINALIZE`, and the digest as registers and as bytes. -/

namespace Sys2Proof.Machine

variable {h : Hs} {s : State}

/-! ## The digest as bytes -/

theorem getElem?_bytesOf (x : Word128) {k : Nat} (hk : k < 16) : (bytesOf x)[k]? = some (byteOf x k) := by
  have hlen : k < (bytesOf x).length := by rwa [bytesOf_length]
  have hbyte : byteOf x k = (bytesOf x).getD k 0 := by
    simpa only [wordAt_bytesOf, Nat.mul_zero, Nat.zero_add] using byteOf_wordAt (bytesOf x) 0 k hk
  rw [hbyte, List.getD_eq_getElem?_getD, List.getElem?_eq_getElem hlen, Option.getD_some]

theorem getElem?_bytesOf_append (x : Word128) (bs : List Byte) {k : Nat} (hk : k < 16) :
    (bytesOf x ++ bs)[k]? = some (byteOf x k) := by
  rw [List.getElem?_append_left (by rwa [bytesOf_length]), getElem?_bytesOf x hk]

/-- The bytes behind a word begin 16 places later. -/
theorem getElem?_bytesOf_append_succ (x : Word128) (bs : List Byte) (w k : Nat) :
    (bytesOf x ++ bs)[16 * (w + 1) + k]? = bs[16 * w + k]? := by
  rw [List.getElem?_append_right (by rw [bytesOf_length]; omega), bytesOf_length,
    show 16 * (w + 1) + k - 16 = 16 * w + k by omega]

/-- Byte `16w + k` of four words in a row is byte `k` of word `w` (R176). -/
theorem getElem?_four_words (f : Fin 4 → Word128) (w : Fin 4) {k : Nat} (hk : k < 16) :
    (bytesOf (f 0) ++ bytesOf (f 1) ++ bytesOf (f 2) ++ bytesOf (f 3))[16 * w.val + k]? = some (byteOf (f w) k) := by
  have hstart : 16 * 0 + k = k := by omega
  rw [List.append_assoc, List.append_assoc]
  match w with
  | 0 => exact (congrArg _ hstart).trans (getElem?_bytesOf_append _ _ hk)
  | 1 =>
    refine (getElem?_bytesOf_append_succ _ _ 0 k).trans ?_
    rw [hstart, getElem?_bytesOf_append _ _ hk]
  | 2 =>
    refine (getElem?_bytesOf_append_succ _ _ 1 k).trans ((getElem?_bytesOf_append_succ _ _ 0 k).trans ?_)
    rw [hstart, getElem?_bytesOf_append _ _ hk]
  | 3 =>
    refine (getElem?_bytesOf_append_succ _ _ 2 k).trans ((getElem?_bytesOf_append_succ _ _ 1 k).trans
      ((getElem?_bytesOf_append_succ _ _ 0 k).trans ?_))
    rw [hstart, getElem?_bytesOf _ hk]

/-- Settles O32: the digest is the start of the four words of DG in a row. -/
theorem digestBytesInOrder : Obligations.DigestBytesInOrder := by
  intro h s l
  constructor
  · have hle : h.bits / 8 ≤ 64 := by cases h <;> decide
    simpa only [digestBytes, List.length_take, List.length_append, bytesOf_length] using Nat.min_eq_left hle
  · intro w k hk hlt
    rw [digestBytes, List.getElem?_take_of_lt hlt]
    exact getElem?_four_words (fun w => s.dg[w][l]) w hk

/-! ## The legal lengths (R171) -/

theorem legalLength_iff (h : Hs) (n : BitVec 16) :
    legalLength h n = true ↔ n.toNat % 128 = 0 ∧ (n.toNat ≤ 128 * (h.blkw - 3) ∨ n.toNat = h.blockBits) := by
  simp only [legalLength, Bool.and_eq_true, Bool.or_eq_true, decide_eq_true_eq, beq_iff_eq]

/-- `PAD` of an illegal length raises `BAD_LENGTH`. -/
theorem exec_pad_illegal {n : BitVec 16} (hr : Ready h s) (hn : legalLength h n = false) :
    exec (.pad n) s = .next (faulted 3 s) := by
  rw [exec_pad, pad_ready hr, hn, if_neg Bool.false_ne_true, outcome_ok, raise_st, recordFault_badLength]

/-- `FINALIZE` of an illegal length raises `BAD_LENGTH`, at its first micro-operation (R177). -/
theorem exec_finalize_illegal {n : BitVec 16} (hr : Ready h s) (hn : legalLength h n = false) :
    exec (.finalize n) s = .next (faulted 3 s) := by
  have hcheck : checkLength n s = .ok (raise (.badLength n) s) := by
    rw [checkLength_ready hr, hn, if_neg Bool.false_ne_true]
  rw [exec_finalize, finalize, hcheck]
  simp only [andThen_raise, outcome_ok, raise_st, recordFault_badLength]

/-- Settles O28: the lengths are the multiples of 128 in the two ranges of the rule. -/
theorem legalLengths : Obligations.LegalLengths := by
  refine ⟨fun n => ?_, fun n => ?_, fun h s n hr hn => ⟨exec_pad_illegal hr hn, exec_finalize_illegal hr hn⟩⟩
  all_goals
    rw [legalLength_iff]
    simp only [Hs.blkw, Hs.blockBits, List.mem_cons, List.not_mem_nil, or_false]
    omega

/-! ## `PAD` -/

theorem messageWords_eq (h : Hs) (n : BitVec 16) :
    messageWords h n = if n.toNat = 128 * h.blkw then 0 else n.toNat / 128 := by
  simp only [messageWords, isFullBlock_iff]

theorem padRem_eq (h : Hs) (n : BitVec 16) :
    padRem h n = if n.toNat = 128 * h.blkw then 0 - BitVec.ofNat 128 (128 * h.blkw) else n.setWidth 128 := by
  simp only [padRem, isFullBlock_iff, Hs.blockBits, zero_sub]

/-- A word of the terminal block (R172). -/
theorem terminalBlock_getElem (m : LenHiMode) (h : Hs) (n : BitVec 16) (pbits : Word64) (msg buf : Vector Wide 12)
    (w : Fin 12) (l : Lane) :
    (terminalBlock m h n pbits msg buf)[w][l] =
      if w.val < messageWords h n then msg[w][l]
      else if w.val = messageWords h n then markerWord
      else if w.val < h.blkw - 2 then 0
      else if w.val = h.blkw - 2 then widthWord h
      else if w.val = h.blkw - 1 then lengthWord m pbits
      else buf[w][l] := by
  simp only [terminalBlock, Fin.getElem_fin, Vector.getElem_ofFn]
  split_ifs
  · rfl
  all_goals simp only [splat_getElem_nat]

/-- Settles O29: `PAD` of a legal length leaves `padState`, read register by register. -/
theorem padBuildsTerminalBlock : Obligations.PadBuildsTerminalBlock := by
  refine ⟨fun n => encodes_of_encode (congrArg Encoded.command (commandWord_immediate 0x20 n)),
    fun h s n vlen hr hn hvlen => ?_, fun _ _ => exec_not_ready rfl, fun _ _ _ => exec_pad_illegal⟩
  have hpad : pad n s = .ok (ran (padState h n s)) := by rw [pad_ready hr, if_pos hn]
  refine ⟨_, outcome_of_ran hpad, rfl, rfl, padRem_eq h n, fun w l => ?_⟩
  rw [hvlen, ← messageWords_eq]
  exact terminalBlock_getElem s.conf.lenHi h n (padPbits n s.pbits) s.msg s.buf w l

/-! ## `CTR.FIX` -/

/-- Settles O30: the block length `CTR.FIX` subtracts is the one `CTR.ADV` adds. -/
theorem ctrFixCorrectsCounter : Obligations.CtrFixCorrectsCounter := by
  refine ⟨encodes_of_encode rfl, fun h s hr => ⟨_, outcome_of_ran (ctrFix_ready hr), rfl, ?_⟩,
    fun _ => exec_not_ready rfl⟩
  rw [exec_ctrAdv, ctrAdv_ready (h := h)]
  · simp only [outcome_ok, ran_st, wide_getElem, Hs.blockInc, BitVec.sub_add_cancel]
  · exact hr

/-! ## `XTRACT` -/

theorem digestRegisters_getElem (h : Hs) (a : Grid) (w : Fin 4) :
    (digestRegisters h a)[w] = if w.val < h.bits / 128 then a[w][(0 : Fin 4)] else splat 0 :=
  Vector.getElem_ofFn ..

/-- Settles O31: two registers hold column 0 for width 256, all four for width 512. -/
theorem xtractTakesColumnZero : Obligations.XtractTakesColumnZero := by
  refine ⟨encodes_of_encode rfl, fun s hr => ?_, fun s hr => ?_, fun _ => exec_not_ready rfl,
    fun s i hdone hi => exec_not_ready hi (by rw [hdone]; decide)⟩
  · have hword (w : Fin 4) := digestRegisters_getElem .h256 s.a w
    exact ⟨_, outcome_of_ran (xtract_ready hr), rfl, (hword 0).trans (if_pos (by decide)),
      (hword 1).trans (if_pos (by decide)), (hword 2).trans (if_neg (by decide)),
      (hword 3).trans (if_neg (by decide))⟩
  · exact ⟨_, outcome_of_ran (xtract_ready hr), rfl, fun w =>
      (digestRegisters_getElem .h512 s.a w).trans (if_pos w.isLt)⟩

/-! ## `FINALIZE` -/

theorem finalizeState_pbits (h : Hs) (n : BitVec 16) (s : State) :
    (finalizeState h n s).pbits = s.pbits + n.setWidth 64 := by
  rw [finalizeState, compressState_frame, fullBlockState_frame]
  rfl

theorem fullBlockState_k (h : Hs) (n : BitVec 16) (s : State) (l : Lane) :
    (fullBlockState h n s).k[l] =
      if n.toNat = 128 * h.blkw then s.k[l] + BitVec.ofNat 128 h.blockBits else s.k[l] := by
  simp only [fullBlockState, isFullBlock_iff]
  split_ifs
  · exact compressState_k h .msg s l
  · rfl

/-- The terminal compression brings K to its value after the full block plus REM (R174, R178). -/
theorem finalizeState_k_eq_add_padRem (h : Hs) (n : BitVec 16) (s : State) (l : Lane) :
    (finalizeState h n s).k[l] = (fullBlockState h n s).k[l] + padRem h n := by
  have hfixed : (paddedState h n (fullBlockState h n s)).k[l]
      = (fullBlockState h n s).k[l] + padRem h n - BitVec.ofNat 128 h.blockBits := wide_getElem _ l
  calc (finalizeState h n s).k[l]
      = (paddedState h n (fullBlockState h n s)).k[l] + BitVec.ofNat 128 h.blockBits := compressState_k h .buf _ l
    _ = (fullBlockState h n s).k[l] + padRem h n := by rw [hfixed, BitVec.sub_add_cancel]

/-- The sentinel of a full block undoes that block's advance of K (R173, R178). -/
theorem finalizeState_k (h : Hs) (n : BitVec 16) (s : State) (l : Lane) :
    (finalizeState h n s).k[l] = if n.toNat = 128 * h.blkw then s.k[l] else s.k[l] + n.setWidth 128 := by
  rw [finalizeState_k_eq_add_padRem, fullBlockState_k, padRem_eq]
  split_ifs
  · rw [Hs.blockBits, zero_sub, ← sub_eq_add_neg, BitVec.add_sub_cancel]
  · rfl

/-- Settles O33: the state is `finalizeState`, whose K1 and DG are what the last compression and `XTRACT` leave. -/
theorem finalizeCompletes : Obligations.FinalizeCompletes := fun h s n hr hn =>
  ⟨_, outcome_of_ran (finalize_ready hr hn), finalizeState_frame h n s, finalizeState_pbits h n s,
    finalizeState_k h n s, compressState_k1 h .buf _, digestRegisters_getElem h _⟩

end Sys2Proof.Machine
end

section
/-! The well-formed stage tables (spec/43_chain_orchestrator.md R196): the kinds that stand exactly once have one position
each, which is the index the conditions speak of, and W1 to W10 one by one as the rule words them. -/

namespace Sys2Proof.Machine

variable {t : StageTable} {k : StageKind} {i pAes lIdx mIdx : Fin 19}

/-! ## The position of a kind that stands once (W2) -/

/-- Entry `i` and no other is of kind `k`. -/
def OnlyAt (t : StageTable) (k : StageKind) (i : Fin 19) : Prop := ∀ j, kindAt t j = k ↔ j = i

theorem OnlyAt.kindAt_self (h : OnlyAt t k i) : kindAt t i = k := (h i).2 rfl

/-- The first entry of a kind that stands once is its only one. -/
theorem OnlyAt.kindIndex_eq (h : OnlyAt t k i) : kindIndex t k = i.val := by
  have hlen : i.val < (List.finRange 19).length := by simp
  refine (List.findIdx_eq hlen).2 ⟨?_, fun j hj => ?_⟩
  · rw [List.getElem_finRange, beq_iff_eq]
    exact h.kindAt_self
  · rw [List.getElem_finRange, beq_eq_false_iff_ne]
    intro hk
    exact hj.ne (congrArg Fin.val ((h _).1 hk))

theorem kindCount_eq_card (t : StageTable) (k : StageKind) :
    kindCount t k = (Finset.univ.filter fun i => kindAt t i = k).card := by
  rw [kindCount, List.countP_eq_length_filter]
  rfl

theorem kindCount_eq_one_iff : kindCount t k = 1 ↔ ∃ i, OnlyAt t k i := by
  simp only [kindCount_eq_card, Finset.card_eq_one, Finset.ext_iff, Finset.mem_filter, Finset.mem_univ, true_and,
    Finset.mem_singleton, OnlyAt]

/-- Every entry has one of the four kinds. -/
theorem countP_kinds (t : StageTable) (is : List (Fin 19)) :
    is.countP (kindAt t · == .ord) + is.countP (kindAt t · == .aes) + is.countP (kindAt t · == .lat)
      + is.countP (kindAt t · == .mh) = is.length := by
  induction is with
  | nil => rfl
  | cons i is ih =>
    simp only [List.countP_cons, List.length_cons, ← ih]
    cases kindAt t i <;> simp <;> omega

theorem kindCount_sum (t : StageTable) :
    kindCount t .ord + kindCount t .aes + kindCount t .lat + kindCount t .mh = 19 := countP_kinds t (List.finRange 19)

/-- W2: the 16 other entries are `ORD` because there are 19 in all. -/
theorem wfW2_iff : wfW2 t = true ↔
    (∃ i, OnlyAt t .aes i) ∧ (∃ i, OnlyAt t .lat i) ∧ ∃ i, OnlyAt t .mh i := by
  have hsum := kindCount_sum t
  simp only [← kindCount_eq_one_iff, wfW2, Bool.and_eq_true, beq_iff_eq]
  omega

/-- Three kinds that stand once, and `ORD` everywhere else. -/
theorem onlyAt_iff_kindAt_eq : OnlyAt t .aes pAes ∧ OnlyAt t .lat lIdx ∧ OnlyAt t .mh mIdx ↔
    pAes ≠ lIdx ∧ pAes ≠ mIdx ∧ lIdx ≠ mIdx
      ∧ ∀ i, kindAt t i = if i = pAes then .aes else if i = lIdx then .lat else if i = mIdx then .mh else .ord := by
  constructor
  · rintro ⟨hp, hl, hm⟩
    refine ⟨?_, ?_, ?_, fun i => ?_⟩
    · rintro rfl; cases hp.kindAt_self.symm.trans hl.kindAt_self
    · rintro rfl; cases hp.kindAt_self.symm.trans hm.kindAt_self
    · rintro rfl; cases hl.kindAt_self.symm.trans hm.kindAt_self
    · split_ifs with hip hil him
      · exact (hp i).2 hip
      · exact (hl i).2 hil
      · exact (hm i).2 him
      · cases hk : kindAt t i with
        | ord => rfl
        | aes => exact absurd ((hp i).1 hk) hip
        | lat => exact absurd ((hl i).1 hk) hil
        | mh => exact absurd ((hm i).1 hk) him
  · rintro ⟨hpl, hpm, hlm, hkind⟩
    refine ⟨fun j => ?_, fun j => ?_, fun j => ?_⟩
    · rw [hkind j]; grind
    · rw [hkind j]; grind
    · rw [hkind j]; grind

/-! ## The other conditions -/

/-- The model says "entry 0 or", the rule "for `i >= 1`". -/
theorem eq_zero_or_iff {p : Prop} : i = 0 ∨ p ↔ (1 ≤ i.val → p) := by
  rw [or_iff_not_imp_left, ← ne_eq, ← Fin.pos_iff_ne_zero]
  rfl

/-- W1. -/
theorem wfW1_iff (hp : OnlyAt t .aes pAes) :
    wfW1 t = true ↔ (∀ i : Fin 19, descriptorReserved t[i] = 0) ∧ (fieldsAt t pAes).prim = 0 := by
  simp only [wfW1, everyEntry_iff, Bool.and_eq_true, Bool.or_eq_true, bne_iff_ne, beq_iff_eq, forall_and, ne_eq, hp _,
    ← imp_iff_not_or, forall_eq]

/-- W3, which asks for offset 0 of the first input too. -/
theorem wfW3_iff : wfW3 t = true ↔
    ((fieldsAt t 0).src = .hb ∧ (fieldsAt t 0).inLen = 80 ∧ ∀ i : Fin 19, 1 ≤ i.val → (fieldsAt t i).src = .rb)
      ∧ (fieldsAt t 0).inOff = 0 := by
  simp only [wfW3, everyEntry_iff, Bool.and_eq_true, Bool.or_eq_true, beq_iff_eq, eq_zero_or_iff]
  tauto

/-- W4. -/
theorem wfW4_iff (hl : OnlyAt t .lat lIdx) : wfW4 t = true ↔ 1 ≤ lIdx.val := by
  rw [wfW4, hl.kindIndex_eq, decide_eq_true_iff]

/-- W5. -/
theorem wfW5_iff : wfW5 t = true ↔ ∀ i, (fieldsAt t i).inOff = 0 := by
  simp only [wfW5, everyEntry_iff, beq_iff_eq]

/-- W6. -/
theorem wfW6_iff (hm : OnlyAt t .mh mIdx) : wfW6 t = true ↔
    ∀ i : Fin 19, 1 ≤ i.val → (fieldsAt t i).inLen = if i.val ≤ mIdx.val then 64 else 32 := by
  simp only [wfW6, hm.kindIndex_eq, everyEntry_iff, Bool.or_eq_true, beq_iff_eq, eq_zero_or_iff]

/-- W7. -/
theorem wfW7_iff (hm : OnlyAt t .mh mIdx) : wfW7 t = true ↔
    ∀ i, (fieldsAt t i).outLen = if i.val < mIdx.val then 64 else 32 := by
  simp only [wfW7, hm.kindIndex_eq, everyEntry_iff, beq_iff_eq]

/-- W8. -/
theorem wfW8_iff (hl : OnlyAt t .lat lIdx) : wfW8 t = true ↔
    ∀ i, (fieldsAt t i).outOff = if i = lIdx then 64 else 0 := by
  simp only [wfW8, hl.kindIndex_eq, everyEntry_iff, beq_iff_eq, Fin.ext_iff]

/-- A digest of `len` bytes asks for the configuration of that width, if there is one (R201). -/
theorem hsOfLength_eq_some_iff {len : Nat} {h : Hs} : hsOfLength len = some h ↔ h.bits = 8 * len := by
  refine ⟨fun hlen => (hsOfLength_eq hlen).symm, fun hb => ?_⟩
  cases h with
  | h256 =>
    obtain rfl : len = 32 := by rw [Hs.bits] at hb; omega
    rfl
  | h512 =>
    obtain rfl : len = 64 := by rw [Hs.bits] at hb; omega
    rfl

/-- A length in bits that fits the operand of `FINALIZE` is legal exactly when that operand is. -/
theorem legalLength_ofNat_eq {h : Hs} {n : Nat} (hn : n < 2 ^ 16) :
    legalLength h (BitVec.ofNat 16 n) = legalBits h n := by
  rw [legalLength, legalBits, BitVec.toNat_ofNat, Nat.mod_eq_of_lt hn]

theorem wfW9_eq (t : StageTable) : wfW9 t = everyEntry fun i => kindAt t i != .aes ||
    ((fieldsAt t i).inOff.toNat % 16 == 0 && (fieldsAt t i).inLen.toNat % 16 == 0 &&
      (hsOfLength (fieldsAt t i).outLen.toNat).any fun h => legalBits h (8 * (fieldsAt t i).inLen.toNat)) := by
  refine congrArg everyEntry (funext fun i => ?_)
  cases hsOfLength (fieldsAt t i).outLen.toNat <;> rfl

/-- W9. -/
theorem wfW9_iff (hp : OnlyAt t .aes pAes) : wfW9 t = true ↔
    (fieldsAt t pAes).inOff.toNat % 16 = 0 ∧ (fieldsAt t pAes).inLen.toNat % 16 = 0
      ∧ ∃ h : Hs, h.bits = 8 * (fieldsAt t pAes).outLen.toNat
          ∧ legalLength h (BitVec.ofNat 16 (8 * (fieldsAt t pAes).inLen.toNat)) = true := by
  have hfits : 8 * (fieldsAt t pAes).inLen.toNat < 2 ^ 16 := by
    have hbyte := (fieldsAt t pAes).inLen.isLt
    omega
  simp only [wfW9_eq, everyEntry_iff, Bool.and_eq_true, Bool.or_eq_true, bne_iff_ne, beq_iff_eq, ne_eq, hp _,
    ← imp_iff_not_or, forall_eq, Option.any_eq_true, hsOfLength_eq_some_iff, legalLength_ofNat_eq hfits, and_assoc]

/-- W10. -/
theorem wfW10_iff : wfW10 t = true ↔ ∀ i, (fieldsAt t i).clrOff.toNat + (fieldsAt t i).clrLen.toNat ≤ 128 := by
  simp only [wfW10, everyEntry_iff, decide_eq_true_iff]

/-- Settles O36, condition by condition, at the positions W2 gives the three kinds that stand once. -/
theorem wellFormedTableMeansItsConditions : Obligations.WellFormedTableMeansItsConditions := by
  intro t
  rw [wfTable_iff]
  constructor
  · rintro ⟨h1, h2, h3, h4, h5, h6, h7, h8, h9, h10⟩
    obtain ⟨⟨pAes, hp⟩, ⟨lIdx, hl⟩, ⟨mIdx, hm⟩⟩ := wfW2_iff.1 h2
    exact ⟨pAes, lIdx, mIdx, onlyAt_iff_kindAt_eq.1 ⟨hp, hl, hm⟩, (wfW1_iff hp).1 h1, (wfW3_iff.1 h3).1,
      (wfW4_iff hl).1 h4, wfW5_iff.1 h5, (wfW6_iff hm).1 h6, (wfW7_iff hm).1 h7, (wfW8_iff hl).1 h8,
      (wfW9_iff hp).1 h9, wfW10_iff.1 h10⟩
  · rintro ⟨pAes, lIdx, mIdx, hkinds, h1, h3, h4, h5, h6, h7, h8, h9, h10⟩
    obtain ⟨hp, hl, hm⟩ := onlyAt_iff_kindAt_eq.2 hkinds
    exact ⟨(wfW1_iff hp).2 h1, wfW2_iff.2 ⟨⟨pAes, hp⟩, ⟨lIdx, hl⟩, ⟨mIdx, hm⟩⟩, wfW3_iff.2 ⟨h3, h5 0⟩,
      (wfW4_iff hl).2 h4, wfW5_iff.2 h5, (wfW6_iff hm).2 h6, (wfW7_iff hm).2 h7, (wfW8_iff hl).2 h8,
      (wfW9_iff hp).2 h9, wfW10_iff.2 h10⟩

end Sys2Proof.Machine
end

section
/-! The commands of the chain (spec/43_chain_orchestrator.md R197 to R207): `CH.BEGIN` and its header bytes, the stages of
the external primitives, `CH.STEP`, and `CH.END`. -/

namespace Sys2Proof.Machine

variable {s : State} {d : StageFields}

/-- A command that raises `CHAIN_FATAL` halts and writes nothing else (R253, R254). -/
theorem outcome_of_chainFatal {r : Res} {g : BitVec 5} (hr : r = .ok (raise (.chainFatal g) s)) :
    outcome r = .next (faultedHalt 4 s) := by
  rw [hr, outcome_ok, raise_st, recordFault_chainFatal]

/-- A command that raises `SEQ_ERROR` writes nothing else (R253, R259). -/
theorem outcome_of_seqError {r : Res} (hr : r = .ok (raise .seqError s)) : outcome r = .next (faulted 6 s) := by
  rw [hr, outcome_ok, raise_st, recordFault_seqError]

/-! ## `CH.BEGIN` -/

/-- Byte `j` of a big-endian word of 32 bits (R15). -/
theorem beBytes_getD (w : Word32) {j : Nat} (hj : j < 4) :
    (beBytes 4 w.toNat).getD j 0 = w.extractLsb' (8 * (3 - j)) 8 := by
  have hrev : (beBytes 4 w.toNat).getD j 0 = (leBytes 4 w.toNat).getD (3 - j) 0 := by
    rw [beBytes, List.getD_eq_getElem?_getD, List.getElem?_reverse (by simpa using hj), leBytes_length,
      List.getD_eq_getElem?_getD]
  have hw : w.toNat % 256 ^ 4 = w.toNat := Nat.mod_eq_of_lt w.isLt
  apply BitVec.eq_of_toNat_eq
  rw [hrev, ← leNat_div_mod, leNat_leBytes, hw, BitVec.extractLsb'_toNat, Nat.shiftRight_eq_div_pow, Nat.pow_mul]

/-- Byte `4i + j` of big-endian words in a row is byte `j` of word `i`. -/
theorem flatMap_beBytes_getD (ws : List Word32) {i j : Nat} (hi : i < ws.length) (hj : j < 4) :
    (ws.flatMap fun w => beBytes 4 w.toNat).getD (4 * i + j) 0 = ws[i].extractLsb' (8 * (3 - j)) 8 := by
  induction ws generalizing i with
  | nil => cases hi
  | cons w ws ih =>
    have hlen : (beBytes 4 w.toNat).length = 4 := beBytes_length ..
    rw [List.flatMap_cons]
    cases i with
    | zero =>
      rw [List.getD_append _ _ _ _ (by omega), Nat.mul_zero, Nat.zero_add]
      exact beBytes_getD w hj
    | succ i =>
      rw [List.getD_append_right _ _ _ _ (by omega), hlen, show 4 * (i + 1) + j - 4 = 4 * i + j by omega]
      exact ih (Nat.lt_of_succ_lt_succ hi)

/-- Byte `4i + j` of a lane's header is byte `j` of header word `i`, the nonce being word 19 (R198). -/
theorem headerBytes_getD (s : State) (l : Lane) (i : Fin 20) {j : Nat} (hj : j < 4) :
    (headerBytes s l).getD (4 * i.val + j) 0
      = (if i.val < 19 then s.hdr[i] else s.ln[l]).extractLsb' (8 * (3 - j)) 8 := by
  have hwords : headerBytes s l
      = (s.hdr.toList.take 19 ++ [s.ln[l]]).flatMap fun w => beBytes 4 w.toNat := by
    rw [List.flatMap_append, List.flatMap_singleton, headerBytes]
  have hlen : (s.hdr.toList.take 19).length = 19 := by simp
  rw [hwords, flatMap_beBytes_getD _ (by simp) hj]
  congr 1
  split
  · rename_i hi
    rw [List.getElem_append_left (by omega), List.getElem_take, Vector.getElem_toList]
    rfl
  · rename_i hi
    rw [List.getElem_append_right (by omega), List.getElem_singleton]

/-- What every byte reads after `CH.BEGIN`: the header in HB, zeros in RB (R198). -/
theorem chBeginState_byteAt (hm : MemOk s) (sp : Space) (l : Lane) (x : Nat) :
    (chBeginState s).byteAt sp l x =
      if sp = .rb ∧ x < 128 then 0
      else if sp = .hb ∧ x < 80 then (headerBytes s l).getD x 0 else s.byteAt sp l x := by
  have hheader : MemOk (memWrite s .hb 0 (headerBytes s)) := memOk_memWrite hm (headerBytes_length s) (by decide)
  have hstate : (chBeginState s).byteAt sp l x
      = (memWrite (memWrite s .hb 0 (headerBytes s)) .rb 0 fun _ => List.replicate 128 0).byteAt sp l x := by
    cases sp <;> rfl
  rw [hstate, memWrite_byteAt (fun l => (hheader .rb l).1), memWrite_byteAt (fun l => (hm .hb l).1),
    List.length_replicate, headerBytes_length, List.getD_eq_getElem?_getD, List.getElem?_getD_replicate_default_eq]
  simp only [Nat.zero_le, true_and, Nat.zero_add, Nat.sub_zero]

/-- Settles O37, byte by byte of the two spaces `CH.BEGIN` writes. -/
theorem chBeginBuildsHeaders : Obligations.ChBeginBuildsHeaders := by
  refine ⟨encodes_of_encode rfl, fun s hw hm => ?_, fun s hw => ?_⟩
  · have hbegin : chBegin s = .ok (ran (chBeginState s)) := by rw [chBegin, if_pos hw]
    have hbyte := chBeginState_byteAt hm
    refine ⟨_, outcome_of_ran hbegin, rfl, fun l i j hj => ?_, fun l x hx => ?_, fun l x hx => ?_, fun l x hx => ?_⟩
    · have hlt : 4 * i.val + j < 80 := by omega
      rw [hbyte, if_neg (by simp), if_pos ⟨rfl, hlt⟩, headerBytes_getD s l i hj]
    · rw [hbyte, if_pos ⟨rfl, hx⟩]
    · rw [hbyte, if_neg (by simp), if_neg (by omega)]
    · rw [hbyte, if_neg (by omega), if_neg (by simp)]
  · have hbegin : chBegin s = .ok (raise (.chainFatal 0) s) := by rw [chBegin, hw]; rfl
    exact outcome_of_chainFatal hbegin

/-! ## The stages of the external primitives -/

/-- The output of a well-formed descriptor is 64 or 32 bytes long (R196 W7). -/
theorem outLen_cases {k : StageKind} (h : d.outLenOk k = true) : d.outLen = 64 ∨ d.outLen = 32 := by
  have hother (h : (if d.inLen == 32 then d.outLen == 32 else d.outLen == 64) = true) :
      d.outLen = 64 ∨ d.outLen = 32 := by
    split at h
    · exact .inr (beq_iff_eq.1 h)
    · exact .inl (beq_iff_eq.1 h)
  cases k with
  | mh => exact .inr (beq_iff_eq.1 h)
  | ord | aes | lat => exact hother h

/-- The output of a well-formed descriptor stands at offset 64 or 0 (R196 W8). -/
theorem outOff_cases {k : StageKind} (h : d.outOffOk k = true) : d.outOff = 64 ∨ d.outOff = 0 := by
  cases k with
  | lat => exact .inl (beq_iff_eq.1 h)
  | ord | aes | mh => exact .inr (beq_iff_eq.1 h)

/-- The input of a well-formed descriptor fills the header or lies at the start of RB (R196 W3, W5, W6). -/
theorem input_inSpace (hoff : d.inOffOk = true) (hlen : d.inLenOk = true) :
    inSpace (srcSpace d.src) d.inOff.toNat d.inLen.toNat = true := by
  have hzero : d.inOff = 0 := beq_iff_eq.1 hoff
  rw [hzero]
  unfold StageFields.inLenOk at hlen
  cases hsrc : d.src with
  | hb =>
    have h80 : d.inLen = 80 := by simpa [hsrc] using hlen
    rw [h80]
    rfl
  | rb =>
    have hwide : d.inLen = 64 ∨ d.inLen = 32 := by simpa [hsrc] using hlen
    rcases hwide with h | h <;> rw [h] <;> rfl

/-- Every byte a well-formed descriptor names exists. -/
theorem wfDescriptor_inSpace {k : StageKind} (hwf : d.wf k = true) : stageInSpace d = true := by
  simp only [StageFields.wf, Bool.and_eq_true] at hwf
  obtain ⟨⟨⟨⟨⟨⟨_, hinOff⟩, hinLen⟩, _⟩, houtLen⟩, houtOff⟩, hclr⟩ := hwf
  have hin := input_inSpace hinOff hinLen
  have hout : inSpace .rb d.outOff.toNat d.outLen.toNat = true := by
    rcases outOff_cases houtOff with ho | ho <;> rcases outLen_cases houtLen with hl | hl <;> rw [ho, hl] <;> rfl
  have hclear : inSpace .rb d.clrOff.toNat d.clrLen.toNat = true := hclr
  simp only [stageInSpace, hin, hout, hclear, Bool.or_true, Bool.and_self]

/-- The three external kinds run the same stage (R200). -/
theorem external_cases {i : Instr} (hi : i = .stgOrd d ∨ i = .stgLat d ∨ i = .stgMh d) (hwf : i.wf = true) :
    stageInSpace d = true ∧ ∀ s, exec i s = outcome (externalStage d s) := by
  rcases hi with rfl | rfl | rfl
  · exact ⟨wfDescriptor_inSpace (k := .ord) hwf, exec_stgOrd d⟩
  · exact ⟨wfDescriptor_inSpace (k := .lat) hwf, exec_stgLat d⟩
  · exact ⟨wfDescriptor_inSpace (k := .mh) hwf, exec_stgMh d⟩

theorem externalStage_fits (hc : InChain s) (hsp : stageInSpace d = true)
    (hfit : ∀ l : Lane, (externalOutput d s l).length = d.outLen.toNat) :
    externalStage d s = .ok (ran (stageWrite d (externalOutput d s) s)) := by
  rw [externalStage, inStage, if_pos ⟨hc.1, hc.2⟩, if_pos hsp, if_pos ((outputsFit_iff d s).2 hfit)]

/-- A digest of the wrong length in some lane (R204). -/
theorem externalStage_misfits (hc : InChain s) (hsp : stageInSpace d = true)
    (hmis : ∃ l : Lane, (externalOutput d s l).length ≠ d.outLen.toNat) :
    externalStage d s = .ok (raise (.chainFatal s.stage) s) := by
  obtain ⟨l, hl⟩ := hmis
  rw [externalStage, inStage, if_pos ⟨hc.1, hc.2⟩, if_pos hsp, if_neg fun hfit => hl ((outputsFit_iff d s).1 hfit l)]

/-- Settles O38: the digests of all lanes fit and are written, or one does not and the stage halts. -/
theorem externalStageWritesItsDigest : Obligations.ExternalStageWritesItsDigest := by
  intro d i s hi hwf hc hm
  obtain ⟨hsp, hexec⟩ := external_cases hi hwf
  rw [hexec]
  refine ⟨fun hfit => ?_, fun hmis => outcome_of_chainFatal (externalStage_misfits hc hsp hmis)⟩
  exact ⟨_, outcome_of_ran (externalStage_fits hc hsp hfit), stageWrite_eq ..,
    stageWrite_bytes (fun l => (hm .rb l).1) hfit⟩

/-! ## `CH.STEP` -/

theorem exec_chStep_not_inChain (hc : ¬ InChain s) : exec .chStep s = .next (faulted 6 s) :=
  outcome_of_seqError (if_neg hc)

/-- Settles O40: on a verified table only a misbehaving primitive keeps `CH.STEP` from its stage. -/
theorem chStepRunsOneStage : Obligations.ChStepRunsOneStage := by
  refine ⟨fun s hst hrun hw hp => ?_, fun s => exec_chStep_not_inChain⟩
  rcases chStep_verified ⟨hrun, hst⟩ hw with ⟨t, ht, hash⟩ | ⟨hp', _⟩
  · exact ⟨t, outcome_of_ran ht, eq_of_outsideContext hash.frame, hash.external, hash.buffer⟩
  · rw [hp] at hp'; cases hp'

/-- Settles O41: `CH.STEP` runs the external stage of the descriptor at STAGE, whose digest misfits. -/
theorem misbehavingPrimitiveHalts : Obligations.MisbehavingPrimitiveHalts := by
  rintro s hst _ hrun hw rfl hk hmis
  have hc : InChain s := ⟨hrun, hst⟩
  have hstep : chStep s = externalStage (fieldsAt s.conf.stages ⟨s.stage.toNat, hst⟩) s := by
    rcases chStep_cases s with ⟨hn, _⟩ | ⟨_, _, heq⟩
    · exact absurd hc hn
    · rw [heq, stageOf_external hk]
  exact outcome_of_chainFatal (hstep.trans (externalStage_misfits hc (wfTable_inSpace hw _) hmis))

/-! ## `CH.END` -/

/-- What every byte reads after `CH.END`: 32 bytes of RB in CD (R205). -/
theorem chEndState_byteAt (hm : MemOk s) (l : Lane) (x : Nat) :
    (chEndState s).byteAt .cd l x =
      if x < 32 then s.byteAt .rb l (lastOutOff s.conf + x) else s.byteAt .cd l x := by
  have hstate : (chEndState s).byteAt .cd l x
      = (memWrite s .cd 0 fun l => memRead s .rb l (lastOutOff s.conf) 32).byteAt .cd l x := rfl
  rw [hstate, memWrite_byteAt (fun l => (hm .cd l).1), memRead_length]
  simp only [Nat.zero_le, true_and, Nat.zero_add, Nat.sub_zero]
  split
  · rename_i hx
    exact Memory.load_getD _ _ _ _ hx
  · rfl

/-- Settles O42: after the last stage `CH.END` reads inside RB, and before it is out of sequence. -/
theorem chEndCopiesResult : Obligations.ChEndCopiesResult := by
  refine ⟨encodes_of_encode rfl, fun s hrun hst hw hm => ?_, fun s hseq => ?_⟩
  · have hend : chEnd s = .ok (ran (chEndState s)) := by
      rw [chEnd, if_pos ⟨hrun, hst⟩, if_pos (wfTable_lastOutOff hw)]
      rfl
    exact ⟨_, outcome_of_ran hend, rfl, chEndState_byteAt hm⟩
  · exact outcome_of_seqError (if_neg (not_and_or.2 hseq))

end Sys2Proof.Machine
end

section
/-! The comparator and the scan loop (spec/44_comparator_scanloop.md R221 to R236): the word-by-word comparison as the
order of the numbers, what `CMP` writes, the active lanes, and a scan that CANCEL ends after its first iteration. -/

namespace Sys2Proof.Machine

variable {s t : State}

/-! ## The comparison as an order of numbers (R223, R224) -/

/-- The number that words stand for, the most significant first (R221, R223). -/
def msbValue : List Word32 → Nat
  | [] => 0
  | w :: ws => w.toNat * 2 ^ (32 * ws.length) + msbValue ws

theorem msbValue_lt (ws : List Word32) : msbValue ws < 2 ^ (32 * ws.length) := by
  induction ws with
  | nil => exact Nat.one_pos
  | cons w ws ih =>
    have hw : w.toNat + 1 ≤ 2 ^ 32 := w.isLt
    calc w.toNat * 2 ^ (32 * ws.length) + msbValue ws
        < w.toNat * 2 ^ (32 * ws.length) + 2 ^ (32 * ws.length) := Nat.add_lt_add_left ih _
      _ = (w.toNat + 1) * 2 ^ (32 * ws.length) := (Nat.succ_mul ..).symm
      _ ≤ 2 ^ 32 * 2 ^ (32 * ws.length) := Nat.mul_le_mul_right _ hw
      _ = 2 ^ (32 * (w :: ws).length) := by rw [← pow_add, List.length_cons, Nat.mul_succ, Nat.add_comm]

/-- A smaller leading digit decides, whatever follows it. -/
theorem leading_digit_lt {b d e x y : Nat} (hx : x < b) (hde : d < e) : d * b + x < e * b + y := by
  have hb : (d + 1) * b ≤ e * b := Nat.mul_le_mul_right b hde
  rw [Nat.succ_mul] at hb
  omega

/-- The word-by-word comparison is the order of the numbers: the first words that differ decide (R223). -/
theorem fullLessList_iff_msbValue {ds ts : List Word32} (hlen : ds.length = ts.length) :
    fullLessList ds ts = true ↔ msbValue ds < msbValue ts := by
  induction ds generalizing ts with
  | nil =>
    obtain rfl := List.length_eq_zero_iff.1 hlen.symm
    simp [fullLessList]
  | cons d ds ih =>
    obtain _ | ⟨t, ts⟩ := ts
    · cases hlen
    have htail : ds.length = ts.length := Nat.succ.inj hlen
    have hds := msbValue_lt ds
    have hts := msbValue_lt ts
    rw [fullLessList, msbValue, msbValue, htail]
    rw [htail] at hds
    rcases BitVec.lt_trichotomy d t with hlt | rfl | hgt
    · rw [if_pos hlt]
      exact iff_of_true rfl (leading_digit_lt hds hlt)
    · rw [if_neg (BitVec.lt_irrefl d), if_neg (BitVec.lt_irrefl d), ih htail, Nat.add_lt_add_iff_left]
    · rw [if_neg (BitVec.lt_asymm hgt), if_pos hgt]
      exact iff_of_false Bool.false_ne_true (Nat.lt_asymm (leading_digit_lt hts hgt))

theorem msbValue_msbFirst (v : Vector Word32 8) : msbValue (msbFirst v) = bigValue v := by
  unfold bigValue
  simp only [msbFirst, msbValue, List.length_cons, List.length_nil]
  ring

/-- `FULLLESS` is the order of the numbers (R223). -/
theorem fullLess_iff (dw t : Vector Word32 8) : fullLess dw t = true ↔ bigValue dw < bigValue t := by
  have hlen : (msbFirst dw).length = (msbFirst t).length := rfl
  rw [fullLess, fullLessList_iff_msbValue hlen, msbValue_msbFirst, msbValue_msbFirst]

theorem topLess_iff (dw t : Vector Word32 8) : topLess dw t = true ↔ dw[7] < t[7] := decide_eq_true_iff

/-- What the first step passes, the full comparison accepts at its first words (R224 (a)). -/
theorem fullLess_of_topLess {dw t : Vector Word32 8} (h : topLess dw t = true) : fullLess dw t = true :=
  if_pos ((topLess_iff dw t).1 h)

/-- The first step decides (R224 (a)). -/
theorem accept_eq_topLess (dw t : Vector Word32 8) : accept dw t = topLess dw t := by
  rw [accept]
  cases htop : topLess dw t with
  | true => exact fullLess_of_topLess htop
  | false => rfl

theorem accept_iff (dw t : Vector Word32 8) : accept dw t = true ↔ dw[7] < t[7] := by
  rw [accept_eq_topLess, topLess_iff]

/-- A number below the target has no larger top word, since a larger one decides the other way (R224 (b)). -/
theorem top_le_of_bigValue_lt {dw t : Vector Word32 8} : bigValue dw < bigValue t → dw[7] ≤ t[7] := by
  intro h
  by_contra hgt
  have habove : bigValue t < bigValue dw :=
    (fullLess_iff t dw).1 (fullLess_of_topLess ((topLess_iff t dw).2 (BitVec.not_le.1 hgt)))
  exact Nat.lt_asymm h habove

/-- Settles O46: the first words that differ decide, and the first step looks at the top words only. -/
theorem acceptanceAgainstValue : Obligations.AcceptanceAgainstValue := by
  intro dw t
  refine ⟨topLess_iff dw t, fullLess_iff dw t, fullLess_of_topLess, accept_eq_topLess dw t, fun hacc => ?_,
    and_congr_right fun hlt => ?_, fun hzero => ?_⟩
  · rw [accept_eq_topLess] at hacc
    exact (fullLess_iff dw t).1 (fullLess_of_topLess hacc)
  · rw [← Bool.not_eq_true, accept_iff, BitVec.not_lt]
    exact ⟨BitVec.le_antisymm (top_le_of_bigValue_lt hlt), fun heq => heq ▸ BitVec.le_refl _⟩
  · rw [← Bool.not_eq_true, accept_iff, hzero]
    exact BitVec.not_lt_zero

/-! ## `CMP` -/

/-- Four bytes as a little-endian word (R15, R65). -/
theorem ofNat_leNat_four (a b c d : Byte) : (BitVec.ofNat 32 (leNat [a, b, c, d]) : Word32) = d ++ c ++ b ++ a := by
  have happend {n : Nat} (x : BitVec n) (y : Byte) : (x ++ y).toNat = 256 * x.toNat + y.toNat := by
    rw [BitVec.toNat_append, ← Nat.shiftLeft_add_eq_or_of_lt y.isLt, Nat.shiftLeft_eq, Nat.mul_comm]
  apply BitVec.eq_of_toNat_eq
  rw [happend, happend, happend, BitVec.toNat_ofNat, leNat, leNat, leNat, leNat, leNat]
  omega

/-- A word of a lane's digest by its bytes in CD (R221). -/
theorem digestWords_getElem (s : State) (l : Lane) (i : Fin 8) :
    (digestWords s l)[i] = s.byteAt .cd l (4 * i.val + 3) ++ s.byteAt .cd l (4 * i.val + 2)
      ++ s.byteAt .cd l (4 * i.val + 1) ++ s.byteAt .cd l (4 * i.val) := by
  have hbytes : memRead s .cd l (4 * i.val) 4 = [s.byteAt .cd l (4 * i.val), s.byteAt .cd l (4 * i.val + 1),
      s.byteAt .cd l (4 * i.val + 2), s.byteAt .cd l (4 * i.val + 3)] := rfl
  rw [digestWords, Fin.getElem_fin, Vector.getElem_ofFn, hbytes, ofNat_leNat_four]

/-- The word of `CMP` in each lane (R97). -/
theorem encodes_cmp (l : Lane) : Encodes (.cmp l) (0x40000000 ||| BitVec.ofNat 32 l.val) := by
  refine encodes_of_encode ?_
  fin_cases l <;> rfl

/-- Settles O47: `CMP` in a finished chain replaces one bit of QUAL, and elsewhere is out of sequence. -/
theorem cmpWritesOneFlag : Obligations.CmpWritesOneFlag := by
  refine ⟨encodes_cmp, fun l s dw hdone hdw => ?_, fun l s hseq => ?_⟩
  · obtain rfl : dw = digestWords s l :=
      Vector.ext fun i hi => (hdw ⟨i, hi⟩).trans (digestWords_getElem s l ⟨i, hi⟩).symm
    have hcmp : cmp l s = .ok (ran { s with qual := setQual s.qual l (acceptLane s l) }) := by rw [cmp, if_pos hdone]
    exact ⟨_, outcome_of_ran hcmp, rfl, fun m => setQual_getLsbD s.qual l m _⟩
  · have hcmp : cmp l s = .ok (raise .seqError s) := by rw [cmp, if_neg hseq]
    exact outcome_of_seqError hcmp

/-! ## The active lanes and `SC.BEGIN` -/

theorem activeLane_iff (s : State) (l : Lane) : activeLane s l = true ↔
    l = 0 ∨ (l.val < batchSize s.conf.batch ∧ s.nonce.toNat + l.val < s.max.toNat) := by
  simp only [activeLane, Bool.or_eq_true, Bool.and_eq_true, beq_iff_eq, decide_eq_true_eq]

theorem activeCount_le_batchSize (s : State) : activeCount s ≤ batchSize s.conf.batch := by
  rw [activeCount_eq]
  exact max_le (batchSize_le _).1 (min_le_left ..)

/-- The active lanes are the lowest (R228). -/
theorem activeLane_iff_lt_activeCount (s : State) (l : Lane) : activeLane s l = true ↔ l.val < activeCount s := by
  rw [activeLane_iff, activeCount_eq, Fin.ext_iff, Fin.val_zero]
  omega

/-- Settles O49: the count is what the batch and the range allow, and at least 1. -/
theorem activeLanesAreTheLowest : Obligations.ActiveLanesAreTheLowest := fun s =>
  ⟨one_le_activeCount s, activeCount_le_batchSize s, activeLane_iff_lt_activeCount s, activeLane_iff s⟩

/-- Settles O48: `SC.BEGIN` asks for nothing. -/
theorem scBeginStartsAtFirst : Obligations.ScBeginStartsAtFirst :=
  ⟨encodes_of_encode rfl, fun s => outcome_of_ran (t := scBegun s) rfl⟩

/-! ## A scan that is cancelled from before (R236) -/

/-- A scan whose first iteration ends it has ended in the step of `SCAN` (R233). -/
theorem exec_scan_of_ended (ht : scIter (scBegun s) = .ok (ran t)) (hend : t.scanst ≠ .run) :
    exec .scan s = .next t := by
  have hstays : scanGoesOn t = t := if_neg hend
  rw [exec_scan, scan_eq, scanTurn_runs rfl ht, hstays, outcome_ok, ran_st]

/-- A poll that gives 1 ends the scan (R227). -/
theorem scanStateAfter_true (n2 : Nat) (max : Word32) :
    scanStateAfter n2 max true = if max.toNat ≤ n2 then .exhausted else .cancelled := rfl

theorem polled_of_cancel (hp : s.polls = []) (hc : s.cancel = true) : polled s = true := by
  rw [polled, hp]
  exact hc

/-- Settles O53: the poll of the first iteration gives 1, so that iteration ends the scan. -/
theorem cancelledScanStopsAfterOneIteration : Obligations.CancelledScanStopsAfterOneIteration := by
  intro s hw hp hm hpolls hcancel
  obtain ⟨t, hscan, hi⟩ := scIter_done (s := scBegun s) rfl hw hp hm
  have hcount : activeCount (scBegun s) = batchAt s 0 := (tried_scBegun hm).activeCount_eq (.inl rfl)
  have ht : Tried s (batchAt s 0) t := Nat.zero_add (batchAt s 0) ▸ (tried_scBegun hm).iterate (.inl rfl) hi
  have hpoll : polled (scBegun s) = true := polled_of_cancel hpolls hcancel
  have hst : t.scanst = if s.max.toNat ≤ s.first.toNat + batchAt s 0 then .exhausted else .cancelled := by
    rw [hi.scanst, hpoll, hcount, scanStateAfter_true]
    rfl
  have hend : t.scanst ≠ .run := by
    rw [hst]
    split <;> decide
  have hsubq : t.subq = s.subq ++ scanEvents s.conf s.hdr s.tgt s.first (batchAt s 0) := hcount ▸ hi.subq
  refine ⟨t, batchAt s 0, exec_scan_of_ended hscan hend, hi.cmd, fun hmore => ?_, fun hall => ?_,
    hcount ▸ activeCount_le_batchSize (scBegun s), ht.attempts, ht.nonce, hsubq⟩
  · have hbatch : batchAt s 0 = batchSize s.conf.batch := batchAt_of_le (by omega)
    rw [hst, hbatch, if_neg (Nat.not_le.2 hmore)]
    exact ⟨rfl, rfl⟩
  · have hreached : s.max.toNat ≤ s.first.toNat + (0 + batchAt s 0) := by
      unfold batchAt
      omega
    have hbound := scanBound_of_exhausted (.inl rfl) hreached
    rw [Nat.zero_add] at hreached hbound
    exact ⟨by rw [hst, if_pos hreached], hbound⟩

end Sys2Proof.Machine
end

section
/-! The faults (spec/60_exceptions.md R251 to R266): the bit each one sets, the word that lies in no row (R258), where
`SEQ_ERROR` is raised (R259), and that under the invariant neither an instruction nor a step stops. -/

namespace Sys2Proof.Machine

variable {s t : State} {d : Done} {h : Hs}

/-! ## The bit of each fault -/

/-- Settles O10, fault by fault from what each leaves. -/
theorem eachFaultSetsItsBit : Obligations.EachFaultSetsItsBit := fun s =>
  ⟨fun imm => recordFault_cfgError imm s, recordFault_ctxState s, fun n => recordFault_badLength n s,
    fun g => recordFault_chainFatal g s, fun cw => recordFault_illegalCmd cw s, recordFault_seqError s⟩

/-! ## `ILLEGAL_CMD` -/

/-- A word that lies in no row decodes to no command (R99, R100). -/
theorem decodeCommand_of_no_row {cw : Word32} (hrow : ∀ i : Instr, i.row.covers (.command cw) = false) :
    ∃ e, decodeCommand cw = .error e := by
  cases hd : decodeCommand cw with
  | error e => exact ⟨e, rfl⟩
  | ok i =>
    have hcovers := row_covers_encode i
    rw [encode_of_decodeCommand hd, hrow i] at hcovers
    cases hcovers

/-- A CORE that is not halted raises `ILLEGAL_CMD` for a word that decodes to no command (R258). -/
theorem issue_undecoded {cw : Word32} {e : Reject} (hh : s.halted = false) (hd : decodeCommand cw = .error e) :
    issue cw s = .next (faultedHalt 5 s) := by
  rcases issue_cases cw s with ⟨hh', _⟩ | ⟨_, i, hi, _⟩ | ⟨_, _, _, heq⟩
  · rw [hh] at hh'; cases hh'
  · rw [hd] at hi; cases hi
  · rw [heq, recordFault_illegalCmd]

/-- Settles O8: the word is taken from CMD, decodes to no command, and its issue raises `ILLEGAL_CMD`. -/
theorem illegalWordHalts : Obligations.IllegalWordHalts := by
  intro s w hr hh hc hrow
  obtain ⟨e, hd⟩ := decodeCommand_of_no_row hrow
  rw [step_word hr hc]
  exact issue_undecoded (s := emptyCmd s) hh hd

/-! ## `SEQ_ERROR` -/

/-- A command that does not raise `SEQ_ERROR` leaves FAULT bit 6 as it was (R251, R253). -/
theorem Effect.seqErrorBit (he : Effect outsideScan s d) (hr : d.raised ≠ some .seqError) :
    d.st.fault.getLsbD 6 = s.fault.getLsbD 6 := by
  obtain ⟨hfault, _⟩ := he.faults
  rw [hfault]
  cases hf : d.raised with
  | none => rfl
  | some f =>
    have hcode : ¬ 6 = f.code := by
      cases f with
      | seqError => exact absurd hf hr
      | _ => simp [HwFault.code]
    rw [recorded, recordFault_fault, BitVec.getLsbD_or, f.bit_getLsbD, decide_eq_false hcode, Bool.or_false]

/-- Inside `CHAIN` no micro-operation is out of sequence: its only fault is `CHAIN_FATAL` (R259). -/
theorem chain_raised_ne_seqError (hd : chain s = .ok d) : d.raised ≠ some .seqError := by
  rcases chain_cases s with ⟨t, heq, _⟩ | ⟨g, u, heq, _⟩ <;> rw [heq] at hd <;> cases hd
  · simp
  · simp

/-- A turn of `SCAN` asks for an iteration only while the scan is running, so it is not out of sequence (R259). -/
theorem scanTurn_raised_ne_seqError (hd : scanTurn s = .ok d) : d.raised ≠ some .seqError := by
  rcases scanTurn_cases s with ⟨hr, heq⟩ | ⟨_, heq⟩ <;> rw [heq] at hd
  · rcases scIter_iterated hr with ⟨t, ht, _⟩ | ⟨g, u, hu, _⟩
    · rw [ht, andThen_ran] at hd; cases hd; simp
    · rw [hu, andThen_raise] at hd; cases hd; simp
  · cases hd; simp

theorem exec_chain_seqErrorBit (ht : exec .chain s = .next t) : t.fault.getLsbD 6 = s.fault.getLsbD 6 := by
  rw [exec_chain] at ht
  obtain ⟨r, hr⟩ := (outcome_next_iff _ _).1 ht
  exact (always_chain s _ hr).mono.seqErrorBit (chain_raised_ne_seqError hr)

theorem scanTurn_seqErrorBit (ht : outcome (scanTurn s) = .next t) : t.fault.getLsbD 6 = s.fault.getLsbD 6 := by
  obtain ⟨r, hr⟩ := (outcome_next_iff _ _).1 ht
  exact (always_scanTurn s _ hr).seqErrorBit (scanTurn_raised_ne_seqError hr)

/-- Between two iterations of `SCAN` the host does not write FAULT, and the next iteration is a turn of the loop. -/
theorem scanStep_seqErrorBit (ht : scanStep s = .next t) : t.fault.getLsbD 6 = s.fault.getLsbD 6 := by
  rcases scanStep_cases s with ⟨a, rest, _, ha, heq⟩ | ⟨rest, _, heq⟩ | ⟨_, heq⟩ <;> rw [heq] at ht
  · cases ht
    have hne : a ≠ .reset := by rintro rfl; cases ha
    obtain ⟨hfault, _⟩ := hostAct_frame hne (withInbox s rest)
    rw [hfault, withInbox_fault]
  · exact scanTurn_seqErrorBit (s := emptyCmd (withInbox s rest)) ht
  · exact scanTurn_seqErrorBit (s := emptyCmd s) ht

/-- Settles O45: the four commands check their sequencing state first, and `CHAIN` and `SCAN` ask for a micro-operation
only where it is in sequence. -/
theorem sequenceErrors : Obligations.SequenceErrors := by
  refine ⟨fun s hseq => exec_chStep_not_inChain ?_, fun s hseq => outcome_of_seqError (if_neg (not_and_or.2 hseq)),
    fun l s hseq => outcome_of_seqError (congrArg Except.ok (if_neg hseq)),
    fun s hseq => outcome_of_seqError (if_neg hseq), fun s t => exec_chain_seqErrorBit, fun s t ht => ?_,
    fun s t hc hr ht => ?_⟩
  · rintro ⟨hrun, hlt⟩
    rcases hseq with hn | h19
    · exact hn hrun
    · rw [h19] at hlt
      exact absurd hlt (by decide)
  · rw [exec_scan, scan_eq] at ht
    exact scanTurn_seqErrorBit (s := scBegun s) ht
  · rw [step_scan hc hr] at ht
    exact scanStep_seqErrorBit ht

/-! ## Every well-formed instruction answers -/

theorem RunsIn.answers {f : State → Res} (hf : RunsIn h f) (hr : Ready h s) : ∃ t, outcome (f s) = .next t := by
  obtain ⟨t, ht, _⟩ := hf s hr
  exact ⟨t, outcome_of_ran ht⟩

/-- A context command answers: CFG of a `READY` context is a legal configuration, and without one the command raises
`CTX_STATE` (R27, R152). -/
theorem exec_needsReady_answers {i : Instr} (hcfg : cfgMatches s.ctxst s.cfg) (hi : needsReady i = true) :
    ∃ t, exec i s = .next t := by
  by_cases hc : s.ctxst = .ready
  · obtain ⟨h, hr⟩ : ∃ h, Ready h s := by
      rw [hc] at hcfg
      obtain ⟨h, hw⟩ := hcfg
      exact ⟨h, hc, hw⟩
    cases i with
    | ctrAdv => exact runsIn_ctrAdv.answers hr
    | ldm src => exact (runsIn_ldm src).answers hr
    | save => exact runsIn_save.answers hr
    | subw g => exact (runsIn_subw g).answers hr
    | mixb g => exact (runsIn_mixb g).answers hr
    | ffwd => exact runsIn_ffwd.answers hr
    | compress src => exact (runsIn_compress src).answers hr
    | pad n =>
      cases hn : legalLength h n with
      | true => exact (runsIn_pad hn).answers hr
      | false => exact ⟨_, exec_pad_illegal hr hn⟩
    | ctrFix => exact runsIn_ctrFix.answers hr
    | xtract => exact ⟨_, outcome_of_ran (xtract_ready hr)⟩
    | finalize n =>
      cases hn : legalLength h n with
      | true =>
        obtain ⟨t, ht, _⟩ := finalize_runs hn hr
        exact ⟨t, outcome_of_ran ht⟩
      | false => exact ⟨_, exec_finalize_illegal hr hn⟩
    | nop | ctxInit | chain | chBegin | chStep | chEnd | cmp | scan | scBegin | scIter | stgOrd | stgAes | stgLat
    | stgMh => cases hi
  · exact ⟨_, exec_not_ready hi hc⟩

theorem exec_ctxInit_answers (imm : BitVec 16) (s : State) : ∃ t, exec (.ctxInit imm) s = .next t := by
  cases hi : hsOfImm imm with
  | some h => exact ⟨_, outcome_of_ran (ctxInit_legal hi s)⟩
  | none => exact ⟨_, by rw [exec_ctxInit, ctxInit_illegal hi, outcome_ok]⟩

/-- `CHAIN` answers in every state: its `CH.BEGIN` verifies the table (R197). -/
theorem exec_chain_answers (s : State) : ∃ t, exec .chain s = .next t := by
  rcases chain_cases s with ⟨t, ht, _⟩ | ⟨g, u, hu, _⟩
  · exact ⟨t, outcome_of_ran ht⟩
  · exact ⟨_, outcome_of_chainFatal hu⟩

/-- `CH.STEP` answers on a verified table: a stage under way runs, or a primitive misbehaves in it (R204). -/
theorem exec_chStep_answers (htable : s.chst ≠ .idle → wfTable s.conf.stages = true) :
    ∃ t, exec .chStep s = .next t := by
  by_cases hc : InChain s
  · have hw := htable (by rw [hc.1]; decide)
    rcases chStep_verified hc hw with ⟨t, ht, _⟩ | ⟨_, heq⟩
    · exact ⟨t, outcome_of_ran ht⟩
    · exact ⟨_, outcome_of_chainFatal heq⟩
  · exact ⟨_, exec_chStep_not_inChain hc⟩

/-- `CH.END` answers on a verified table, whose result lies inside RB (R196 W8). -/
theorem exec_chEnd_answers (htable : s.chst ≠ .idle → wfTable s.conf.stages = true) :
    ∃ t, exec .chEnd s = .next t := by
  rcases chEnd_cases s with ⟨_, heq⟩ | ⟨hrun, _, hout, _⟩ | ⟨_, _, _, heq⟩
  · exact ⟨_, outcome_of_seqError heq⟩
  · have hin := wfTable_lastOutOff (htable (by rw [hrun]; decide))
    rw [hin] at hout
    cases hout
  · exact ⟨_, outcome_of_ran heq⟩

/-- An external stage answers where every byte its descriptor names exists. -/
theorem externalStage_answers {f : StageFields} (hsp : stageInSpace f = true) (s : State) :
    ∃ t, outcome (externalStage f s) = .next t := by
  rcases externalStage_cases f s with ⟨_, heq⟩ | ⟨_, hout, _⟩ | ⟨_, _, _, heq⟩ | ⟨_, _, _, heq⟩
  · exact ⟨_, outcome_of_seqError heq⟩
  · rw [hsp] at hout
    cases hout
  · exact ⟨_, outcome_of_ran heq⟩
  · exact ⟨_, outcome_of_chainFatal heq⟩

/-- An AES descriptor asks for one of the two output widths (R196 W7). -/
theorem aesDescriptor_width {f : StageFields} (hwf : f.wf .aes = true) : ∃ h : Hs, h.bits = 8 * f.outLen.toNat := by
  rcases aesDescriptor_cases hwf with ⟨_, _, ho⟩ | ⟨_, _, ho⟩ | ⟨_, _, ho⟩ <;> rw [ho]
  · exact ⟨.h512, rfl⟩
  · exact ⟨.h512, rfl⟩
  · exact ⟨.h256, rfl⟩

/-- The AES stage of a well-formed descriptor answers (R201). -/
theorem exec_stgAes_answers {f : StageFields} (hwf : f.wf .aes = true) (s : State) :
    ∃ t, exec (.stgAes f) s = .next t := by
  by_cases hc : InChain s
  · obtain ⟨h, hb⟩ := aesDescriptor_width hwf
    obtain ⟨hwords, hn⟩ := aesDescriptor_length hwf hb
    exact ⟨_, outcome_of_ran (aesStage_ready hc (aesDescriptor_inSpace hwf) hwords hb hn)⟩
  · exact ⟨_, outcome_of_seqError (if_neg hc)⟩

/-- A turn of the loop of `SCAN` answers in every state: each of its chain evaluations verifies the table (R260). -/
theorem scanTurn_answers (s : State) : ∃ t, outcome (scanTurn s) = .next t := by
  rcases scanTurn_cases s with ⟨hr, heq⟩ | ⟨_, heq⟩
  · rcases scIter_iterated hr with ⟨t, ht, _⟩ | ⟨g, u, hu, _⟩
    · exact ⟨_, outcome_of_ran (scanTurn_runs hr ht)⟩
    · exact ⟨_, outcome_of_chainFatal (by rw [heq, hu, andThen_raise])⟩
  · exact ⟨_, outcome_of_ran heq⟩

theorem exec_scan_answers (s : State) : ∃ t, exec .scan s = .next t := by
  rw [exec_scan, scan_eq]
  exact scanTurn_answers (scBegun s)

theorem exec_scIter_answers (s : State) : ∃ t, exec .scIter s = .next t := by
  by_cases hr : s.scanst = .run
  · rcases scIter_iterated hr with ⟨t, ht, _⟩ | ⟨g, u, hu, _⟩
    · exact ⟨t, outcome_of_ran ht⟩
    · exact ⟨_, outcome_of_chainFatal hu⟩
  · exact ⟨_, outcome_of_seqError (if_neg hr)⟩

/-- Settles O60: the model's three stops need a CFG, a table or a descriptor that the invariant and well-formedness
exclude. -/
theorem wellFormedInstructionsAnswer : Obligations.WellFormedInstructionsAnswer := by
  intro i s hs hwf
  cases i with
  | ctrAdv | ldm | save | subw | mixb | ffwd | compress | pad | ctrFix | xtract | finalize =>
    exact exec_needsReady_answers hs.cfg rfl
  | ctxInit imm => exact exec_ctxInit_answers imm s
  | chain => exact exec_chain_answers s
  | chStep => exact exec_chStep_answers hs.table
  | chEnd => exact exec_chEnd_answers hs.table
  | scan => exact exec_scan_answers s
  | scIter => exact exec_scIter_answers s
  | stgOrd f => exact externalStage_answers (wfDescriptor_inSpace (k := .ord) hwf) s
  | stgLat f => exact externalStage_answers (wfDescriptor_inSpace (k := .lat) hwf) s
  | stgMh f => exact externalStage_answers (wfDescriptor_inSpace (k := .mh) hwf) s
  | stgAes f => exact exec_stgAes_answers hwf s
  | nop | chBegin | cmp | scBegin => exact ⟨_, rfl⟩

/-! ## Every step answers -/

/-- A command word stands for no stage descriptor, and any other instruction is well-formed (R90, R107). -/
theorem wf_of_decodeCommand {cw : Word32} {i : Instr} (hd : decodeCommand cw = .ok i) : i.wf = true := by
  have hword := encode_of_decodeCommand hd
  cases i with
  | stgOrd | stgAes | stgLat | stgMh => cases hword
  | _ => rfl

theorem Inv.emptyCmd (hs : Inv s) : Inv (emptyCmd s) :=
  ⟨hs.cfg, hs.mem, hs.stage, hs.stageDone, hs.table, hs.counter, hs.faultBits, hs.haltedBit, hs.events,
    fun hc => by cases hc⟩

/-- The issue of a word answers: it is dropped, runs its command, or raises `ILLEGAL_CMD` (R91). -/
theorem issue_answers (hs : Inv s) (cw : Word32) : ∃ t, issue cw s = .next t := by
  rcases issue_cases cw s with ⟨_, heq⟩ | ⟨_, i, hd, heq⟩ | ⟨_, _, _, heq⟩
  · exact ⟨s, heq⟩
  · rw [heq]
    exact wellFormedInstructionsAnswer i s hs (wf_of_decodeCommand hd)
  · exact ⟨_, heq⟩

theorem scanStep_answers (s : State) : ∃ t, scanStep s = .next t := by
  rcases scanStep_cases s with ⟨_, _, _, _, heq⟩ | ⟨rest, _, heq⟩ | ⟨_, heq⟩ <;> rw [heq]
  · exact ⟨_, rfl⟩
  · exact scanTurn_answers (emptyCmd (withInbox s rest))
  · exact scanTurn_answers (emptyCmd s)

/-- Settles O59: RESET and the host always answer, and so does the command in hand, a word or a running `SCAN`. -/
theorem stepNeverStops : Obligations.StepNeverStops := by
  intro s hs
  rcases step_cases s with ⟨_, _, heq⟩ | ⟨_, cw, _, heq⟩ | ⟨_, _, heq⟩ | ⟨_, _, heq⟩
  · exact ⟨_, heq⟩
  · rw [heq]
    exact issue_answers hs.emptyCmd cw
  · rw [heq]
    exact scanStep_answers s
  · rcases idleStep_cases s with ⟨_, hidle⟩ | ⟨_, _, _, hidle⟩ <;> exact ⟨_, heq.trans hidle⟩

end Sys2Proof.Machine
end
